-- ==== Sys2Proof/Word.lean ====
section
/-!
DEFINITION. The word types of HUFFCORE: a byte (a symbol or a stream byte, R7), a command word (R60), the code
field CBITS (R20), and bit-strings (R8). Words of bits are bit vectors; everything the pseudocode counts with
(counts, lengths, node indexes, cursors) is a natural number, as R8 has it.
-/

namespace Sys2Proof

/-- A symbol or a byte of a packed stream: SYM_W = 8 bits (R7). -/
abbrev Byte := BitVec 8

/-- A command word, CMD_W = 16 bits (R7, R60). -/
abbrev CmdWord := BitVec 16

/-- The stored code bits CBITS, CODE_W = 255 bits (R7, R20). -/
abbrev CodeBits := BitVec 255

/-- A bit-string, first bit first: the bit that occurs first in the stream heads the list (R8). -/
abbrev BitString := List Bool

end Sys2Proof
end

