-- ==== Sys2Proof/Config.lean ====
section
/-!
DEFINITION. What an implementation of HUFFCORE fixes: the sizes of R7, fixed and open, and the one free value of the
model, the contents of memory entries that nothing has written (R36, R211).
-/

namespace Sys2Proof

/-- ALPHA, the number of symbol values: 2^SYM_W = 256 (R7). -/
abbrev alpha : Nat := 256

/-- NODE_MAX, the number of entries of NODE: 2*ALPHA - 1 = 511 (R7). -/
abbrev nodeMax : Nat := 511

/-- The open parameters of R7. They are arguments of the model: a state carries them and no step changes them
(DESIGN CHOICE, log 2). -/
structure Params where
  /-- LEN_W, the width of TOTAL, of every COUNT and WEIGHT, of ENCCNT, DBYTES and EOFF. -/
  lenW : Nat
  /-- PK_DEPTH, the number of byte entries of PKMEM. -/
  pkDepth : Nat
  /-- DO_DEPTH, the number of symbol entries of DOMEM. -/
  doDepth : Nat
  deriving DecidableEq, Repr

/-- REF, the reference configuration of R7. -/
def Params.ref : Params := { lenW := 32, pkDepth := 65536, doDepth := 65536 }

/-- 2^LEN_W - 1, the greatest value of the LEN_W-bit counters (R184). -/
def Params.lenMax (p : Params) : Nat := 2 ^ p.lenW - 1

/-- The least w with n <= 2^w, for n >= 1: "ceil(log2(n))" (R7). -/
def ceilLog2 (n : Nat) : Nat := if n ≤ 1 then 0 else Nat.log2 (n - 1) + 1

/-- RA_W, the width of the read port address (R7). -/
def Params.raW (p : Params) : Nat := max 9 (max (ceilLog2 p.pkDepth) (ceilLog2 p.doDepth))

/-- RD_W, the width of the read port data (R7). -/
def Params.rdW (p : Params) : Nat := max 264 (p.lenW + 27)

/-- FREE VALUE (log 3): the bits of an entry that no command has written since the last reset or CLR, by the number of
resets and CLRs so far, the read-port space of the entry (R43) and its index. It has no body, so nothing can be
proved of its value (R36, R46, R211); an entry keeps its value until the next reset or CLR, as R48 has reads
idempotent. -/
opaque Config.freeEntry : (epoch space index : Nat) → Nat

end Sys2Proof
end

