-- ==== Sys2Proof/Syntax.lean ====
section
/-!
DEFINITION. The eleven commands of R62, one constructor per row of spec/opcode_table.json.
-/

namespace Sys2Proof

/-- A command (R62). The operand of SYM, ENC and DECB is the 8-bit immediate, every value legal (R61). -/
inductive Instr where
  /-- NOP (R81). -/
  | nop
  /-- CLR: return to the start of the data flow (R82). -/
  | clr
  /-- SYM s: count one symbol (R90). -/
  | sym (s : Byte)
  /-- BUILD: construct the tree (R100). -/
  | build
  /-- GEN: derive the CodeBook (R120). -/
  | gen
  /-- ENCBEG: start of the bit-string B (R135). -/
  | encbeg
  /-- ENC s: append one symbol's code (R136). -/
  | enc (s : Byte)
  /-- ENCEND: padding and first byte (R138). -/
  | encend
  /-- DECBEG: start a decoding (R155). -/
  | decbeg
  /-- DECB b: one stream byte (R156). -/
  | decb (b : Byte)
  /-- DECEND: end of stream (R159). -/
  | decend
  deriving DecidableEq, Repr

end Sys2Proof
end

