-- ==== Sys2Proof/WellFormed.lean ====
section
/-!
DEFINITION. What well-formed means: the parameter ranges of R7, and the commands.
-/

namespace Sys2Proof

/-- The ranges of the open parameters: LEN_W >= 1, PK_DEPTH >= 1, DO_DEPTH >= 1 (R7). -/
def Params.wf (p : Params) : Bool := 1 ≤ p.lenW && 1 ≤ p.pkDepth && 1 ≤ p.doDepth

/-- Every command is well formed: its only operand is a byte and "every value legal" (R61), so the type of the operand
leaves nothing to check. -/
def Instr.wf : Instr → Bool
  | .nop | .clr | .build | .gen | .encbeg | .encend | .decbeg | .decend => true
  | .sym _ | .enc _ | .decb _ => true

end Sys2Proof
end

