-- ==== Sys2Proof/Decode.lean ====
section
/-!
DEFINITION. The command word (R60), total decoding (R63, R64), and the encoder written from the same table (R62).
-/

namespace Sys2Proof

/-- `op = cmd[15:8]` (R60). -/
def CmdWord.op (w : CmdWord) : Byte := w.extractLsb' 8 8

/-- `imm8 = cmd[7:0]` (R60). -/
def CmdWord.imm8 (w : CmdWord) : Byte := w.extractLsb' 0 8

/-- Why a word is not a command (R64). -/
inductive Illegal where
  /-- (a) the opcode is not in R62's table. -/
  | unassignedOpcode
  /-- (b) a command without an operand whose imm8 is not 0x00. -/
  | nonzeroOperand
  deriving DecidableEq, Repr

/-- The commands without an operand, by opcode (R62). -/
def plainCommand (op : Byte) : Option Instr :=
  if op = 0x00 then some .nop
  else if op = 0x01 then some .clr
  else if op = 0x11 then some .build
  else if op = 0x12 then some .gen
  else if op = 0x20 then some .encbeg
  else if op = 0x22 then some .encend
  else if op = 0x30 then some .decbeg
  else if op = 0x32 then some .decend
  else none

/-- Decoding, total on all 65536 words (R63); a word that is no command is rejected with the reason R64 gives. -/
def decode (w : CmdWord) : Except Illegal Instr :=
  let op := CmdWord.op w
  let imm := CmdWord.imm8 w
  if op = 0x10 then .ok (.sym imm)
  else if op = 0x21 then .ok (.enc imm)
  else if op = 0x31 then .ok (.decb imm)
  else match plainCommand op with
    | some i => if imm = 0 then .ok i else .error .nonzeroOperand
    | none => .error .unassignedOpcode

/-- The opcode of a command (R62). -/
def Instr.opcode : Instr → Byte
  | .nop => 0x00
  | .clr => 0x01
  | .sym _ => 0x10
  | .build => 0x11
  | .gen => 0x12
  | .encbeg => 0x20
  | .enc _ => 0x21
  | .encend => 0x22
  | .decbeg => 0x30
  | .decb _ => 0x31
  | .decend => 0x32

/-- The low byte of a command's word: its operand, or 0x00 (R61, R62). -/
def Instr.imm8 : Instr → Byte
  | .sym s => s
  | .enc s => s
  | .decb b => b
  | .nop | .clr | .build | .gen | .encbeg | .encend | .decbeg | .decend => 0x00

/-- The encoder: the word `{op, imm8}` of a command (R60, R65). -/
def encode (i : Instr) : CmdWord := i.opcode ++ i.imm8

/-- One row of the opcode map of R62: a word w selects the command when (w AND mask) = match. -/
structure OpcodeRow where
  mnemonic : String
  pattern : CmdWord
  mask : CmdWord
  deriving DecidableEq, Repr

/-- The opcode map of R62, in its order. -/
def opcodeMap : List OpcodeRow :=
  [⟨"NOP", 0x0000, 0xFFFF⟩, ⟨"CLR", 0x0100, 0xFFFF⟩, ⟨"SYM", 0x1000, 0xFF00⟩, ⟨"BUILD", 0x1100, 0xFFFF⟩,
   ⟨"GEN", 0x1200, 0xFFFF⟩, ⟨"ENCBEG", 0x2000, 0xFFFF⟩, ⟨"ENC", 0x2100, 0xFF00⟩, ⟨"ENCEND", 0x2200, 0xFFFF⟩,
   ⟨"DECBEG", 0x3000, 0xFFFF⟩, ⟨"DECB", 0x3100, 0xFF00⟩, ⟨"DECEND", 0x3200, 0xFFFF⟩]

/-- A word selects a row: (w AND mask) = match (R62). -/
def OpcodeRow.selectedBy (r : OpcodeRow) (w : CmdWord) : Bool := w &&& r.mask == r.pattern

/-- The mnemonic of a command (R62). -/
def Instr.mnemonic : Instr → String
  | .nop => "NOP"
  | .clr => "CLR"
  | .sym _ => "SYM"
  | .build => "BUILD"
  | .gen => "GEN"
  | .encbeg => "ENCBEG"
  | .enc _ => "ENC"
  | .encend => "ENCEND"
  | .decbeg => "DECBEG"
  | .decb _ => "DECB"
  | .decend => "DECEND"

/-- The command that the decoder reads from the table's numbering of bits: a command is one 16-bit word presented in
parallel (R44, R60), so the word is w itself, with every bit at or above nbits 0 (log 12). -/
def decodeTableWord (nbits w : Nat) : Option Instr :=
  match decode (BitVec.ofNat 16 (w % 2 ^ nbits)) with
  | .ok i => some i
  | .error _ => none

end Sys2Proof
end

