-- ==== Sys2Proof/Machine/State.lean ====
section
/-!
DEFINITION. The architectural state of HUFFCORE (R10 to R32), grouped by unit as R10 groups it, with the model's own
fields (parameters, the free-value epoch, the host's port), the reset state (R38), and the reasons the model stops.
-/

namespace Sys2Proof.Machine

/-- A memory: (index, entry) pairs, indexes strictly rising, no entry equal to what an unlisted index reads as. A memory
of bytes is a list of `Host.Cell`. -/
abbrev Mem (α : Type) := List (Nat × α)

/-- PHASE (R31): COUNT = 0, TREE = 1, READY = 2, ENC = 3, DEC = 4, HALT = 7. The values 5 and 6 never occur (I24). -/
inductive Phase where
  | count | tree | ready | enc | dec | halt
  deriving DecidableEq, Repr

/-- ECODE (R32, R181). The value 7 is never recorded (I24). -/
inductive ECode where
  /-- 0: no fault recorded. -/
  | noFault
  /-- 1 EMPTY_INPUT (R182). -/
  | emptyInput
  /-- 2 UNKNOWN_SYMBOL (R183). -/
  | unknownSymbol
  /-- 3 CORRUPT_STREAM (R185). -/
  | corruptStream
  /-- 4 CAPACITY (R184). -/
  | capacity
  /-- 5 SEQUENCE (R187). -/
  | sequence
  /-- 6 ILLEGAL_CMD (R188). -/
  | illegalCmd
  deriving DecidableEq, Repr

/-- One entry of NODE, the document's CodeNode (R15, R72). -/
structure Node where
  leaf : Bool
  weight : Nat
  sym : Byte
  left : Nat
  right : Nat
  deriving DecidableEq, Repr

/-- The symbol table counter ST (R11 to R14). -/
structure SymbolTable where
  count : Mem Nat
  order : Mem Byte
  nsym : Nat
  total : Nat
  deriving DecidableEq, Repr

/-- The tree builder TB (R15 to R18). `work` is the hidden WORK, empty between commands (R18; log 9). -/
structure TreeUnit where
  node : Mem Node
  nnode : Nat
  root : Nat
  work : List Nat
  deriving DecidableEq, Repr

/-- The code-table generator CG (R19 to R21). -/
structure CodeUnit where
  cvalid : Mem Bool
  clen : Mem Nat
  cbits : Mem CodeBits
  maxlen : Nat
  deriving DecidableEq, Repr

/-- The encoder EN (R22 to R25). -/
structure EncoderUnit where
  acc : Byte
  nbits : Nat
  pkmem : Mem Byte
  pklen : Nat
  pad : Nat
  pkvalid : Bool
  enccnt : Nat
  deriving DecidableEq, Repr

/-- The decoder DE (R26 to R30). -/
structure DecoderUnit where
  hdrv : Bool
  dpad : Nat
  hold : Byte
  holdv : Bool
  dcur : Nat
  dead : Bool
  domem : Mem Byte
  dolen : Nat
  dovalid : Bool
  dbytes : Nat
  deriving DecidableEq, Repr

/-- The fault record (R32). -/
structure FaultRecord where
  ecode : ECode
  ephase : Phase
  esym : Byte
  eoff : Nat
  deriving DecidableEq, Repr

/-- What the host can do between commands (R223). -/
inductive HostInput where
  /-- Present a command word on `cmd` with `cmd_valid` = 1 (R40). -/
  | command (w : CmdWord)
  /-- Select an entry on the read port: drive `rd_space`, and `rd_addr` with the low RA_W bits of `addr` (R41, R42). -/
  | read (space : BitVec 3) (addr : Nat)
  /-- Assert `rst` (R210). -/
  | reset
  deriving DecidableEq, Repr

/-- The host's side of the ports (R41), the model's own field (logs 1 and 6): the actions to come, oldest first, and the
read-port pins as the host last drove them. -/
structure HostPort where
  inputs : List HostInput
  rdSpace : BitVec 3
  /-- `rd_addr`, RA_W bits (R7, R41): the only operation that writes it cuts to that width. -/
  rdAddr : Nat
  deriving DecidableEq, Repr

/-- The state: the units of R10, PHASE and the fault record, then the model's own fields. -/
structure State where
  st : SymbolTable
  tb : TreeUnit
  cg : CodeUnit
  en : EncoderUnit
  de : DecoderUnit
  phase : Phase
  fr : FaultRecord
  /-- The open parameters of R7 (log 2). -/
  params : Params
  /-- How many resets and CLRs have happened: the argument of the free values (log 3). -/
  epoch : Nat
  port : HostPort
  deriving DecidableEq, Repr

/-- Why the model itself stops. The faults of the hardware (R180) are no stops: they are next states. -/
inductive Fault where
  /-- Raised by GEN when the links followed from ROOT contain a cycle, so that the traversal of R121 never ends. No run
  from reset has such a tree (R106). Safe: the model stops where the pseudocode goes on for ever (log 5). -/
  | endlessTraversal
  deriving DecidableEq, Repr

/-- Why an instruction has no meaning in the model. -/
inductive Refusal where
  /-- Raised by an arm of `exec` that has no meaning yet; no arm raises it now. Safe: the model stops. -/
  | notModelled (mnemonic : String)
  deriving DecidableEq, Repr

/-- The symbol table after reset: empty (R38). -/
def SymbolTable.reset : SymbolTable := { count := [], order := [], nsym := 0, total := 0 }

/-- The tree builder after reset: no tree (R38). -/
def TreeUnit.reset : TreeUnit := { node := [], nnode := 0, root := 0, work := [] }

/-- The code table after reset: no CodeBook (R38). -/
def CodeUnit.reset : CodeUnit := { cvalid := [], clen := [], cbits := [], maxlen := 0 }

/-- The encoder after reset (R38). -/
def EncoderUnit.reset : EncoderUnit :=
  { acc := 0, nbits := 0, pkmem := [], pklen := 0, pad := 0, pkvalid := false, enccnt := 0 }

/-- The decoder after reset (R38). -/
def DecoderUnit.reset : DecoderUnit :=
  { hdrv := false, dpad := 0, hold := 0, holdv := false, dcur := 0, dead := false, domem := [], dolen := 0,
    dovalid := false, dbytes := 0 }

/-- The fault record after reset: no fault (R38). -/
def FaultRecord.reset : FaultRecord := { ecode := .noFault, ephase := .count, esym := 0, eoff := 0 }

/-- The state after reset (R38, R210), in the reference configuration REF (R7; log 2), with no host action waiting
(log 1) and the read-port pins at 0 (log 6). -/
def State.reset : State :=
  { st := .reset, tb := .reset, cg := .reset, en := .reset, de := .reset, phase := .count, fr := .reset,
    params := .ref, epoch := 0, port := { inputs := [], rdSpace := 0, rdAddr := 0 } }

end Sys2Proof.Machine
end

