-- ==== Sys2Proof/Machine/Ops.lean ====
section
/-!
DEFINITION. The named operations over the memories and registers: reading and writing one whole entry (R46, R48), the
free value of an unwritten entry (R36), fault entry (R186) and recovery from it (R193), and the frame in which every
command executes (R80).
-/

namespace Sys2Proof.Machine

/-! ## One whole entry of a memory -/

/-- The entry listed at an index, if there is one. -/
def Mem.find {α : Type} : Mem α → Nat → Option α
  | [], _ => none
  | (b, v) :: m, a => if a = b then some v else Mem.find m a

/-- List an entry at an index, replacing the one that is there. -/
def Mem.insert {α : Type} : Mem α → Nat → α → Mem α
  | [], a, v => [(a, v)]
  | (b, w) :: m, a, v =>
    if a < b then (a, v) :: (b, w) :: m
    else if a = b then (a, v) :: m
    else (b, w) :: Mem.insert m a v

/-- Unlist an index. -/
def Mem.erase {α : Type} : Mem α → Nat → Mem α
  | [], _ => []
  | (b, w) :: m, a => if a = b then m else (b, w) :: Mem.erase m a

/-- Write one whole entry (R48) of a memory of `size` entries, in canonical form: writing what an unlisted index reads as
unlists it. There is no entry at or beyond `size` and nothing is written there (R46; log 11). -/
def Mem.write {α : Type} [DecidableEq α] (size : Nat) (unlisted : Option α) (m : Mem α) (a : Nat) (v : α) : Mem α :=
  if a < size then
    if unlisted = some v then Mem.erase m a else Mem.insert m a v
  else m

/-- The indexes of a list of entries rise strictly, from a lower bound on. -/
def Mem.rising {α : Type} : Nat → Mem α → Bool
  | _, [] => true
  | low, (a, _) :: m => low ≤ a && Mem.rising (a + 1) m

/-- The canonical form of a memory of `size` entries: indexes strictly rising and below `size`, no entry equal to what an
unlisted index reads as. -/
def Mem.wf {α : Type} [DecidableEq α] (size : Nat) (unlisted : Option α) (m : Mem α) : Bool :=
  Mem.rising 0 m && m.all (fun e => e.1 < size && unlisted ≠ some e.2)

/-! ## The memories of R43: what an entry reads as, and writing one -/

/-- The read-port space numbers of the memories with unspecified reset contents (R43), naming their free values. -/
def spaceOrder : Nat := 2
def spaceNode : Nat := 3
def spaceCode : Nat := 4
def spacePkmem : Nat := 5
def spaceDomem : Nat := 6

/-- COUNT[s]; an unlisted entry is 0 (R11, R38). -/
def State.countAt (s : State) (y : Byte) : Nat := (Mem.find s.st.count y.toNat).getD 0

/-- ORDER[i]; an entry not written is a free value (R12, R36; log 3). -/
def State.orderAt (s : State) (i : Nat) : Byte :=
  (Mem.find s.st.order i).getD (BitVec.ofNat 8 (Config.freeEntry s.epoch spaceOrder i))

/-- The entry whose bits, in the layout of R45, are those of a number. -/
def Node.unpack (lenW : Nat) (bits : Nat) : Node :=
  { leaf := bits.testBit (lenW + 26)
    weight := bits / 2 ^ 26 % 2 ^ lenW
    sym := BitVec.ofNat 8 (bits / 2 ^ 18)
    left := bits / 2 ^ 9 % 2 ^ 9
    right := bits % 2 ^ 9 }

/-- NODE[k]; an entry not written is a free value (R15, R36; log 3). -/
def State.nodeAt (s : State) (k : Nat) : Node :=
  (Mem.find s.tb.node k).getD (Node.unpack s.params.lenW (Config.freeEntry s.epoch spaceNode k))

/-- CVALID[s]; an unlisted entry is 0 (R19, R38). -/
def State.cvalidAt (s : State) (y : Byte) : Bool := (Mem.find s.cg.cvalid y.toNat).getD false

/-- CLEN[s]; an entry not written is a free value of 8 bits, bits [262:255] of the CODE entry (R20, R45; log 3). -/
def State.clenAt (s : State) (y : Byte) : Nat :=
  (Mem.find s.cg.clen y.toNat).getD (Config.freeEntry s.epoch spaceCode y.toNat / 2 ^ 255 % 2 ^ 8)

/-- CBITS[s]; an entry not written is a free value of 255 bits, bits [254:0] of the CODE entry (R20, R45; log 3). -/
def State.cbitsAt (s : State) (y : Byte) : CodeBits :=
  (Mem.find s.cg.cbits y.toNat).getD (BitVec.ofNat 255 (Config.freeEntry s.epoch spaceCode y.toNat))

/-- PKMEM[i]; an entry not written is a free value (R23, R36; log 3). -/
def State.pkmemAt (s : State) (i : Nat) : Byte :=
  (Mem.find s.en.pkmem i).getD (BitVec.ofNat 8 (Config.freeEntry s.epoch spacePkmem i))

/-- DOMEM[i]; an entry not written is a free value (R29, R36; log 3). -/
def State.domemAt (s : State) (i : Nat) : Byte :=
  (Mem.find s.de.domem i).getD (BitVec.ofNat 8 (Config.freeEntry s.epoch spaceDomem i))

/-- COUNT[s] <- v. -/
def State.writeCount (s : State) (y : Byte) (v : Nat) : State :=
  { s with st := { s.st with count := Mem.write alpha (some 0) s.st.count y.toNat v } }

/-- NODE[k] <- v. -/
def State.writeNode (s : State) (k : Nat) (v : Node) : State :=
  { s with tb := { s.tb with node := Mem.write nodeMax none s.tb.node k v } }

/-- CVALID[s] <- 1, CLEN[s] <- length, CBITS[s] <- bits: one CODE entry (R120). -/
def State.writeCode (s : State) (y : Byte) (length : Nat) (bits : CodeBits) : State :=
  { s with cg :=
      { s.cg with
        cvalid := Mem.write alpha (some false) s.cg.cvalid y.toNat true
        clen := Mem.write alpha none s.cg.clen y.toNat length
        cbits := Mem.write alpha none s.cg.cbits y.toNat bits } }

/-- PKMEM[i] <- v. -/
def State.writePkmem (s : State) (i : Nat) (v : Byte) : State :=
  { s with en := { s.en with pkmem := Mem.write s.params.pkDepth none s.en.pkmem i v } }

/-- DOMEM[i] <- v. -/
def State.writeDomem (s : State) (i : Nat) (v : Byte) : State :=
  { s with de := { s.de with domem := Mem.write s.params.doDepth none s.de.domem i v } }

/-! ## Fault entry and recovery -/

/-- The offset that fault entry records, by phase (R199). In HALT no fault is raised (R194). -/
def State.offset (s : State) : Nat :=
  match s.phase with
  | .count => s.st.total
  | .tree => 0
  | .ready => 0
  | .enc => s.en.enccnt
  | .dec => s.de.dbytes
  | .halt => 0

/-- `raise Fault(code)` by a command whose low byte is `low`: the fault record, PHASE <- HALT, and nothing else (R186). -/
def State.raiseFault (s : State) (code : ECode) (low : Byte) : State :=
  { s with
    fr := { ecode := code, ephase := s.phase, esym := low, eoff := s.offset }
    phase := .halt }

/-- The state that CLR and `rst` leave (R38, R82, R210, R214): every register at its reset value, COUNT and CVALID all 0,
and the other memories unspecified, which a new epoch of the free values says (log 3). The parameters and the host's
side of the ports are not the core's to change. This is the only way out of HALT (R193). -/
def State.clear (s : State) : State :=
  { State.reset with params := s.params, epoch := s.epoch + 1, port := s.port }

/-! ## The execution frame -/

/-- The phases in which the frame performs a command: the column "Legal in" of R83. -/
def Instr.legalIn : Instr → Phase → Bool
  | .nop, p => p != .halt
  | .clr, _ => true
  | .sym _, p => p == .count
  | .build, p => p == .count
  | .gen, p => p == .tree
  | .encbeg, p => p == .ready
  | .enc _, p => p == .enc
  | .encend, p => p == .enc
  | .decbeg, p => p == .ready
  | .decb _, p => p == .dec
  | .decend, p => p == .dec

/-- How performing a command ends. -/
inductive Performed where
  /-- It completes. -/
  | done (t : State)
  /-- It raises a fault of its own (R190 item 4). -/
  | raise (code : ECode)
  /-- Its pseudocode never ends. -/
  | stuck (r : Fault)
  deriving DecidableEq, Repr

/-- The execution frame of R80 for a decoded command: when halted, only CLR is performed and every other word changes
nothing (R192); then the phase check, SEQUENCE (R187); then the command's own rule, whose faults are precise: they
change the state the command found by fault entry and by nothing else (R191). -/
def State.perform (s : State) (i : Instr) (body : State → Performed) : Host.Outcome State Fault Refusal :=
  if s.phase = .halt ∧ i ≠ .clr then .next s
  else if Instr.legalIn i s.phase then
    match body s with
    | .done t => .next t
    | .raise code => .next (s.raiseFault code i.imm8)
    | .stuck r => .fault r
  else .next (s.raiseFault .sequence i.imm8)

/-- The execution frame of R80 for a word that decodes to ILLEGAL (R64, R188): ignored when halted (R192), else
ILLEGAL_CMD with the word's low byte. -/
def State.rejectWord (s : State) (w : CmdWord) : State :=
  if s.phase = .halt then s else s.raiseFault .illegalCmd (CmdWord.imm8 w)

/-! ## The host's side -/

/-- A read drives the read-port pins and has no effect on the core (R42). `rd_addr` is RA_W bits wide (R7, R41): it
takes the low RA_W bits of the index (log 6). -/
def State.selectRead (s : State) (space : BitVec 3) (addr : Nat) : State :=
  { s with port := { s.port with rdSpace := space, rdAddr := addr % 2 ^ s.params.raW } }

/-- The state once the host's oldest waiting action has been taken. -/
def State.takeInput (s : State) (rest : List HostInput) : State :=
  { s with port := { s.port with inputs := rest } }

/-- The host presents this word next, before every action that is waiting. -/
def State.presentWord (s : State) (w : CmdWord) : State :=
  { s with port := { s.port with inputs := .command w :: s.port.inputs } }

end Sys2Proof.Machine
end

