-- ==== Sys2Proof/Machine/Operands.lean ====
section
/-!
DEFINITION. The operand forms of the commands (R54, R61): by symbol value, by node index held in a register or a NODE
field, by cursor with post-increment; and the bit-strings of R8, R44 and R71 that the packer and the walker take
apart.
-/

namespace Sys2Proof.Machine

/-! ## By cursor, post-incremented (R54) -/

/-- ORDER[NSYM++] <- s (R54, R90). -/
def State.appendOrder (s : State) (y : Byte) : State :=
  { s with st :=
      { s.st with
        order := Mem.write alpha none s.st.order s.st.nsym y
        nsym := s.st.nsym + 1 } }

/-- PKMEM[PKLEN++] <- v (R54). -/
def State.appendPkmem (s : State) (v : Byte) : State :=
  let t := s.writePkmem s.en.pklen v
  { t with en := { t.en with pklen := s.en.pklen + 1 } }

/-- DOMEM[DOLEN++] <- v (R54, R158). -/
def State.appendDomem (s : State) (v : Byte) : State :=
  let t := s.writeDomem s.de.dolen v
  { t with de := { t.de with dolen := s.de.dolen + 1 } }

/-! ## By node index (R54) -/

/-- The child of an internal node by one bit: LEFT by a 0, RIGHT by a 1 (R72). -/
def Node.child (n : Node) (b : Bool) : Nat := if b then n.right else n.left

/-! ## Bit-strings -/

/-- `val(B)`: the number whose binary numeral is B, first bit most significant (R8). -/
def bitVal (b : BitString) : Nat := b.foldl (fun v x => 2 * v + x.toNat) 0

/-- The code word (CLEN, CBITS) as a bit-string: bit CLEN-1 first, bit 0 last (R71). -/
def codeString (length : Nat) (bits : CodeBits) : BitString :=
  (List.range length).map (fun j => bits.getLsbD (length - 1 - j))

/-- The code of a symbol, as a bit-string (R71, R140). -/
def State.code (s : State) (y : Byte) : BitString := codeString (s.clenAt y) (s.cbitsAt y)

/-- Bits 7 down to `lo` of a byte, most significant first (R44, R157); none for `lo` = 8. -/
def byteBits (v : Byte) (lo : Nat) : BitString := (List.range (8 - lo)).map (fun j => v.getLsbD (7 - j))

end Sys2Proof.Machine
end

