-- ==== Sys2Proof/Machine/CodeBook.lean ====
section
/-!
DEFINITION. The code-table generator CG: GEN (R120 to R123).
-/

namespace Sys2Proof.Machine

/-- The leaves below node k with the bit-string of the path from the root to each, left subtree before right (R121):
descending left appends 0, descending right appends 1. `path` is the path to k. The first argument is how many nodes
the path may still hold: the node indexes have 9 bits, so a path of more than 512 nodes repeats one and the traversal
has no end; that is `none` (log 5). -/
def State.leafPaths (s : State) : Nat → Nat → BitString → Option (List (Byte × BitString))
  | 0, _, _ => none
  | fuel + 1, k, path =>
    let n := s.nodeAt k
    if n.leaf then some [(n.sym, path)]
    else
      match s.leafPaths fuel n.left (path ++ [false]), s.leafPaths fuel n.right (path ++ [true]) with
      | some l, some r => some (l ++ r)
      | _, _ => none

/-- Record one code: CVALID[s] <- 1, CLEN[s] <- its length, CBITS[s] <- its val (R71, R121). -/
def State.recordCode (s : State) (e : Byte × BitString) : State :=
  s.writeCode e.1 e.2.length (BitVec.ofNat 255 (bitVal e.2))

/-- The greatest length of a list of codes, 0 for none (R121). -/
def maxLength (l : List (Byte × BitString)) : Nat := l.foldl (fun m e => max m e.2.length) 0

/-- Record the codes in order, MAXLEN <- the greatest length, PHASE <- READY (R120). -/
def State.recordCodeBook (s : State) (l : List (Byte × BitString)) : State :=
  let t := l.foldl State.recordCode s
  { t with cg := { t.cg with maxlen := maxLength l }, phase := .ready }

/-- The pseudocode of GEN (R120). With exactly one distinct symbol the code is the fixed 1-bit code "0" (R122). -/
def genBody (s : State) : Performed :=
  let r := s.nodeAt s.tb.root
  if r.leaf then .done (s.recordCodeBook [(r.sym, [false])])
  else
    match s.leafPaths 512 s.tb.root [] with
    | some l => .done (s.recordCodeBook l)
    | none => .stuck .endlessTraversal

/-- GEN: derive the CodeBook (R120). -/
def execGen (s : State) : Host.Outcome State Fault Refusal := s.perform .gen genBody

end Sys2Proof.Machine
end

