-- ==== Sys2Proof/Machine/Control.lean ====
section
/-!
DEFINITION. The control commands NOP (R81) and CLR (R82).
-/

namespace Sys2Proof.Machine

/-- NOP: nothing (R81). -/
def execNop (s : State) : Host.Outcome State Fault Refusal := s.perform .nop (fun s => .done s)

/-- CLR: the reset state, from every phase including HALT (R82). -/
def execClr (s : State) : Host.Outcome State Fault Refusal := s.perform .clr (fun s => .done s.clear)

end Sys2Proof.Machine
end

