-- ==== Sys2Proof/Machine/Counter.lean ====
section
/-!
DEFINITION. The symbol table counter ST: SYM (R90).
-/

namespace Sys2Proof.Machine

/-- The pseudocode of SYM (R90). -/
def symBody (y : Byte) (s : State) : Performed :=
  if s.st.total = s.params.lenMax then .raise .capacity
  else
    let t := if s.countAt y = 0 then s.appendOrder y else s
    let u := t.writeCount y (t.countAt y + 1)
    .done { u with st := { u.st with total := u.st.total + 1 } }

/-- SYM s: count one occurrence of a symbol (R90). -/
def execSym (y : Byte) (s : State) : Host.Outcome State Fault Refusal := s.perform (.sym y) (symBody y)

end Sys2Proof.Machine
end

