-- ==== Sys2Proof/Machine/Decoder.lean ====
section
/-!
DEFINITION. The bit-serial decoder DE: DECBEG (R155), DECB (R156) and DECEND (R159), over the bit walk of R157.
-/

namespace Sys2Proof.Machine

/-- The triple (cur, dead, out) that the walk carries and Commit writes back (R157). -/
structure Walk where
  cur : Nat
  dead : Bool
  out : List Byte
  deriving DecidableEq, Repr

/-- The pseudocode of DECBEG (R155). -/
def decbegBody (s : State) : Performed :=
  .done { s with
    de := { s.de with hdrv := false, dpad := 0, hold := 0, holdv := false, dcur := s.tb.root, dead := false, dolen := 0, dovalid := false, dbytes := 0 }
    phase := .dec }

/-- DECBEG: start a decoding (R155). -/
def execDecbeg (s : State) : Host.Outcome State Fault Refusal := s.perform .decbeg decbegBody

/-- Emit one symbol, or `none` for the outcome CAPACITY (R157). -/
def State.emit (s : State) (y : Byte) (r : Walk) : Option Walk :=
  if s.de.dolen + r.out.length = s.params.doDepth then none
  else some { r with out := r.out ++ [y] }

/-- DecBit, the walk of one bit, or `none` for the outcome CAPACITY (R157). -/
def State.decBit (s : State) (r : Walk) (b : Bool) : Option Walk :=
  if r.dead then some r
  else if (s.nodeAt s.tb.root).leaf then
    if b then some { r with dead := true }
    else s.emit (s.nodeAt s.tb.root).sym r
  else
    let nxt := (s.nodeAt r.cur).child b
    if (s.nodeAt nxt).leaf then s.emit (s.nodeAt nxt).sym { r with cur := s.tb.root }
    else some { r with cur := nxt }

/-- The walk of a bit-string, first bit first; it stops at the first CAPACITY (R157). -/
def State.walkBits (s : State) : BitString → Walk → Option Walk
  | [], r => some r
  | b :: bs, r =>
    match s.decBit r b with
    | some r' => s.walkBits bs r'
    | none => none

/-- Walk(v, lo): from (DCUR, DEAD, []) over bits 7 down to lo of the byte v (R157). -/
def State.walk (s : State) (v : Byte) (lo : Nat) : Option Walk :=
  s.walkBits (byteBits v lo) { cur := s.de.dcur, dead := s.de.dead, out := [] }

/-- Commit((cur, dead, out)) (R158). -/
def State.commit (s : State) (r : Walk) : State :=
  r.out.foldl State.appendDomem { s with de := { s.de with dcur := r.cur, dead := r.dead } }

/-- DBYTES <- DBYTES + 1. -/
def State.countByte (s : State) : State := { s with de := { s.de with dbytes := s.de.dbytes + 1 } }

/-- HOLD <- b; HOLDV <- 1. -/
def State.holdByte (s : State) (b : Byte) : State := { s with de := { s.de with hold := b, holdv := true } }

/-- The pseudocode of DECB (R156). -/
def decbBody (b : Byte) (s : State) : Performed :=
  if s.de.dbytes = s.params.lenMax then .raise .capacity
  else if s.de.hdrv = false then
    if b.toNat > 7 then .raise .corruptStream
    else .done (State.countByte { s with de := { s.de with dpad := b.toNat, hdrv := true } })
  else if s.de.holdv then
    match s.walk s.de.hold 0 with
    | none => .raise .capacity
    | some r => .done ((s.commit r).holdByte b).countByte
  else .done (s.holdByte b).countByte

/-- DECB b: take one byte of the stream (R156). -/
def execDecb (b : Byte) (s : State) : Host.Outcome State Fault Refusal := s.perform (.decb b) (decbBody b)

/-- The final check of DECEND and its commit: a non-empty candidate is CORRUPT_STREAM (R159). -/
def State.finishDecode (s : State) (r : Walk) : Performed :=
  if r.dead = true ∨ r.cur ≠ s.tb.root then .raise .corruptStream
  else
    let t := s.commit r
    .done { t with de := { t.de with holdv := false, dovalid := true }, phase := .ready }

/-- The pseudocode of DECEND (R159). -/
def decendBody (s : State) : Performed :=
  if s.de.hdrv = false then .raise .corruptStream
  else if s.de.holdv = false then
    if s.de.dpad ≠ 0 then .raise .corruptStream
    else s.finishDecode { cur := s.de.dcur, dead := s.de.dead, out := [] }
  else
    match s.walk s.de.hold s.de.dpad with
    | none => .raise .capacity
    | some r => s.finishDecode r

/-- DECEND: walk the last byte less its filler and end the decoding (R159). -/
def execDecend (s : State) : Host.Outcome State Fault Refusal := s.perform .decend decendBody

end Sys2Proof.Machine
end

