-- ==== Sys2Proof/Machine/Encoder.lean ====
section
/-!
DEFINITION. The bit-serial encoder EN: ENCBEG (R135), ENC (R136, R137) and ENCEND (R138).
-/

namespace Sys2Proof.Machine

/-- The pseudocode of ENCBEG (R135). -/
def encbegBody (s : State) : Performed :=
  let t := s.writePkmem 0 0
  .done { t with
    en := { t.en with acc := 0, nbits := 0, pklen := 1, pad := 0, pkvalid := false, enccnt := 0 }
    phase := .enc }

/-- ENCBEG: start an empty bit-string B (R135). -/
def execEncbeg (s : State) : Host.Outcome State Fault Refusal := s.perform .encbeg encbegBody

/-- EncBit, the packer step for one bit (R137). -/
def State.encBit (s : State) (b : Bool) : State :=
  let a : Byte := 2 * s.en.acc + BitVec.ofNat 8 b.toNat
  if s.en.nbits = 7 then
    let t := s.appendPkmem a
    { t with en := { t.en with acc := 0, nbits := 0 } }
  else { s with en := { s.en with acc := a, nbits := s.en.nbits + 1 } }

/-- The pseudocode of ENC (R136): three checks, then the bits of the code, first bit first. -/
def encBody (y : Byte) (s : State) : Performed :=
  if s.cvalidAt y = false then .raise .unknownSymbol
  else if s.en.enccnt = s.params.lenMax then .raise .capacity
  else if s.en.pklen + (s.en.nbits + s.clenAt y) / 8 > s.params.pkDepth then .raise .capacity
  else
    let t := (s.code y).foldl State.encBit s
    .done { t with en := { t.en with enccnt := t.en.enccnt + 1 } }

/-- ENC s: append one symbol's code to B (R136). -/
def execEnc (y : Byte) (s : State) : Host.Outcome State Fault Refusal := s.perform (.enc y) (encBody y)

/-- The end of ENCEND, common to both of its cases: the padding P into PKMEM[0] and PAD (R138). -/
def State.finishStream (s : State) (p : Nat) : State :=
  let t := s.writePkmem 0 (BitVec.ofNat 8 p)
  { t with
    en := { t.en with pad := p, acc := 0, nbits := 0, pkvalid := true }
    phase := .ready }

/-- The pseudocode of ENCEND (R138). -/
def encendBody (s : State) : Performed :=
  if s.en.nbits > 0 then
    if s.en.pklen + 1 > s.params.pkDepth then .raise .capacity
    else
      let p := 8 - s.en.nbits
      .done ((s.appendPkmem (BitVec.ofNat 8 (s.en.acc.toNat * 2 ^ p))).finishStream p)
  else .done (s.finishStream 0)

/-- ENCEND: pad B to whole bytes and complete the packed stream (R138). -/
def execEncend (s : State) : Host.Outcome State Fault Refusal := s.perform .encend encendBody

end Sys2Proof.Machine
end

