-- ==== Sys2Proof/Machine/TreeBuilder.lean ====
section
/-!
DEFINITION. The tree builder TB, the greedy merge engine: BUILD (R100 to R107).
-/

namespace Sys2Proof.Machine

/-- key(j) < key(k): by weight, then by node index (R103). -/
def State.keyLt (s : State) (j k : Nat) : Bool :=
  (s.nodeAt j).weight < (s.nodeAt k).weight || ((s.nodeAt j).weight == (s.nodeAt k).weight && j < k)

/-- Insert(W, k): after the p elements whose key is below key(k) (R104). -/
def State.insertKey (s : State) (w : List Nat) (k : Nat) : List Nat :=
  let p := w.countP (fun j => s.keyLt j k)
  w.take p ++ k :: w.drop p

/-- Sort: the arrangement of a list of node indexes with strictly ascending keys (R102), by repeated Insert (log 8). -/
def State.sortKeys (s : State) (w : List Nat) : List Nat := w.foldl s.insertKey []

/-- Leaves(n): NODE[i] <- Leaf(COUNT[ORDER[i]], ORDER[i]) for i = 0 to n-1 in order (R101). -/
def State.leaves (s : State) (n : Nat) : State :=
  (List.range n).foldl (fun t i =>
    t.writeNode i { leaf := true, weight := t.countAt (t.orderAt i), sym := t.orderAt i, left := 0, right := 0 }) s

/-- WORK <- w. -/
def State.setWork (s : State) (w : List Nat) : State := { s with tb := { s.tb with work := w } }

/-- Merge(next): one greedy merge of the two lowest keys of WORK (R104). With fewer than two elements there is nothing to
merge, which the loop of R100 excludes. -/
def State.merge (s : State) (next : Nat) : State :=
  match s.tb.work with
  | lo :: hi :: rest =>
    let t := s.writeNode next
      { leaf := false, weight := (s.nodeAt lo).weight + (s.nodeAt hi).weight, sym := 0, left := lo, right := hi }
    t.setWork (t.insertKey rest next)
  | _ => s

/-- `while len(WORK) > 1: Merge(next); next <- next + 1` (R100), which runs len(WORK) - 1 times (R105). It gives the
state and `next` after the loop. -/
def State.mergeTimes : Nat → State → Nat → State × Nat
  | 0, s, next => (s, next)
  | k + 1, s, next => State.mergeTimes k (s.merge next) (next + 1)

/-- The pseudocode of BUILD (R100). -/
def buildBody (s : State) : Performed :=
  let n := s.st.nsym
  if n = 0 then .raise .emptyInput
  else
    let t := s.leaves n
    let u := t.setWork (t.sortKeys (List.range n))
    let (v, next) := State.mergeTimes (u.tb.work.length - 1) u n
    .done { v with
      tb := { v.tb with root := v.tb.work.headD 0, nnode := next, work := [] }
      phase := .tree }

/-- BUILD: construct the tree (R100). -/
def execBuild (s : State) : Host.Outcome State Fault Refusal := s.perform .build buildBody

end Sys2Proof.Machine
end

