-- ==== Sys2Proof/Machine/Dispatch.lean ====
section
/-!
DEFINITION. One arm per command (R62).
-/

namespace Sys2Proof.Machine

-- Every command executes in the frame of R80, which its meaning applies.
def exec (i : Instr) (s : State) : Host.Outcome State Fault Refusal :=
  match i with
  | .nop => Sys2Proof.Machine.execNop s
  | .clr => Sys2Proof.Machine.execClr s
  | .sym y => Sys2Proof.Machine.execSym y s
  | .build => Sys2Proof.Machine.execBuild s
  | .gen => Sys2Proof.Machine.execGen s
  | .encbeg => Sys2Proof.Machine.execEncbeg s
  | .enc y => Sys2Proof.Machine.execEnc y s
  | .encend => Sys2Proof.Machine.execEncend s
  | .decbeg => Sys2Proof.Machine.execDecbeg s
  | .decb b => Sys2Proof.Machine.execDecb b s
  | .decend => Sys2Proof.Machine.execDecend s

end Sys2Proof.Machine
end

