-- ==== Sys2Proof/Machine/Step.lean ====
section
/-!
DEFINITION. One step: one action of the host (R223), taken in order from the host's side of the ports.
-/

namespace Sys2Proof.Machine

/-- Execute one accepted command word (R80). -/
def executeWord (w : CmdWord) (s : State) : Host.Outcome State Fault Refusal :=
  match decode w with
  | .ok i => exec i s
  | .error _ => .next (s.rejectWord w)

/-- One step (R6, R40, R223): the oldest waiting action of the host, or, with none waiting, nothing: the core stays idle
(R224; log 1). -/
def step (s : State) : Host.Outcome State Fault Refusal :=
  match s.port.inputs with
  | [] => .next s
  | .command w :: rest => executeWord w (s.takeInput rest)
  | .read space addr :: rest => .next ((s.takeInput rest).selectRead space addr)
  | .reset :: rest => .next (s.takeInput rest).clear

/-- The same state with one command word presented next on the command port (R40; log 1). -/
def State.withFetchWord (s : State) (nbits w : Nat) : State := s.presentWord (BitVec.ofNat 16 (w % 2 ^ nbits))

end Sys2Proof.Machine
end

