-- ==== Sys2Proof/Machine/Assembler.lean ====
section
/-!
DEFINITION. The notation for command sequences: assembler lines (R65) and pseudo-commands (R66). Nothing in the machine
depends on it.
-/

namespace Sys2Proof.Machine

/-- The value of a digit in a base of at most 16: its place among the digits; letters of either case (R65; log 10). -/
def digitValue (base : Nat) (c : Char) : Option Nat := ("0123456789ABCDEF".toList.take base).idxOf? c.toUpper

/-- The value of a numeral, most significant digit first, after the digits already read, whose value is v. -/
def numeralFrom (base : Nat) : Nat → List Char → Option Nat
  | v, [] => some v
  | v, c :: rest => (digitValue base c).bind fun d => numeralFrom base (base * v + d) rest

/-- An operand of 8 bits (R61). -/
def byteOfNat (v : Nat) : Option Byte := if v < 256 then some (BitVec.ofNat 8 v) else none

/-- An operand: `0xHH`, a decimal number 0 to 255, or a character in single quotes, whose ASCII code it is (R65; the
ASCII mapping is PRESUMED, log 10). -/
def parseOperand : List Char → Option Byte
  | [] => none
  | ['0', 'x', high, low] => (numeralFrom 16 0 [high, low]).bind byteOfNat
  | ['\'', c, '\''] => if c.toNat < 128 then byteOfNat c.toNat else none
  | digits => (numeralFrom 10 0 digits).bind byteOfNat

/-- The command without an operand that a mnemonic names (R62). -/
def plainByName (name : List Char) : Option Instr :=
  [Instr.nop, .clr, .build, .gen, .encbeg, .encend, .decbeg, .decend].find? (fun i => i.mnemonic.toList == name)

/-- The command with an operand that a mnemonic names (R62). -/
def operandByName (name : List Char) (b : Byte) : Option Instr :=
  [Instr.sym b, .enc b, .decb b].find? (fun i => i.mnemonic.toList == name)

/-- A text without the spaces it begins with. -/
def dropSpaces (l : List Char) : List Char := l.dropWhile (· == ' ')

/-- A line without its comment and without the spaces at its two ends (R65; log 10). -/
def stripLine (line : List Char) : List Char :=
  (dropSpaces (dropSpaces (line.takeWhile (· != ';'))).reverse).reverse

/-- The command of an assembler line, if the line is in the syntax of R65. -/
def parseLine (line : List Char) : Option Instr :=
  let l := stripLine line
  let name := l.takeWhile (· != ' ')
  match l.dropWhile (· != ' ') with
  | [] => plainByName name
  | _ :: rest =>
    match parseOperand rest with
    | some b => operandByName name b
    | none => none

/-- The word of an assembler line: `{op, imm8}` (R65). -/
def assembleLine (line : String) : Option CmdWord := (parseLine line.toList).map encode

/-- The pseudo-commands of R66. -/
inductive Pseudo where
  | count (text : List Byte)
  | table (text : List Byte)
  | encode (text : List Byte)
  | decode (bytes : List Byte)
  deriving DecidableEq, Repr

/-- The commands a pseudo-command stands for (R66). -/
def Pseudo.expand : Pseudo → List Instr
  | .count text => text.map .sym
  | .table text => text.map .sym ++ [.build, .gen]
  | .encode text => .encbeg :: text.map .enc ++ [.encend]
  | .decode bytes => .decbeg :: bytes.map .decb ++ [.decend]

end Sys2Proof.Machine
end

