-- ==== Sys2Proof/Machine/Flags.lean ====
section
/-!
DEFINITION. The five status flags (R35), the encodings of PHASE (R31) and ECODE (R181), the STATUS and ERR words (R37),
and the two one-bit outputs (R40, R195). The core has no arithmetic condition codes.
-/

namespace Sys2Proof.Machine

/-- The 3-bit value of PHASE (R31). -/
def Phase.bits : Phase → BitVec 3
  | .count => 0
  | .tree => 1
  | .ready => 2
  | .enc => 3
  | .dec => 4
  | .halt => 7

/-- The 3-bit value of ECODE (R181). -/
def ECode.bits : ECode → BitVec 3
  | .noFault => 0
  | .emptyInput => 1
  | .unknownSymbol => 2
  | .corruptStream => 3
  | .capacity => 4
  | .sequence => 5
  | .illegalCmd => 6

/-- STATUS, CSR 0x00: PHASE, the five flags, NBITS, PAD and DPAD (R37). -/
def State.status (s : State) : BitVec 17 :=
  BitVec.ofNat 3 s.de.dpad ++ BitVec.ofNat 3 s.en.pad ++ BitVec.ofNat 3 s.en.nbits ++ BitVec.ofBool s.de.dead ++
    BitVec.ofBool s.de.holdv ++ BitVec.ofBool s.de.hdrv ++ BitVec.ofBool s.de.dovalid ++ BitVec.ofBool s.en.pkvalid ++
    s.phase.bits

/-- ERR, CSR 0x01: ECODE, EPHASE, two zero bits, ESYM (R37). -/
def State.err (s : State) : BitVec 16 :=
  s.fr.esym ++ (0 : BitVec 2) ++ s.fr.ephase.bits ++ s.fr.ecode.bits

/-- `fault_o`: 1 exactly when ECODE is not 0 (R195). -/
def State.faultOut (s : State) : Bool := s.fr.ecode != .noFault

/-- `cmd_ready` between commands: 1 whenever the core is idle, also when halted (R41). -/
def State.cmdReady (_ : State) : Bool := true

end Sys2Proof.Machine
end

