-- ==== Sys2Proof/Machine/ReadPort.lean ====
section
/-!
DEFINITION. The read port: the seven address spaces (R43), their entry layouts (R37, R45), and reads outside them (R46,
R53). Reads happen between commands, where `cmd_ready` = 1 (R42, R217).
-/

namespace Sys2Proof.Machine

/-- A register of w bits, zero-extended (R37, R42). -/
def regField (w v : Nat) : Nat := v % 2 ^ w

/-- Space 0, CSR: the registers by number; numbers above 0x0E are reserved and read 0 (R37). -/
def State.readCsr (s : State) (n : Nat) : Nat :=
  match n with
  | 0x00 => s.status.toNat
  | 0x01 => s.err.toNat
  | 0x02 => regField s.params.lenW s.fr.eoff
  | 0x03 => regField 9 s.st.nsym
  | 0x04 => regField s.params.lenW s.st.total
  | 0x05 => regField 9 s.tb.nnode
  | 0x06 => regField 9 s.tb.root
  | 0x07 => regField 8 s.cg.maxlen
  | 0x08 => regField (ceilLog2 (s.params.pkDepth + 1)) s.en.pklen
  | 0x09 => regField (ceilLog2 (s.params.doDepth + 1)) s.de.dolen
  | 0x0A => regField s.params.lenW s.en.enccnt
  | 0x0B => regField s.params.lenW s.de.dbytes
  | 0x0C => s.en.acc.toNat
  | 0x0D => s.de.hold.toNat
  | 0x0E => regField 9 s.de.dcur
  | _ => 0

/-- The layout of a NODE entry: LEAF, WEIGHT, SYM, LEFT, RIGHT, most significant first (R45). -/
def Node.pack (lenW : Nat) (n : Node) : BitVec (1 + lenW + 8 + 9 + 9) :=
  BitVec.ofBool n.leaf ++ BitVec.ofNat lenW n.weight ++ n.sym ++ BitVec.ofNat 9 n.left ++ BitVec.ofNat 9 n.right

/-- The layout of a CODE entry: CVALID, CLEN, CBITS, most significant first (R45). -/
def State.codeEntry (s : State) (y : Byte) : BitVec (1 + 8 + 255) :=
  BitVec.ofBool (s.cvalidAt y) ++ BitVec.ofNat 8 (s.clenAt y) ++ s.cbitsAt y

/-- The number of entries of a space (R43). -/
def State.entries (s : State) (space : BitVec 3) : Nat :=
  match space.toNat with
  | 0 => 15
  | 1 => alpha
  | 2 => alpha
  | 3 => nodeMax
  | 4 => alpha
  | 5 => s.params.pkDepth
  | 6 => s.params.doDepth
  | _ => 0

/-- The entry at an index inside a space, in the layout of R45. -/
def State.entry (s : State) (space : BitVec 3) (addr : Nat) : Nat :=
  match space.toNat with
  | 0 => s.readCsr addr
  | 1 => regField s.params.lenW (s.countAt (BitVec.ofNat 8 addr))
  | 2 => (s.orderAt addr).toNat
  | 3 => ((s.nodeAt addr).pack s.params.lenW).toNat
  | 4 => (s.codeEntry (BitVec.ofNat 8 addr)).toNat
  | 5 => (s.pkmemAt addr).toNat
  | 6 => (s.domemAt addr).toNat
  | _ => 0

/-- What the read port answers for a space and an index: the entry, or 0 at or beyond the number of entries of the space
(R46, R53). -/
def State.readEntry (s : State) (space : BitVec 3) (addr : Nat) : Nat :=
  if addr < s.entries space then s.entry space addr else 0

/-- `rd_data`: the entry selected by `rd_space` and `rd_addr`, zero-extended to RD_W bits (R42). -/
def State.rdData (s : State) : BitVec s.params.rdW :=
  BitVec.ofNat s.params.rdW (s.readEntry s.port.rdSpace s.port.rdAddr)

end Sys2Proof.Machine
end

