-- ==== Sys2Proof/Safety.lean ====
section
/-!
DEFINITION. What a good state is, in the terms the claims use: the invariants that the spec gives for each unit, a path
in the tree, and a sequence of commands run one after another.
-/

namespace Sys2Proof.Machine

/-- The phase of the work in progress: PHASE, or, when the core is halted, the phase in which the fault was raised, whose
work the halted state still shows (R191). -/
def State.workPhase (s : State) : Phase := if s.phase = .halt then s.fr.ephase else s.phase

/-- The distinct symbols counted so far, in first-insertion order: ORDER[0..NSYM-1] (R12, R13). -/
def State.symbols (s : State) : List Byte := s.st.order.map Prod.snd

/-- The sum of COUNT[s] over all s (R14). -/
def State.countSum (s : State) : Nat := ((List.range alpha).map (fun i => s.countAt (BitVec.ofNat 8 i))).sum

/-- The invariant of the fault record (R32): ECODE is not 0 exactly when PHASE = HALT; EPHASE is a phase in which a fault
can be raised; without a fault all four registers are 0. -/
structure FaultRecordOk (s : State) : Prop where
  halted_iff : s.fr.ecode ≠ .noFault ↔ s.phase = .halt
  ephase_running : s.fr.ephase ≠ .halt
  clear_when_running : s.phase ≠ .halt → s.fr = .reset
  eoff_fits : s.fr.eoff ≤ s.params.lenMax

/-- The invariants of the SymbolTable (R13, R14, R91). -/
structure SymbolTableOk (s : State) : Prop where
  count_wf : Mem.wf alpha (some 0) s.st.count = true
  nsym_le : s.st.nsym ≤ alpha
  order_listed : s.st.order.map Prod.fst = List.range s.st.nsym
  order_nodup : s.symbols.Nodup
  counted_iff : ∀ y, 1 ≤ s.countAt y ↔ y ∈ s.symbols
  total_eq : s.st.total = s.countSum
  total_fits : s.st.total ≤ s.params.lenMax

/-- The children of the internal nodes, in order of creation: LEFT and RIGHT of NODE[n], ..., NODE[2n-2] (R106). -/
def State.children (s : State) : List Nat :=
  (List.range' s.st.nsym (s.st.nsym - 1)).flatMap (fun k => [(s.nodeAt k).left, (s.nodeAt k).right])

/-- The tree that BUILD leaves (R15, R101, R106, R108): the leaves in first-insertion order with their counts, the
internal nodes after them with weight = left + right and children of smaller index, every node but the root a child
exactly once, ROOT the last node. -/
structure TreeShape (s : State) : Prop where
  some_symbol : 1 ≤ s.st.nsym
  nnode_eq : s.tb.nnode = 2 * s.st.nsym - 1
  root_eq : s.tb.root = 2 * s.st.nsym - 2
  listed : s.tb.node.map Prod.fst = List.range s.tb.nnode
  leaf_eq : ∀ i, i < s.st.nsym → s.nodeAt i =
    { leaf := true, weight := s.countAt (s.orderAt i), sym := s.orderAt i, left := 0, right := 0 }
  inner : ∀ k, s.st.nsym ≤ k → k < s.tb.nnode →
    (s.nodeAt k).leaf = false ∧ (s.nodeAt k).sym = 0 ∧ (s.nodeAt k).left < k ∧ (s.nodeAt k).right < k ∧
      (s.nodeAt k).weight = (s.nodeAt (s.nodeAt k).left).weight + (s.nodeAt (s.nodeAt k).right).weight
  owned_once : s.children.Perm (List.range s.tb.root)

/-- WORK in strictly ascending order of keys (R102). -/
def State.Sorted (s : State) (w : List Nat) : Prop := w.Pairwise (fun j k => s.keyLt j k = true)

/-- The children of the internal nodes n, ..., m-1 (R106). -/
def State.childrenUpTo (s : State) (n m : Nat) : List Nat :=
  (List.range' n (m - n)).flatMap (fun k => [(s.nodeAt k).left, (s.nodeAt k).right])

/-- Every merge took the two lowest keys, the lower one as the left child (R104): when node k was made, every node that
no earlier merge had taken, other than its two children, had a greater key than both. -/
def State.GreedyMerges (s : State) : Prop :=
  ∀ k, s.st.nsym ≤ k → k < s.tb.nnode → s.keyLt (s.nodeAt k).left (s.nodeAt k).right = true ∧
    ∀ j, j < k → j ∉ s.childrenUpTo s.st.nsym k → j ≠ (s.nodeAt k).left → j ≠ (s.nodeAt k).right →
      s.keyLt (s.nodeAt k).right j = true

/-- The tree builder between commands: WORK empty (R18); no tree in phase COUNT, the tree of BUILD after it (R84). -/
structure TreeOk (s : State) : Prop where
  work_empty : s.tb.work = []
  none_before : s.workPhase = .count → s.tb = .reset
  built_after : s.workPhase ≠ .count → TreeShape s

/-- The node reached from k by a bit-string, 0 to LEFT and 1 to RIGHT, passing no leaf on the way (R124, R160). -/
def State.follow (s : State) : Nat → BitString → Option Nat
  | k, [] => some k
  | k, b :: bs => if (s.nodeAt k).leaf then none else s.follow ((s.nodeAt k).child b) bs

/-- The loop of Traverse with the explicit stack of R121: entries (node index, length so far, val of the path so far), m
the greatest length so far. It gives the state and the greatest length at the end; the first argument is how many more
times the loop may run, and `none` is a loop that has not ended by then. -/
def State.traverse : Nat → State → List (Nat × Nat × Nat) → Nat → Option (State × Nat)
  | _, s, [], m => some (s, m)
  | 0, _, _ :: _, _ => none
  | fuel + 1, s, (k, length, v) :: stack, m =>
    if (s.nodeAt k).leaf then
      State.traverse fuel (s.writeCode (s.nodeAt k).sym length (BitVec.ofNat 255 v)) stack (max m length)
    else
      State.traverse fuel s (((s.nodeAt k).left, length + 1, 2 * v) :: ((s.nodeAt k).right, length + 1, 2 * v + 1) :: stack) m

/-- The CodeBook that GEN leaves (R122 to R124, R126): an entry exactly for each counted symbol; each code the path from
ROOT to the symbol's leaf, or "0" when there is one symbol; the stored form of R71; MAXLEN the greatest length. -/
structure CodeBookShape (s : State) : Prop where
  clen_listed : s.cg.clen.map Prod.fst = s.cg.cvalid.map Prod.fst
  cbits_listed : s.cg.cbits.map Prod.fst = s.cg.cvalid.map Prod.fst
  covered_iff : ∀ y, s.cvalidAt y = true ↔ 1 ≤ s.countAt y
  one_symbol : s.st.nsym = 1 → ∀ y, s.cvalidAt y = true → s.code y = [false]
  leaf_path : 2 ≤ s.st.nsym → ∀ y, s.cvalidAt y = true →
    ∃ k, s.follow s.tb.root (s.code y) = some k ∧ (s.nodeAt k).leaf = true ∧ (s.nodeAt k).sym = y
  clen_range : ∀ y, s.cvalidAt y = true → 1 ≤ s.clenAt y ∧ s.clenAt y ≤ max 1 (s.st.nsym - 1)
  cbits_fits : ∀ y, s.cvalidAt y = true → (s.cbitsAt y).toNat < 2 ^ s.clenAt y
  maxlen_bounds : ∀ y, s.cvalidAt y = true → s.clenAt y ≤ s.cg.maxlen
  maxlen_reached : ∃ y, s.cvalidAt y = true ∧ s.clenAt y = s.cg.maxlen

/-- The code-table generator between commands: no CodeBook before GEN, the CodeBook of GEN after it (R84). -/
structure CodeBookOk (s : State) : Prop where
  cvalid_wf : Mem.wf alpha (some false) s.cg.cvalid = true
  none_before : s.workPhase = .count ∨ s.workPhase = .tree → s.cg = .reset
  derived_after : s.workPhase ≠ .count → s.workPhase ≠ .tree → CodeBookShape s

/-- The encoder between commands (R22 to R25, R143): the pending bits fill fewer than 8 bits of ACC, PKMEM holds PKLEN
entries and no more than PK_DEPTH; in phase ENC entry 0 is the place of the padding byte; PKVALID says that entry 0
holds the padding of a complete stream. -/
structure EncoderOk (s : State) : Prop where
  nbits_le : s.en.nbits ≤ 7
  acc_lt : s.en.acc.toNat < 2 ^ s.en.nbits
  pkmem_wf : Mem.wf s.params.pkDepth none s.en.pkmem = true
  pklen_le : s.en.pklen ≤ s.params.pkDepth
  written : ∀ i, i < s.en.pklen → (Mem.find s.en.pkmem i).isSome
  pad_le : s.en.pad ≤ 7
  enccnt_fits : s.en.enccnt ≤ s.params.lenMax
  idle_empty : s.workPhase ≠ .enc → s.en.nbits = 0
  encoding : s.workPhase = .enc → 1 ≤ s.en.pklen ∧ s.en.pkvalid = false ∧ s.en.pad = 0 ∧ s.pkmemAt 0 = 0
  complete : s.en.pkvalid = true → 1 ≤ s.en.pklen ∧ s.pkmemAt 0 = BitVec.ofNat 8 s.en.pad

/-- The decoder between commands (R26 to R30, R157, R166): HDRV and HOLDV say how many bytes have come; DOMEM holds DOLEN
entries and no more than DO_DEPTH; in phase DEC the candidate is a path to an internal node, or, with one distinct
symbol, DCUR stays at ROOT and DEAD alone may be set. -/
structure DecoderOk (s : State) : Prop where
  dpad_le : s.de.dpad ≤ 7
  domem_wf : Mem.wf s.params.doDepth none s.de.domem = true
  dolen_le : s.de.dolen ≤ s.params.doDepth
  written : ∀ i, i < s.de.dolen → (Mem.find s.de.domem i).isSome
  dbytes_fits : s.de.dbytes ≤ s.params.lenMax
  hdrv_iff : s.de.hdrv = true ↔ 1 ≤ s.de.dbytes
  idle : s.workPhase ≠ .dec → s.de.holdv = false ∧ s.de.dead = false
  holdv_iff : s.workPhase = .dec → (s.de.holdv = true ↔ 2 ≤ s.de.dbytes)
  running : s.workPhase = .dec → s.de.dovalid = false
  candidate : s.workPhase = .dec → s.de.dcur < s.tb.nnode ∧
    (s.st.nsym = 1 → s.de.dcur = s.tb.root) ∧
    (2 ≤ s.st.nsym → (s.nodeAt s.de.dcur).leaf = false ∧ s.de.dead = false)
  dcur_node : s.de.dcur < nodeMax

/-- A state of HUFFCORE between commands: what every rule of 10_state.md says of it together. -/
structure State.Inv (s : State) : Prop where
  params_ok : s.params.wf = true
  fault_ok : FaultRecordOk s
  symbols_ok : SymbolTableOk s
  tree_ok : TreeOk s
  code_ok : CodeBookOk s
  encoder_ok : EncoderOk s
  decoder_ok : DecoderOk s
  /-- `rd_addr` holds RA_W bits (R7, R41). -/
  rdAddr_fits : s.port.rdAddr < 2 ^ s.params.raW

/-- Every value fits the width that 10_state.md gives its register or memory field, and R41 its pin (R7, R11 to R32, R86). -/
structure State.Fits (s : State) : Prop where
  counts : ∀ y, s.countAt y < 2 ^ s.params.lenW
  nsym : s.st.nsym ≤ 256
  total : s.st.total < 2 ^ s.params.lenW
  nodes : ∀ k, k < s.tb.nnode →
    (s.nodeAt k).weight < 2 ^ s.params.lenW ∧ (s.nodeAt k).left < nodeMax ∧ (s.nodeAt k).right < nodeMax
  nnode : s.tb.nnode ≤ nodeMax
  root : s.tb.root < nodeMax
  clens : ∀ y, s.cvalidAt y = true → s.clenAt y < 256
  maxlen : s.cg.maxlen < 256
  encoder : s.en.nbits < 8 ∧ s.en.pad < 8 ∧ s.en.pklen ≤ s.params.pkDepth ∧ s.en.enccnt < 2 ^ s.params.lenW
  decoder : s.de.dpad < 8 ∧ s.de.dcur < nodeMax ∧ s.de.dolen ≤ s.params.doDepth ∧ s.de.dbytes < 2 ^ s.params.lenW
  eoff : s.fr.eoff < 2 ^ s.params.lenW
  rdAddr : s.port.rdAddr < 2 ^ s.params.raW

/-- PHASE after a command that completes: the column "After" of R83. -/
def Instr.phaseAfter : Instr → Phase → Phase
  | .nop, p => p
  | .clr, _ => .count
  | .sym _, _ => .count
  | .build, _ => .tree
  | .gen, _ => .ready
  | .encbeg, _ => .enc
  | .enc _, _ => .enc
  | .encend, _ => .ready
  | .decbeg, _ => .dec
  | .decb _, _ => .dec
  | .decend, _ => .ready

/-- Execute a list of commands in order, from a state; what stops a command stops the list (R40, R224). -/
def execAll : List Instr → State → Host.Outcome State Fault Refusal
  | [], s => .next s
  | i :: is, s =>
    match exec i s with
    | .next t => execAll is t
    | .fault r => .fault r
    | .refused r => .refused r

/-- The bits of B that have not yet filled a byte: the NBITS low bits of ACC, earliest bit most significant (R22). -/
def State.pendingBits (s : State) : BitString :=
  (List.range s.en.nbits).map (fun j => s.en.acc.getLsbD (s.en.nbits - 1 - j))

/-- The concatenation of the codes of a list of symbols, in order (R140). -/
def State.codes (s : State) (l : List Byte) : BitString := l.flatMap s.code

/-- The padding of a bit-string of length L: `(8 - (L mod 8)) mod 8` (R139). -/
def padding (length : Nat) : Nat := (8 - length % 8) % 8

/-- The PackedStream in PKMEM: PKMEM[0..PKLEN-1] (R69). -/
def State.packedStream (s : State) : List Byte := (List.range s.en.pklen).map s.pkmemAt

/-- The decoder's output: DOMEM[0..DOLEN-1] (R29). -/
def State.decoded (s : State) : List Byte := (List.range s.de.dolen).map s.domemAt

/-- The code bits of a PackedStream with padding p and code bytes cs: the bits of the bytes, most significant first, less
the last p (R67, R68). -/
def streamBits (p : Nat) (cs : List Byte) : BitString :=
  (cs.flatMap (fun c => byteBits c 0)).take (8 * cs.length - p)

/-- The walk of a whole bit-string from the empty candidate and an empty output, the function R166 speaks of. -/
def State.decodeBits (s : State) (b : BitString) : Option Walk :=
  State.walkBits { s with de := { s.de with dolen := 0 } } b { cur := s.tb.root, dead := false, out := [] }

end Sys2Proof.Machine
end

