-- ==== Sys2Proof/Certificates/Slice0/Obligations.lean ====
section
/-!
DEFINITION. The statements about HUFFCORE for the provers. Each docstring names the rules of spec/ it formalises; a
statement whose basis is derived says what it rests on.
-/

open Sys2Proof Sys2Proof.Machine

/-! ## The command word -/

/-- Words written out from R60 and R62 decode to the commands they stand for (30_encoding.md). -/
def Obligations.SampleWordsDecode : Prop :=
  decode 0x0000 = .ok .nop ∧ decode 0x0100 = .ok .clr ∧ decode 0x1061 = .ok (.sym 0x61) ∧
  decode 0x1100 = .ok .build ∧ decode 0x1200 = .ok .gen ∧ decode 0x2000 = .ok .encbeg ∧
  decode 0x2162 = .ok (.enc 0x62) ∧ decode 0x2200 = .ok .encend ∧ decode 0x3000 = .ok .decbeg ∧
  decode 0x316E = .ok (.decb 0x6E) ∧ decode 0x3200 = .ok .decend ∧
  decode 0x1101 = .error .nonzeroOperand ∧ decode 0x0200 = .error .unassignedOpcode

/-- Decoding and encoding are inverse to each other: every command is read back from its word with its operand, and every
word that is a command is the word of that command (R60 to R63). -/
def Obligations.DecodeAndEncodeAgree : Prop :=
  (∀ i : Instr, i.wf = true → decode (encode i) = .ok i) ∧
  (∀ (w : CmdWord) (i : Instr), decode w = .ok i → i.wf = true ∧ encode i = w)

/-- A word decodes to a command exactly when it selects that command's row of the opcode map by mask and match, and then
it selects no other row (R62). -/
def Obligations.DecodeFollowsOpcodeMap : Prop :=
  ∀ w : CmdWord,
    (∀ i, decode w = .ok i → ∃ r ∈ opcodeMap, r.selectedBy w = true ∧ r.mnemonic = i.mnemonic ∧
      ∀ q ∈ opcodeMap, q.selectedBy w = true → q = r) ∧
    (∀ r ∈ opcodeMap, r.selectedBy w = true → ∃ i, decode w = .ok i ∧ i.mnemonic = r.mnemonic)

/-- "Exactly 3*256 + 8 = 776 words decode to a command; the other 64760 decode to ILLEGAL" (R63). -/
def Obligations.CommandWordsAreCounted : Prop :=
  ∃ legal illegal : List CmdWord, legal.Nodup ∧ illegal.Nodup ∧ legal.length = 776 ∧ illegal.length = 64760 ∧
    (∀ w, w ∈ legal ↔ ∃ i, decode w = .ok i) ∧ (∀ w, w ∈ illegal ↔ ∃ e, decode w = .error e)

/-- The words of (a) and (b) of R64 are exactly the illegal ones; such a word raises ILLEGAL_CMD with its low byte when
the core is not halted (R188), before any check of the phase (R190), and is ignored when the core is halted (R64,
R188). -/
def Obligations.IllegalWordsFault : Prop :=
  ∀ (w : CmdWord) (s : State),
    let op := (CmdWord.op w).toNat
    let illegal := (0x02 ≤ op ∧ op ≤ 0x0F) ∨ (0x13 ≤ op ∧ op ≤ 0x1F) ∨ (0x23 ≤ op ∧ op ≤ 0x2F) ∨ 0x33 ≤ op ∨
      ((op = 0x00 ∨ op = 0x01 ∨ op = 0x11 ∨ op = 0x12 ∨ op = 0x20 ∨ op = 0x22 ∨ op = 0x30 ∨ op = 0x32) ∧
        CmdWord.imm8 w ≠ 0x00)
    (illegal ↔ ∃ e, decode w = .error e) ∧
    (illegal → s.phase ≠ .halt → executeWord w s = .next { s with
      fr := { ecode := .illegalCmd, ephase := s.phase, esym := CmdWord.imm8 w, eoff := s.offset }, phase := .halt }) ∧
    (illegal → s.phase = .halt → executeWord w s = .next s)

/-! ## A step, the host's side, reset -/

/-- A step whose oldest host action presents the word of a command runs that command, on the state from which only that
action has been taken (R40; the list of host actions is the model's, log 1). -/
def Obligations.StepRunsDecodedCommand : Prop :=
  ∀ (s : State) (w : CmdWord) (rest : List HostInput) (i : Instr),
    s.port.inputs = .command w :: rest → decode w = .ok i →
    step s = exec i { s with port := { s.port with inputs := rest } }

/-- A step takes the host's actions in order, one at a time, and never changes the open parameters (R40: the core never
drops, reorders or merges commands; logs 1 and 2). -/
def Obligations.StepTakesOneHostAction : Prop :=
  ∀ s t : State, step s = .next t → t.port.inputs = s.port.inputs.tail ∧ t.params = s.params

/-- A host read drives the read-port pins and changes nothing else, whatever the phase; the port then shows the selected
entry, every entry of every space can be selected, and repeating the read changes nothing (20_memory.md, the read
port). That a read is an action taken in order from a list is the model's choice (log 1), and so is that the pins keep
what the host drove last, the low RA_W bits of the index (log 6). -/
def Obligations.ReadHasNoSideEffect : Prop :=
  ∀ (s : State) (space : BitVec 3) (addr : Nat) (rest : List HostInput),
    s.port.inputs = .read space addr :: rest →
    ∃ t, step s = .next t ∧ t = { s with port := { inputs := rest, rdSpace := space, rdAddr := addr % 2 ^ s.params.raW } } ∧
      t.rdData.toNat = s.readEntry space (addr % 2 ^ s.params.raW) % 2 ^ s.params.rdW ∧
      (addr < s.entries space → t.rdData.toNat = s.readEntry space addr % 2 ^ s.params.rdW) ∧
      (∀ more, rest = .read space addr :: more →
        step t = .next { t with port := { t.port with inputs := more } })

/-- The registers and memories after reset (R38, R210). -/
def Obligations.ResetStateIsTheSpecs : Prop :=
  let s := State.reset
  (∀ y, s.countAt y = 0) ∧ (∀ y, s.cvalidAt y = false) ∧
  s.st.nsym = 0 ∧ s.st.total = 0 ∧ s.tb.nnode = 0 ∧ s.tb.root = 0 ∧ s.cg.maxlen = 0 ∧
  s.en.acc = 0 ∧ s.en.nbits = 0 ∧ s.en.pklen = 0 ∧ s.en.pad = 0 ∧ s.en.pkvalid = false ∧ s.en.enccnt = 0 ∧
  s.de.hdrv = false ∧ s.de.dpad = 0 ∧ s.de.hold = 0 ∧ s.de.holdv = false ∧ s.de.dcur = 0 ∧ s.de.dead = false ∧
  s.de.dolen = 0 ∧ s.de.dovalid = false ∧ s.de.dbytes = 0 ∧
  s.phase = .count ∧ s.fr = { ecode := .noFault, ephase := .count, esym := 0, eoff := 0 } ∧ s.tb.work = []

/-- CLR, the word 0x0100, completes in every phase, HALT included, and leaves every register at its reset value, COUNT and
CVALID all 0 (R82). -/
def Obligations.ClrReturnsToStart : Prop :=
  ∀ s : State, ∃ t, executeWord 0x0100 s = .next t ∧ exec .clr s = .next t ∧
    (∀ y, t.countAt y = 0 ∧ t.cvalidAt y = false) ∧
    t.st.nsym = 0 ∧ t.st.total = 0 ∧ t.tb.nnode = 0 ∧ t.tb.root = 0 ∧ t.cg.maxlen = 0 ∧
    t.en.acc = 0 ∧ t.en.nbits = 0 ∧ t.en.pklen = 0 ∧ t.en.pad = 0 ∧ t.en.pkvalid = false ∧ t.en.enccnt = 0 ∧
    t.de.hdrv = false ∧ t.de.dpad = 0 ∧ t.de.hold = 0 ∧ t.de.holdv = false ∧ t.de.dcur = 0 ∧ t.de.dead = false ∧
    t.de.dolen = 0 ∧ t.de.dovalid = false ∧ t.de.dbytes = 0 ∧
    t.fr = { ecode := .noFault, ephase := .count, esym := 0, eoff := 0 } ∧ t.phase = .count ∧
    t.tb.work = []

/-- The reset pin, taken between commands, and CLR leave the same state (R214), whatever the state; it is a reset state
(R210). The model's choices here: reset is an action taken from a list (log 1) and falls between commands (log 7), and
neither it nor CLR changes the parameters (log 2) or the host's side of the ports (logs 1 and 6). -/
def Obligations.ResetPinAgreesWithClr : Prop :=
  ∀ (s : State) (rest : List HostInput), s.port.inputs = .reset :: rest →
    ∃ t, step s = .next t ∧ exec .clr { s with port := { s.port with inputs := rest } } = .next t ∧
      t.phase = .count ∧ t.st = .reset ∧ t.tb = .reset ∧ t.cg = .reset ∧ t.en = .reset ∧ t.de = .reset ∧
      t.fr = .reset ∧ t.faultOut = false ∧ t.params = s.params ∧ t.port = { s.port with inputs := rest }

/-! ## The execution frame and faults -/

/-- NOP completes and changes nothing, in every phase, and so does an all-zero command word (R81). -/
def Obligations.NopChangesNothing : Prop :=
  ∀ s : State, exec .nop s = .next s ∧ executeWord 0x0000 s = .next s

/-- "While PHASE = HALT the core accepts every word presented and ignores it": no state changes; the exact word 0x0100 is
performed; the read port works as usual (R192). -/
def Obligations.HaltedCoreIgnoresWords : Prop :=
  ∀ s : State, s.phase = .halt →
    s.cmdReady = true ∧
    (∀ w : CmdWord, w ≠ 0x0100 → executeWord w s = .next s) ∧
    executeWord 0x0100 s = exec .clr s ∧
    (∀ (space : BitVec 3) (addr : Nat), addr < 2 ^ s.params.raW →
      (s.selectRead space addr).rdData.toNat = s.readEntry space addr % 2 ^ s.params.rdW ∧
      (s.selectRead space addr).fr = s.fr ∧ (s.selectRead space addr).phase = .halt)

/-- What fault entry records and changes, written out: the code, the phase, the low byte of the word, the offset of the
phase, PHASE = HALT, and nothing else; `fault_o` becomes 1 (R186, R199). -/
def Obligations.FaultEntryRecordsCause : Prop :=
  ∀ (s : State) (code : ECode) (low : Byte),
    s.raiseFault code low = { s with
      fr := { ecode := code, ephase := s.phase, esym := low, eoff := (s.raiseFault code low).fr.eoff }
      phase := .halt } ∧
    (s.phase = .count → (s.raiseFault code low).fr.eoff = s.st.total) ∧
    (s.phase = .tree → (s.raiseFault code low).fr.eoff = 0) ∧
    (s.phase = .ready → (s.raiseFault code low).fr.eoff = 0) ∧
    (s.phase = .enc → (s.raiseFault code low).fr.eoff = s.en.enccnt) ∧
    (s.phase = .dec → (s.raiseFault code low).fr.eoff = s.de.dbytes) ∧
    (code ≠ .noFault → (s.raiseFault code low).faultOut = true)

/-- "after a fault the state is exactly the state before the faulting command, with only ECODE, EPHASE, ESYM, EOFF and
PHASE changed" (R191): a word that halts a running core has changed the state by fault entry (R186) and by nothing
else. -/
def Obligations.FaultsArePrecise : Prop :=
  ∀ (w : CmdWord) (s t : State), s.phase ≠ .halt → executeWord w s = .next t → t.phase = .halt →
    ∃ code, code ≠ ECode.noFault ∧ t = s.raiseFault code (CmdWord.imm8 w)

/-- A command in a phase that R83's table does not allow raises SEQUENCE with its low byte; CLR and NOP never do (R187,
R83). -/
def Obligations.OutOfPhaseIsSequence : Prop :=
  ∀ s : State, s.phase ≠ .halt →
    (s.phase ≠ .count → (∀ y, exec (.sym y) s = .next (s.raiseFault .sequence y)) ∧
      exec .build s = .next (s.raiseFault .sequence 0)) ∧
    (s.phase ≠ .tree → exec .gen s = .next (s.raiseFault .sequence 0)) ∧
    (s.phase ≠ .ready → exec .encbeg s = .next (s.raiseFault .sequence 0) ∧
      exec .decbeg s = .next (s.raiseFault .sequence 0)) ∧
    (s.phase ≠ .enc → (∀ y, exec (.enc y) s = .next (s.raiseFault .sequence y)) ∧
      exec .encend s = .next (s.raiseFault .sequence 0)) ∧
    (s.phase ≠ .dec → (∀ b, exec (.decb b) s = .next (s.raiseFault .sequence b)) ∧
      exec .decend s = .next (s.raiseFault .sequence 0)) ∧
    exec .nop s = .next s ∧ exec .clr s = .next s.clear

/-- A command that completes was legal in the phase it found, by R83's table, and leaves PHASE as the table says; every
fault of a running core gives HALT (R83). -/
def Obligations.PhaseFollowsTable : Prop :=
  ∀ (i : Instr) (s t : State), exec i s = .next t → s.phase ≠ .halt →
    (t.phase = .halt ∧ t.fr.ecode ≠ .noFault) ∨
    (t.phase = Instr.phaseAfter i s.phase ∧
      match i with
      | .nop | .clr => True
      | .sym _ | .build => s.phase = .count
      | .gen => s.phase = .tree
      | .encbeg | .decbeg => s.phase = .ready
      | .enc _ | .encend => s.phase = .enc
      | .decb _ | .decend => s.phase = .dec)

/-- A command that finds a running core raises SEQUENCE exactly when it is out of its phase, EMPTY_INPUT exactly when it
is BUILD with nothing counted, UNKNOWN_SYMBOL exactly when it is ENC of a symbol without a code, and never ILLEGAL_CMD
(R181 to R183, R187, R188, in the order of R190). -/
def Obligations.FaultCodesHaveTheirCauses : Prop :=
  ∀ (i : Instr) (s t : State), exec i s = .next t → s.phase ≠ .halt →
    ((t.phase = .halt ∧ t.fr.ecode = .sequence) ↔ Instr.legalIn i s.phase = false) ∧
    ((t.phase = .halt ∧ t.fr.ecode = .emptyInput) ↔ i = .build ∧ s.phase = .count ∧ s.st.nsym = 0) ∧
    ((t.phase = .halt ∧ t.fr.ecode = .unknownSymbol) ↔ ∃ y, i = .enc y ∧ s.phase = .enc ∧ s.cvalidAt y = false) ∧
    ¬ (t.phase = .halt ∧ t.fr.ecode = .illegalCmd)

/-- The complete list of CAPACITY (R184): a command that finds a running core raises it exactly under these conditions,
and then does nothing else: the record holds the low byte of the command and the offset of the phase. -/
def Obligations.CapacityListIsComplete : Prop :=
  ∀ (i : Instr) (s t : State), exec i s = .next t → s.phase ≠ .halt →
    ((t.phase = .halt ∧ t.fr.ecode = .capacity) ↔
      (∃ y, i = .sym y ∧ s.phase = .count ∧ s.st.total = 2 ^ s.params.lenW - 1) ∨
      (∃ y, i = .enc y ∧ s.phase = .enc ∧ s.cvalidAt y = true ∧ (s.en.enccnt = 2 ^ s.params.lenW - 1 ∨
        s.en.pklen + (s.en.nbits + s.clenAt y) / 8 > s.params.pkDepth)) ∨
      (i = .encend ∧ s.phase = .enc ∧ s.en.nbits > 0 ∧ s.en.pklen + 1 > s.params.pkDepth) ∨
      (∃ b, i = .decb b ∧ s.phase = .dec ∧ (s.de.dbytes = 2 ^ s.params.lenW - 1 ∨
        (s.de.hdrv = true ∧ s.de.holdv = true ∧ s.walk s.de.hold 0 = none))) ∨
      (i = .decend ∧ s.phase = .dec ∧ s.de.hdrv = true ∧ s.de.holdv = true ∧ s.walk s.de.hold s.de.dpad = none)) ∧
    (t.phase = .halt → t.fr.ecode = .capacity → t = s.raiseFault .capacity i.imm8)

/-- The four situations, and no others, in which CORRUPT_STREAM is raised (R161, R185): a first byte above 7; DECEND with
no byte; DECEND after the first byte alone when it is not 0; DECEND with a non-empty candidate. -/
def Obligations.CorruptStreamListIsComplete : Prop :=
  ∀ (i : Instr) (s t : State), exec i s = .next t → s.phase ≠ .halt →
    ((t.phase = .halt ∧ t.fr.ecode = .corruptStream) ↔
      s.phase = .dec ∧
      ((∃ b, i = .decb b ∧ s.de.dbytes ≠ 2 ^ s.params.lenW - 1 ∧ s.de.hdrv = false ∧ b.toNat > 7) ∨
       (i = .decend ∧ s.de.hdrv = false) ∨
       (i = .decend ∧ s.de.hdrv = true ∧ s.de.holdv = false ∧ s.de.dpad ≠ 0) ∨
       (i = .decend ∧ s.de.hdrv = true ∧ s.de.holdv = false ∧ s.de.dpad = 0 ∧
         (s.de.dead = true ∨ s.de.dcur ≠ s.tb.root)) ∨
       (i = .decend ∧ s.de.hdrv = true ∧ s.de.holdv = true ∧
         ∃ r, s.walk s.de.hold s.de.dpad = some r ∧ (r.dead = true ∨ r.cur ≠ s.tb.root)))) ∧
    (t.phase = .halt → t.fr.ecode = .corruptStream → t = s.raiseFault .corruptStream i.imm8)

/-- A step that lowers `fault_o` is CLR or reset (R195, R193), and in every good state `fault_o` is 1 exactly while the
core is halted. -/
def Obligations.FaultOutputFallsOnlyByClear : Prop :=
  ∀ s : State, s.Inv →
    (s.faultOut = true ↔ s.phase = .halt) ∧
    ∀ t, step s = .next t → s.faultOut = true → t.faultOut = false →
      ∃ rest, s.port.inputs = .command 0x0100 :: rest ∨ s.port.inputs = .reset :: rest

/-- Each unit is written only by its own commands, CLR apart (R54, R218), whatever the state, and whether the command
completes or faults; and, until CLR, the SymbolTable and the tree change in phase COUNT only, the CodeBook in phase TREE
only (R84). That no command but CLR changes the parameters, the epoch or the host's side of the ports is about fields
of the model's own (logs 1, 2, 3 and 6). CLR is left to ClrReturnsToStart and ResetPinAgreesWithClr. -/
def Obligations.CommandsWriteTheirOwnUnit : Prop :=
  ∀ (i : Instr) (s t : State), exec i s = .next t → i ≠ .clr →
    t.params = s.params ∧ t.epoch = s.epoch ∧ t.port = s.port ∧
    ((∀ y, i ≠ .sym y) → t.st = s.st) ∧
    (i ≠ .build → t.tb = s.tb) ∧
    (i ≠ .gen → t.cg = s.cg) ∧
    (i ≠ .encbeg → (∀ y, i ≠ .enc y) → i ≠ .encend → t.en = s.en) ∧
    (i ≠ .decbeg → (∀ b, i ≠ .decb b) → i ≠ .decend → t.de = s.de) ∧
    (s.phase ≠ .count → t.st = s.st ∧ t.tb = s.tb) ∧ (s.phase ≠ .tree → t.cg = s.cg)

/-- The five status flags, each written only by the commands its rule names (R35, R24, R26 to R29). -/
def Obligations.FlagsHaveTheirWriters : Prop :=
  ∀ (i : Instr) (s t : State), exec i s = .next t → i ≠ .clr →
    (t.en.pkvalid ≠ s.en.pkvalid → (i = .encbeg ∧ t.en.pkvalid = false) ∨ (i = .encend ∧ t.en.pkvalid = true)) ∧
    (t.de.dovalid ≠ s.de.dovalid → (i = .decbeg ∧ t.de.dovalid = false) ∨ (i = .decend ∧ t.de.dovalid = true)) ∧
    (t.de.hdrv ≠ s.de.hdrv → (i = .decbeg ∧ t.de.hdrv = false) ∨ ∃ b, i = .decb b ∧ t.de.hdrv = true) ∧
    (t.de.holdv ≠ s.de.holdv →
      ((i = .decbeg ∨ i = .decend) ∧ t.de.holdv = false) ∨ ∃ b, i = .decb b ∧ t.de.holdv = true) ∧
    (t.de.dead ≠ s.de.dead → (i = .decbeg ∨ i = .decend) ∧ t.de.dead = false ∨ ∃ b, i = .decb b ∧ t.de.dead = true)

/-! ## SYM -/

/-- SYM completes in phase COUNT while TOTAL is not full, counts one occurrence, and appends a new symbol to ORDER; every
other entry and every other register keeps its value. A full TOTAL is CAPACITY, another phase SEQUENCE (R90). -/
def Obligations.SymCountsOneSymbol : Prop :=
  ∀ (y : Byte) (s : State), SymbolTableOk s →
    (s.phase = .count → s.st.total ≠ 2 ^ s.params.lenW - 1 →
      ∃ t, exec (.sym y) s = .next t ∧ t = { s with st := t.st } ∧
        t.countAt y = s.countAt y + 1 ∧ (∀ z, z ≠ y → t.countAt z = s.countAt z) ∧
        t.st.total = s.st.total + 1 ∧
        (s.countAt y = 0 → t.st.nsym = s.st.nsym + 1 ∧ t.orderAt s.st.nsym = y ∧
          ∀ i, i ≠ s.st.nsym → t.orderAt i = s.orderAt i) ∧
        (s.countAt y ≠ 0 → t.st.nsym = s.st.nsym ∧ ∀ i, t.orderAt i = s.orderAt i)) ∧
    (s.phase = .count → s.st.total = 2 ^ s.params.lenW - 1 →
      exec (.sym y) s = .next (s.raiseFault .capacity y)) ∧
    (s.phase ≠ .count → s.phase ≠ .halt → exec (.sym y) s = .next (s.raiseFault .sequence y))

/-- Every step keeps the invariants of the SymbolTable: NSYM and ORDER list exactly the counted symbols, each once, and
TOTAL is the sum of the counts and fits LEN_W bits (R13, R14). -/
def Obligations.StepKeepsSymbolTable : Prop :=
  ∀ s t : State, SymbolTableOk s → step s = .next t → SymbolTableOk t

/-- The SymbolTable of a whole input: from an empty table, the SYM commands of an input that TOTAL can count all complete
and leave each symbol's number of occurrences, the symbols in order of first occurrence, and the length of the input
(R91). -/
def Obligations.SymbolTableOfInput : Prop :=
  ∀ (x : List Byte) (s : State), s.phase = .count → s.st = .reset → x.length ≤ 2 ^ s.params.lenW - 1 →
    ∃ t, execAll (x.map .sym) s = .next t ∧ t = { s with st := t.st } ∧
      (∀ y, t.countAt y = x.count y) ∧ t.symbols = x.eraseDups ∧ t.st.nsym = x.eraseDups.length ∧
      t.st.total = x.length

/-! ## BUILD -/

/-- BUILD with no counted symbol raises EMPTY_INPUT, before anything is written, with EPHASE = COUNT, ESYM = 0 and EOFF =
TOTAL = 0 (R182). -/
def Obligations.BuildOfEmptyInputFaults : Prop :=
  ∀ s : State, SymbolTableOk s → s.phase = .count → s.st.nsym = 0 →
    exec .build s = .next { s with
      fr := { ecode := .emptyInput, ephase := .count, esym := 0x00, eoff := 0 }, phase := .halt }

/-- The key orders node indexes by weight, then by index, strictly and totally (R103); Sort gives the list of the leaf
indexes in which the key ascends strictly, and that arrangement is unique (R102). -/
def Obligations.SortIsTheUniqueArrangement : Prop :=
  ∀ s : State,
    (∀ a b, s.keyLt a b = true ↔
      (s.nodeAt a).weight < (s.nodeAt b).weight ∨ ((s.nodeAt a).weight = (s.nodeAt b).weight ∧ a < b)) ∧
    (∀ a, s.keyLt a a = false) ∧ (∀ a b, a ≠ b → s.keyLt a b = true ∨ s.keyLt b a = true) ∧
    (∀ a b c, s.keyLt a b = true → s.keyLt b c = true → s.keyLt a c = true) ∧
    ∀ n : Nat, (s.sortKeys (List.range n)).Perm (List.range n) ∧ s.Sorted (s.sortKeys (List.range n)) ∧
      ∀ w : List Nat, w.Perm (List.range n) → s.Sorted w → w = s.sortKeys (List.range n)

/-- BUILD completes on every non-empty SymbolTable and leaves the tree of R106: leaves in first-insertion order with
their counts, then the internal nodes, NNODE = 2n - 1, ROOT = 2n - 2, children of smaller index, every node but ROOT a
child exactly once; WORK is empty; nothing but the tree and PHASE changes (R100, R101, R105, R106). -/
def Obligations.BuildMakesTheTree : Prop :=
  ∀ s : State, s.Inv → s.phase = .count → 1 ≤ s.st.nsym →
    ∃ t, exec .build s = .next t ∧ t = { s with tb := t.tb, phase := .tree } ∧ t.tb.work = [] ∧
      t.tb.nnode = 2 * s.st.nsym - 1 ∧ t.tb.root = 2 * s.st.nsym - 2 ∧
      (∀ i, i < s.st.nsym → t.nodeAt i =
        { leaf := true, weight := s.countAt (s.orderAt i), sym := s.orderAt i, left := 0, right := 0 }) ∧
      (∀ k, s.st.nsym ≤ k → k < t.tb.nnode →
        (t.nodeAt k).leaf = false ∧ (t.nodeAt k).sym = 0 ∧ (t.nodeAt k).left < k ∧ (t.nodeAt k).right < k) ∧
      t.children.Perm (List.range t.tb.root) ∧
      (∀ k, t.tb.nnode ≤ k → t.nodeAt k = s.nodeAt k)

/-- Every merge of BUILD joins the two nodes of lowest key among those not yet joined, the lowest as the left child
(R104). -/
def Obligations.BuildMergesTheTwoLowest : Prop :=
  ∀ s t : State, s.Inv → s.phase = .count → 1 ≤ s.st.nsym → exec .build s = .next t → t.GreedyMerges

/-- The tree after BUILD: each internal node has two different children, of smaller index, and weighs as much as they do
together; ROOT weighs TOTAL; a leaf weighs its symbol's count; every weight is between 1 and TOTAL; the leaf symbols
are exactly the counted symbols, each once (R108). -/
def Obligations.TreeConservesWeight : Prop :=
  ∀ s : State, s.Inv → s.workPhase ≠ .count →
    (∀ k, k < s.tb.nnode → (s.nodeAt k).leaf = false →
      (s.nodeAt k).left < k ∧ (s.nodeAt k).right < k ∧ (s.nodeAt k).left ≠ (s.nodeAt k).right ∧
      (s.nodeAt k).weight = (s.nodeAt (s.nodeAt k).left).weight + (s.nodeAt (s.nodeAt k).right).weight) ∧
    (s.nodeAt s.tb.root).weight = s.st.total ∧
    (∀ k, k < s.tb.nnode → (s.nodeAt k).leaf = true → (s.nodeAt k).weight = s.countAt (s.nodeAt k).sym) ∧
    (∀ k, k < s.tb.nnode → 1 ≤ (s.nodeAt k).weight ∧ (s.nodeAt k).weight ≤ s.st.total) ∧
    (∀ y, 1 ≤ s.countAt y ↔ ∃ k, k < s.tb.nnode ∧ (s.nodeAt k).leaf = true ∧ (s.nodeAt k).sym = y) ∧
    (∀ j k, j < s.tb.nnode → k < s.tb.nnode → (s.nodeAt j).leaf = true → (s.nodeAt k).leaf = true →
      (s.nodeAt j).sym = (s.nodeAt k).sym → j = k)

/-- Determinism: from two SymbolTables with the same counts and the same order of first insertion, BUILD and then GEN
give byte-identical trees and CodeBooks, whatever else the two states hold (R109, R93). -/
def Obligations.SameTableSameTreeAndCodeBook : Prop :=
  ∀ s u : State, s.Inv → u.Inv → s.phase = .count → u.phase = .count → 1 ≤ s.st.nsym →
    (∀ y, s.countAt y = u.countAt y) → s.st.nsym = u.st.nsym → (∀ i, i < s.st.nsym → s.orderAt i = u.orderAt i) →
    ∃ t v t' v', exec .build s = .next t ∧ exec .build u = .next v ∧ t.tb = v.tb ∧
      exec .gen t = .next t' ∧ exec .gen v = .next v' ∧ t'.cg = v'.cg

/-! ## GEN -/

/-- GEN completes in phase TREE and derives the CodeBook: an entry exactly for each counted symbol, each code non-empty
and, with two or more symbols, the path from ROOT to the symbol's leaf and no leaf earlier; MAXLEN is the greatest
length; nothing but the CodeBook and PHASE changes, and entries of other symbols keep their contents (R120, R121, R123,
R124). -/
def Obligations.GenDerivesTheCodeBook : Prop :=
  ∀ s : State, s.Inv → s.phase = .tree →
    ∃ t, exec .gen s = .next t ∧ t = { s with cg := t.cg, phase := .ready } ∧
      (∀ y, t.cvalidAt y = true ↔ 1 ≤ s.countAt y) ∧
      (∀ y, t.cvalidAt y = true → 1 ≤ t.clenAt y) ∧
      (2 ≤ s.st.nsym → ∀ y, t.cvalidAt y = true →
        ∃ k, s.follow s.tb.root (t.code y) = some k ∧ (s.nodeAt k).leaf = true ∧ (s.nodeAt k).sym = y) ∧
      (∀ y, t.cvalidAt y = true → t.cbitsAt y = BitVec.ofNat 255 (bitVal (t.code y)) ∧
        (t.cbitsAt y).toNat < 2 ^ t.clenAt y) ∧
      (∀ y, t.cvalidAt y = true → t.clenAt y ≤ t.cg.maxlen) ∧
      (∃ y, t.cvalidAt y = true ∧ t.clenAt y = t.cg.maxlen) ∧
      (∀ y, t.cvalidAt y = false → t.clenAt y = s.clenAt y ∧ t.cbitsAt y = s.cbitsAt y)

/-- GEN is the traversal of R121 with its explicit stack: on a tree of two or more leaves the loop, started at ROOT with
an empty path, ends after as many iterations as the tree has nodes, and GEN leaves what the loop leaves, MAXLEN and
PHASE set (R120, R121; that the model recurses is log 8). -/
def Obligations.GenAgreesWithStackTraversal : Prop :=
  ∀ s : State, s.Inv → s.phase = .tree → 2 ≤ s.st.nsym →
    ∃ t m, State.traverse (2 * s.st.nsym - 1) s [(s.tb.root, 0, 0)] 0 = some (t, m) ∧
      exec .gen s = .next { t with cg := { t.cg with maxlen := m }, phase := .ready }

/-- The degenerate case: when the tree is a single leaf GEN assigns the fixed 1-bit code "0": CLEN = 1, CBITS = 0, MAXLEN
= 1, and writes no other entry (R122, R120). -/
def Obligations.SingleLeafGetsCodeZero : Prop :=
  ∀ s : State, s.phase = .tree → (s.nodeAt s.tb.root).leaf = true →
    let y := (s.nodeAt s.tb.root).sym
    ∃ t, exec .gen s = .next t ∧ t = { s with cg := t.cg, phase := .ready } ∧
      t.cvalidAt y = true ∧ t.clenAt y = 1 ∧ t.cbitsAt y = 0 ∧ t.code y = [false] ∧ t.cg.maxlen = 1 ∧
      ∀ z, z ≠ y → t.cvalidAt z = s.cvalidAt z ∧ t.clenAt z = s.clenAt z ∧ t.cbitsAt z = s.cbitsAt z

/-- "Prefix-free: for all pairs of distinct symbols in a CodeBook, neither code is a prefix of the other" (R125). -/
def Obligations.CodeBookIsPrefixFree : Prop :=
  ∀ s : State, s.Inv → s.workPhase ≠ .count → s.workPhase ≠ .tree →
    ∀ y z, s.cvalidAt y = true → s.cvalidAt z = true → y ≠ z → ¬ s.code y <+: s.code z

/-- Code lengths: 1 for one symbol; for n symbols, n at least 2, between 1 and n - 1, at most 255, and the sum over the
symbols of 2^(-CLEN) is exactly 1 (R126). -/
def Obligations.CodeLengthsFillTheTree : Prop :=
  ∀ s : State, s.Inv → s.workPhase ≠ .count → s.workPhase ≠ .tree →
    (s.st.nsym = 1 → ∀ y, s.cvalidAt y = true → s.clenAt y = 1) ∧
    (2 ≤ s.st.nsym → (∀ y, s.cvalidAt y = true → 1 ≤ s.clenAt y ∧ s.clenAt y ≤ s.st.nsym - 1 ∧ s.clenAt y ≤ 255) ∧
      (s.symbols.map (fun y => 2 ^ (255 - s.clenAt y))).sum = 2 ^ 255)

/-! ## The encoder -/

/-- ENCBEG completes in phase READY and starts an empty bit-string; only PKMEM[0], the encoder's registers and PHASE
change; in another phase it is SEQUENCE (R135). -/
def Obligations.EncbegStartsStream : Prop :=
  ∀ s : State, 1 ≤ s.params.pkDepth →
    (s.phase = .ready → ∃ t, exec .encbeg s = .next t ∧ t = { s with en := t.en, phase := .enc } ∧
      t.en.acc = 0 ∧ t.en.nbits = 0 ∧ t.pkmemAt 0 = 0 ∧ (∀ i, i ≠ 0 → t.pkmemAt i = s.pkmemAt i) ∧
      t.en.pklen = 1 ∧ t.en.pad = 0 ∧ t.en.pkvalid = false ∧ t.en.enccnt = 0) ∧
    (s.phase ≠ .ready → s.phase ≠ .halt → exec .encbeg s = .next (s.raiseFault .sequence 0))

/-- ENC completes when the symbol has a code and the counter and the buffer have room, and its effect is the closed form
of R136: with X the pending bits followed by the code, the whole bytes at the front of X go to PKMEM in order, first
bit in bit 7, and the rest of X becomes ACC and NBITS. PHASE stays ENC and nothing else changes. -/
def Obligations.EncAppendsTheCode : Prop :=
  ∀ (y : Byte) (s : State), s.phase = .enc → s.en.nbits ≤ 7 → s.en.acc.toNat < 2 ^ s.en.nbits →
    s.cvalidAt y = true → s.en.enccnt ≠ 2 ^ s.params.lenW - 1 →
    s.en.pklen + (s.en.nbits + s.clenAt y) / 8 ≤ s.params.pkDepth →
    let x := s.pendingBits ++ s.code y
    let n := (s.en.nbits + s.clenAt y) / 8
    ∃ t, exec (.enc y) s = .next t ∧ t = { s with en := t.en } ∧
      t.en.pklen = s.en.pklen + n ∧ t.en.nbits = (s.en.nbits + s.clenAt y) % 8 ∧
      t.en.acc = BitVec.ofNat 8 (bitVal (x.drop (8 * n))) ∧
      (∀ k j, k < n → j < 8 → (t.pkmemAt (s.en.pklen + k)).getLsbD (7 - j) = x.getD (8 * k + j) false) ∧
      (∀ i, i < s.en.pklen ∨ t.en.pklen ≤ i → t.pkmemAt i = s.pkmemAt i) ∧
      t.en.enccnt = s.en.enccnt + 1 ∧ t.en.pad = s.en.pad ∧ t.en.pkvalid = s.en.pkvalid

/-- The faults of ENC, in their order: an unknown symbol names the symbol and its offset; then a full symbol counter;
then a full buffer, checked for the whole code before any bit is shifted (R141, R142, R183). -/
def Obligations.EncFaultsBeforeAnyBit : Prop :=
  ∀ (y : Byte) (s : State), s.phase = .enc →
    (s.cvalidAt y = false → exec (.enc y) s = .next { s with
      fr := { ecode := .unknownSymbol, ephase := .enc, esym := y, eoff := s.en.enccnt }, phase := .halt }) ∧
    (s.cvalidAt y = true → (s.en.enccnt = 2 ^ s.params.lenW - 1 ∨
        s.en.pklen + (s.en.nbits + s.clenAt y) / 8 > s.params.pkDepth) →
      exec (.enc y) s = .next { s with
        fr := { ecode := .capacity, ephase := .enc, esym := y, eoff := s.en.enccnt }, phase := .halt })

/-- ENCEND completes with and without pending bits: the pending bits, then P zero bits, go to PKMEM[PKLEN]; PKMEM[0] and
PAD become P; PKVALID is set; ENCCNT keeps its value. With pending bits and a full buffer it raises CAPACITY; in another
phase it is SEQUENCE (R138). -/
def Obligations.EncendPadsStream : Prop :=
  ∀ s : State, s.en.nbits ≤ 7 → 1 ≤ s.en.pklen → 1 ≤ s.params.pkDepth →
    (s.phase = .enc → s.en.nbits > 0 → s.en.pklen + 1 ≤ s.params.pkDepth →
      ∃ t, exec .encend s = .next t ∧ t = { s with en := t.en, phase := .ready } ∧
        t.pkmemAt s.en.pklen = BitVec.ofNat 8 (s.en.acc.toNat * 2 ^ (8 - s.en.nbits)) ∧
        t.en.pklen = s.en.pklen + 1 ∧ t.pkmemAt 0 = BitVec.ofNat 8 (8 - s.en.nbits) ∧ t.en.pad = 8 - s.en.nbits ∧
        (∀ i, i ≠ 0 → i ≠ s.en.pklen → t.pkmemAt i = s.pkmemAt i) ∧
        t.en.acc = 0 ∧ t.en.nbits = 0 ∧ t.en.pkvalid = true ∧ t.en.enccnt = s.en.enccnt) ∧
    (s.phase = .enc → s.en.nbits = 0 →
      ∃ t, exec .encend s = .next t ∧ t = { s with en := t.en, phase := .ready } ∧
        t.en.pklen = s.en.pklen ∧ t.pkmemAt 0 = 0 ∧ t.en.pad = 0 ∧ (∀ i, i ≠ 0 → t.pkmemAt i = s.pkmemAt i) ∧
        t.en.acc = 0 ∧ t.en.nbits = 0 ∧ t.en.pkvalid = true ∧ t.en.enccnt = s.en.enccnt) ∧
    (s.phase = .enc → s.en.nbits > 0 → s.en.pklen + 1 > s.params.pkDepth →
      exec .encend s = .next (s.raiseFault .capacity 0)) ∧
    (s.phase ≠ .enc → s.phase ≠ .halt → exec .encend s = .next (s.raiseFault .sequence 0))

/-- "Padding correctness": the padding of a length L is at most 7, makes L + P a multiple of 8, and is the least such
number (R139). -/
def Obligations.PaddingIsTheLeast : Prop :=
  ∀ n : Nat, padding n ≤ 7 ∧ (n + padding n) % 8 = 0 ∧ ∀ p, (n + p) % 8 = 0 → padding n ≤ p

/-- The stream produced: from phase READY, `ENCODE` of symbols that all have codes, within the counter and the buffer,
completes and leaves exactly the PackedStream of R67: the padding byte, the code bits and P zero bits, first bit in bit
7, and the invariant 8 * (PKLEN - 1) - P = len(B) (R140, R68). -/
def Obligations.EncodeProducesThePackedStream : Prop :=
  ∀ (l : List Byte) (s : State), s.phase = .ready → (∀ y ∈ l, s.cvalidAt y = true) →
    l.length ≤ 2 ^ s.params.lenW - 1 →
    let b := s.codes l
    let p := padding b.length
    1 + (b.length + p) / 8 ≤ s.params.pkDepth →
    ∃ t, execAll (Pseudo.encode l).expand s = .next t ∧ t = { s with en := t.en } ∧
      t.en.pklen = 1 + (b.length + p) / 8 ∧ t.pkmemAt 0 = BitVec.ofNat 8 p ∧
      (∀ k j, 1 ≤ k → k < t.en.pklen → j < 8 →
        (t.pkmemAt k).getLsbD (7 - j) = (b ++ List.replicate p false).getD (8 * (k - 1) + j) false) ∧
      (∀ i, t.en.pklen ≤ i → t.pkmemAt i = s.pkmemAt i) ∧
      t.en.pad = p ∧ t.en.pkvalid = true ∧ t.en.enccnt = l.length ∧ t.en.nbits = 0 ∧ t.en.acc = 0 ∧
      8 * (t.en.pklen - 1) - p = b.length

/-! ## The decoder -/

/-- DECBEG completes in phase READY and starts a decoding with an empty candidate; only the decoder's registers and PHASE
change, DOMEM included in what stays; in another phase it is SEQUENCE (R155). -/
def Obligations.DecbegStartsDecoding : Prop :=
  ∀ s : State,
    (s.phase = .ready → ∃ t, exec .decbeg s = .next t ∧ t = { s with de := t.de, phase := .dec } ∧
      t.de.hdrv = false ∧ t.de.dpad = 0 ∧ t.de.hold = 0 ∧ t.de.holdv = false ∧ t.de.dcur = s.tb.root ∧
      t.de.dead = false ∧ t.de.dolen = 0 ∧ t.de.dovalid = false ∧ t.de.dbytes = 0 ∧
      (∀ i, t.domemAt i = s.domemAt i)) ∧
    (s.phase ≠ .ready → s.phase ≠ .halt → exec .decbeg s = .next (s.raiseFault .sequence 0))

/-- DECB of the first byte of a stream: at most 7 it becomes DPAD, above 7 it is CORRUPT_STREAM (R156, first byte). -/
def Obligations.DecbTakesThePaddingByte : Prop :=
  ∀ (b : Byte) (s : State), s.phase = .dec → s.de.dbytes ≠ 2 ^ s.params.lenW - 1 → s.de.hdrv = false →
    (b.toNat ≤ 7 → exec (.decb b) s = .next { s with
      de := { s.de with dpad := b.toNat, hdrv := true, dbytes := s.de.dbytes + 1 } }) ∧
    (b.toNat > 7 → exec (.decb b) s = .next { s with
      fr := { ecode := .corruptStream, ephase := .dec, esym := b, eoff := s.de.dbytes }, phase := .halt })

/-- DECB of a code byte: the byte is held; when a byte was held already, that byte is walked first, all 8 bits of it, its
symbols go to DOMEM from DOLEN on and the candidate moves; CAPACITY of the walk or of the byte counter changes nothing
but the fault record (R156, code byte; R158). -/
def Obligations.DecbWalksTheHeldByte : Prop :=
  ∀ (b : Byte) (s : State), s.phase = .dec → s.de.hdrv = true → s.de.dolen ≤ s.params.doDepth →
    (s.de.dbytes ≠ 2 ^ s.params.lenW - 1 → s.de.holdv = false →
      exec (.decb b) s = .next { s with
        de := { s.de with hold := b, holdv := true, dbytes := s.de.dbytes + 1 } }) ∧
    (s.de.dbytes ≠ 2 ^ s.params.lenW - 1 → s.de.holdv = true → ∀ r, s.walk s.de.hold 0 = some r →
      ∃ t, exec (.decb b) s = .next t ∧ t = { s with de := t.de } ∧
        t.de.dcur = r.cur ∧ t.de.dead = r.dead ∧ t.de.dolen = s.de.dolen + r.out.length ∧
        t.de.dolen ≤ s.params.doDepth ∧
        (∀ j (h : j < r.out.length), t.domemAt (s.de.dolen + j) = r.out[j]) ∧
        (∀ i, i < s.de.dolen ∨ t.de.dolen ≤ i → t.domemAt i = s.domemAt i) ∧
        t.de.hold = b ∧ t.de.holdv = true ∧ t.de.dbytes = s.de.dbytes + 1 ∧ t.de.hdrv = true ∧
        t.de.dpad = s.de.dpad ∧ t.de.dovalid = s.de.dovalid) ∧
    (s.de.dbytes ≠ 2 ^ s.params.lenW - 1 → s.de.holdv = true → s.walk s.de.hold 0 = none →
      exec (.decb b) s = .next (s.raiseFault .capacity b)) ∧
    (s.de.dbytes = 2 ^ s.params.lenW - 1 → exec (.decb b) s = .next (s.raiseFault .capacity b))

/-- DECEND completes when the first byte has come and the bits still held, less the last DPAD, end at an empty candidate:
their symbols go to DOMEM, DOVALID is set, the candidate is empty, PHASE becomes READY, and HDRV, DPAD, HOLD and DBYTES
keep their values (R159). -/
def Obligations.DecendEndsDecoding : Prop :=
  ∀ (s : State) (r : Walk), s.phase = .dec → s.de.hdrv = true → s.de.dolen ≤ s.params.doDepth →
    (s.de.holdv = true ∧ s.walk s.de.hold s.de.dpad = some r ∨
      s.de.holdv = false ∧ s.de.dpad = 0 ∧ r = { cur := s.de.dcur, dead := s.de.dead, out := [] }) →
    r.dead = false → r.cur = s.tb.root →
    ∃ t, exec .decend s = .next t ∧ t = { s with de := t.de, phase := .ready } ∧
      t.de.dcur = s.tb.root ∧ t.de.dead = false ∧ t.de.dolen = s.de.dolen + r.out.length ∧
      (∀ j (h : j < r.out.length), t.domemAt (s.de.dolen + j) = r.out[j]) ∧
      (∀ i, i < s.de.dolen ∨ t.de.dolen ≤ i → t.domemAt i = s.domemAt i) ∧
      t.de.holdv = false ∧ t.de.dovalid = true ∧ t.de.hdrv = true ∧ t.de.dpad = s.de.dpad ∧ t.de.hold = s.de.hold ∧
      t.de.dbytes = s.de.dbytes

/-- The tree walk is the document's candidate matching (R160): with two or more symbols, let c be the path from ROOT to
an internal node. The candidate c is empty exactly at ROOT; a bit that completes some symbol's code emits that symbol
and empties the candidate; any other bit leads to an internal node, whose path is a proper prefix of some code. -/
def Obligations.WalkMatchesCandidates : Prop :=
  ∀ (s : State) (c : BitString) (k : Nat), s.Inv → s.workPhase ≠ .count → s.workPhase ≠ .tree → 2 ≤ s.st.nsym →
    s.follow s.tb.root c = some k → (s.nodeAt k).leaf = false →
    (c = [] ↔ k = s.tb.root) ∧
    ∀ (b : Bool) (out : List Byte), s.de.dolen + out.length < s.params.doDepth →
      (∀ y, s.cvalidAt y = true → s.code y = c ++ [b] →
        s.decBit ⟨k, false, out⟩ b = some ⟨s.tb.root, false, out ++ [y]⟩) ∧
      ((∀ y, s.cvalidAt y = true → s.code y ≠ c ++ [b]) →
        ∃ k', s.decBit ⟨k, false, out⟩ b = some ⟨k', false, out⟩ ∧ s.follow s.tb.root (c ++ [b]) = some k' ∧
          (s.nodeAt k').leaf = false ∧ ∃ y, s.cvalidAt y = true ∧ c ++ [b] <+: s.code y ∧ c ++ [b] ≠ s.code y)

/-- A whole stream with code bytes: `DECODE` of [p, c_1, ..., c_(N-1)], N at least 2, decodes the bits of the code bytes
less the last p from the empty candidate (R166). It ends in READY with the emitted symbols when that walk ends at an
empty candidate, in CORRUPT_STREAM when it does not, and in CAPACITY when a symbol finds DOMEM full (R159, R161). -/
def Obligations.DecodeWalksTheWholeStream : Prop :=
  ∀ (s : State) (p : Byte) (cs : List Byte), s.phase = .ready → p.toNat ≤ 7 → 1 ≤ cs.length →
    cs.length + 1 ≤ 2 ^ s.params.lenW - 1 →
    ∃ t, execAll (Pseudo.decode (p :: cs)).expand s = .next t ∧ t.st = s.st ∧ t.tb = s.tb ∧ t.cg = s.cg ∧ t.en = s.en ∧
      match s.decodeBits (streamBits p.toNat cs) with
      | none => t.phase = .halt ∧ t.fr.ecode = .capacity
      | some r =>
        if r.dead = true ∨ r.cur ≠ s.tb.root then t.phase = .halt ∧ t.fr.ecode = .corruptStream
        else t = { s with de := t.de } ∧ t.de.dovalid = true ∧ t.decoded = r.out

/-- Decoding with one distinct symbol (R165): a leading run of k zero bits emits k copies of the one symbol, the first 1
bit makes the candidate dead, and every later bit is ignored. -/
def Obligations.DegenerateWalkCountsZeros : Prop :=
  ∀ (s : State) (k : Nat) (rest : BitString), (s.nodeAt s.tb.root).leaf = true → k ≤ s.params.doDepth →
    s.decodeBits (List.replicate k false) =
      some { cur := s.tb.root, dead := false, out := List.replicate k (s.nodeAt s.tb.root).sym } ∧
    s.decodeBits (List.replicate k false ++ true :: rest) =
      some { cur := s.tb.root, dead := true, out := List.replicate k (s.nodeAt s.tb.root).sym }

/-- Round trip for any CodeBook (R162): in phase READY, `ENCODE y` followed by `DECODE` of the stream in PKMEM raises no
fault other than CAPACITY, and when it raises none it gives DOMEM[0..DOLEN-1] = y with DOVALID = 1. -/
def Obligations.RoundTripGivesTheInput : Prop :=
  ∀ (s : State) (l : List Byte), s.Inv → s.phase = .ready → (∀ y ∈ l, s.cvalidAt y = true) →
    ∃ t u, execAll (Pseudo.encode l).expand s = .next t ∧
      execAll (Pseudo.decode t.packedStream).expand t = .next u ∧
      (u.phase = .halt → u.fr.ecode = .capacity) ∧
      (u.phase ≠ .halt → u = { s with en := t.en, de := u.de } ∧ u.de.dovalid = true ∧ u.decoded = l)

/-- Round trip from the start (R162): from a state with nothing counted, `COUNT x`, `BUILD`, `GEN`, `ENCODE x`, then
`DECODE` of the stream in PKMEM, for x not empty, completes in phase READY with the decoder's output equal to x,
whenever the counters and the buffers have room for it. -/
def Obligations.RoundTripFromTheStart : Prop :=
  ∀ (s : State) (x : List Byte), s.Inv → s.phase = .count → s.st = .reset → x ≠ [] →
    x.length ≤ 2 ^ s.params.lenW - 1 → x.length ≤ s.params.doDepth →
    ∃ r, execAll (Pseudo.table x).expand s = .next r ∧ r.phase = .ready ∧
      (1 + ((r.codes x).length + 7) / 8 ≤ s.params.pkDepth →
       1 + ((r.codes x).length + 7) / 8 ≤ 2 ^ s.params.lenW - 1 →
        ∃ t u, execAll (Pseudo.encode x).expand r = .next t ∧ execAll (Pseudo.decode t.packedStream).expand t = .next u ∧
          u.phase = .ready ∧ u.de.dovalid = true ∧ u.de.dolen = x.length ∧ u.decoded = x)

/-! ## The read port -/

/-- A host read at or beyond the entry count of a space, space 7 and the CSR numbers above 0x0E included, returns 0 (R46,
R53). -/
def Obligations.ReadsOutsideAreZero : Prop :=
  ∀ (s : State) (a : Nat),
    (15 ≤ a → s.readEntry 0 a = 0) ∧ (256 ≤ a → s.readEntry 1 a = 0 ∧ s.readEntry 2 a = 0) ∧
    (511 ≤ a → s.readEntry 3 a = 0) ∧ (256 ≤ a → s.readEntry 4 a = 0) ∧
    (s.params.pkDepth ≤ a → s.readEntry 5 a = 0) ∧ (s.params.doDepth ≤ a → s.readEntry 6 a = 0) ∧
    s.readEntry 7 a = 0

/-- Every register reads as its value, at its number, with STATUS and ERR in the layout of R37: field by field as a sum
of the fields at their bit positions. -/
def Obligations.CsrReadsGiveTheRegisters : Prop :=
  ∀ s : State, s.Inv →
    s.readEntry 0 0x00 = s.phase.bits.toNat + 2 ^ 3 * s.en.pkvalid.toNat + 2 ^ 4 * s.de.dovalid.toNat +
      2 ^ 5 * s.de.hdrv.toNat + 2 ^ 6 * s.de.holdv.toNat + 2 ^ 7 * s.de.dead.toNat + 2 ^ 8 * s.en.nbits +
      2 ^ 11 * s.en.pad + 2 ^ 14 * s.de.dpad ∧
    s.readEntry 0 0x01 = s.fr.ecode.bits.toNat + 2 ^ 3 * s.fr.ephase.bits.toNat + 2 ^ 8 * s.fr.esym.toNat ∧
    s.readEntry 0 0x02 = s.fr.eoff ∧ s.readEntry 0 0x03 = s.st.nsym ∧ s.readEntry 0 0x04 = s.st.total ∧
    s.readEntry 0 0x05 = s.tb.nnode ∧ s.readEntry 0 0x06 = s.tb.root ∧ s.readEntry 0 0x07 = s.cg.maxlen ∧
    s.readEntry 0 0x08 = s.en.pklen ∧ s.readEntry 0 0x09 = s.de.dolen ∧ s.readEntry 0 0x0A = s.en.enccnt ∧
    s.readEntry 0 0x0B = s.de.dbytes ∧ s.readEntry 0 0x0C = s.en.acc.toNat ∧ s.readEntry 0 0x0D = s.de.hold.toNat ∧
    s.readEntry 0 0x0E = s.de.dcur

/-- Every entry of every memory reads as R45 lays it out, the fields at their bit positions: COUNT, ORDER, NODE, CODE, PKMEM
and DOMEM. An entry that nothing has written is laid out in the same way: CVALID and COUNT read 0, the other fields
their free values (R46; log 3). -/
def Obligations.MemoryReadsGiveTheEntries : Prop :=
  ∀ s : State, s.Inv →
    (∀ y : Byte, s.readEntry 1 y.toNat = s.countAt y) ∧
    (∀ i, i < 256 → s.readEntry 2 i = (s.orderAt i).toNat) ∧
    (∀ k, k < nodeMax → s.readEntry 3 k = (s.nodeAt k).right + 2 ^ 9 * (s.nodeAt k).left +
      2 ^ 18 * (s.nodeAt k).sym.toNat + 2 ^ 26 * (s.nodeAt k).weight +
      2 ^ (s.params.lenW + 26) * (s.nodeAt k).leaf.toNat) ∧
    (∀ y : Byte, s.readEntry 4 y.toNat =
      (s.cbitsAt y).toNat + 2 ^ 255 * s.clenAt y + 2 ^ 263 * (s.cvalidAt y).toNat) ∧
    (∀ i, i < s.params.pkDepth → s.readEntry 5 i = (s.pkmemAt i).toNat) ∧
    (∀ i, i < s.params.doDepth → s.readEntry 6 i = (s.domemAt i).toNat)

/-! ## The whole machine -/

/-- The state after reset satisfies the invariants that 10_state.md gives for every unit. -/
def Obligations.ResetSatisfiesTheInvariants : Prop := State.reset.Inv

/-- Every step keeps them, whatever the host does (R10 to R32, R41, R84, R143, R166): from every state that satisfies them, not
only from those a run from reset reaches. -/
def Obligations.StepKeepsTheInvariants : Prop := ∀ s t : State, s.Inv → step s = .next t → t.Inv

/-- Every command terminates (R215): from every state that satisfies the invariants a step answers a next state, never a
fault or a refusal of the model. -/
def Obligations.EveryStepCompletes : Prop := ∀ s : State, s.Inv → ∃ t, step s = .next t

/-- "No operation wraps around": every register and memory field fits the width that 10_state.md gives it (R86), and the
read address the RA_W bits of its pin (R7, R41). -/
def Obligations.EveryValueFitsItsWidth : Prop := ∀ s : State, s.Inv → s.Fits
end

