-- ==== Sys2Proof/Laws/Bits.lean ====
section
/-!
SUPPORT. Bit-strings and their numerals (R8, R71): a code is recovered from its stored form.
-/

namespace Sys2Proof.Machine

@[simp] theorem bitVal_nil : bitVal [] = 0 := rfl

theorem bitVal_append (a b : BitString) : bitVal (a ++ b) = bitVal a * 2 ^ b.length + bitVal b := by
  induction b using List.reverseRecOn with
  | nil => simp
  | append_singleton b x ih =>
    rw [← List.append_assoc]
    simp only [bitVal, List.foldl_append, List.foldl_cons, List.foldl_nil] at ih ⊢
    rw [ih]
    simp only [List.length_append, List.length_singleton, pow_succ]
    ring

theorem bitVal_concat (a : BitString) (x : Bool) : bitVal (a ++ [x]) = 2 * bitVal a + x.toNat := by
  simp [bitVal]

theorem bitVal_cons (x : Bool) (b : BitString) : bitVal (x :: b) = x.toNat * 2 ^ b.length + bitVal b := by
  have := bitVal_append [x] b
  simpa [bitVal] using this

theorem bitVal_lt (b : BitString) : bitVal b < 2 ^ b.length := by
  induction b with
  | nil => simp
  | cons x b ih =>
    rw [bitVal_cons, List.length_cons, pow_succ]
    have : x.toNat ≤ 1 := Bool.toNat_le x
    nlinarith

/-- The bit of a numeral at position L-1-j is the j-th bit of the string (R71). -/
theorem testBit_bitVal (b : BitString) {j : Nat} (h : j < b.length) :
    (bitVal b).testBit (b.length - 1 - j) = b[j] := by
  induction b generalizing j with
  | nil => simp at h
  | cons x b ih =>
    have hlt := bitVal_lt b
    rw [bitVal_cons]
    cases j with
    | zero =>
      simp only [List.length_cons, Nat.add_sub_cancel, Nat.sub_zero, List.getElem_cons_zero]
      rw [mul_comm, Nat.testBit_two_pow_mul_add _ hlt]
      cases x <;> simp
    | succ j =>
      simp only [List.length_cons, List.getElem_cons_succ] at h ⊢
      rw [show b.length + 1 - 1 - (j + 1) = b.length - 1 - j by omega, mul_comm, Nat.testBit_two_pow_mul_add _ hlt,
        if_pos (by omega)]
      exact ih (by omega)

@[simp] theorem codeString_length (n : Nat) (c : CodeBits) : (codeString n c).length = n := by
  simp [codeString]

/-- The stored form determines the code (R71). -/
theorem codeString_bitVal (b : BitString) (h : b.length ≤ 255) :
    codeString b.length (BitVec.ofNat 255 (bitVal b)) = b := by
  refine List.ext_getElem (by simp) fun j hj1 hj2 => ?_
  simp only [codeString, List.getElem_map, List.getElem_range, BitVec.getLsbD_ofNat]
  rw [testBit_bitVal b hj2]
  simp
  omega

@[simp] theorem byteBits_length (v : Byte) (lo : Nat) : (byteBits v lo).length = 8 - lo := by simp [byteBits]

end Sys2Proof.Machine
end

