-- ==== Sys2Proof/Laws/Mem.lean ====
section
/-!
SUPPORT. The laws of one memory: a read after a write, the canonical form that every write keeps, and a memory whose
listed indexes are 0, 1, ..., n-1 (the append memories ORDER and NODE).
-/

namespace Sys2Proof.Machine

variable {α : Type}

@[simp] theorem find_nil (a : Nat) : Mem.find ([] : Mem α) a = none := rfl

theorem find_cons (b : Nat) (v : α) (m : Mem α) (a : Nat) :
    Mem.find ((b, v) :: m) a = if a = b then some v else Mem.find m a := rfl

@[simp] theorem find_insert_self (m : Mem α) (a : Nat) (v : α) : Mem.find (Mem.insert m a v) a = some v := by
  induction m with
  | nil => simp [Mem.insert, Mem.find]
  | cons e m ih =>
    obtain ⟨b, w⟩ := e
    simp only [Mem.insert]
    split
    · simp [Mem.find]
    · split
      · simp [Mem.find]
      · next h => simp [Mem.find, h, ih]

@[simp] theorem find_insert_of_ne (m : Mem α) (a : Nat) (v : α) {c : Nat} (h : c ≠ a) :
    Mem.find (Mem.insert m a v) c = Mem.find m c := by
  induction m with
  | nil => simp [Mem.insert, Mem.find, h]
  | cons e m ih =>
    obtain ⟨b, w⟩ := e
    simp only [Mem.insert]
    split
    · simp [Mem.find, h]
    · split
      · next hab => subst hab; simp [Mem.find, h]
      · simp [Mem.find, ih]

theorem find_erase_of_ne (m : Mem α) (a : Nat) {c : Nat} (h : c ≠ a) :
    Mem.find (Mem.erase m a) c = Mem.find m c := by
  induction m with
  | nil => rfl
  | cons e m ih =>
    obtain ⟨b, w⟩ := e
    simp only [Mem.erase]
    split
    · next hab => subst hab; simp [Mem.find, h]
    · simp [Mem.find, ih]

theorem find_eq_none_of_rising {m : Mem α} {low a : Nat} (h : Mem.rising low m = true) (ha : a < low) :
    Mem.find m a = none := by
  induction m generalizing low with
  | nil => rfl
  | cons e m ih =>
    obtain ⟨b, w⟩ := e
    simp only [Mem.rising, Bool.and_eq_true, decide_eq_true_eq] at h
    rw [find_cons, if_neg (by omega), ih h.2 (by omega)]

theorem find_erase_self {m : Mem α} {low : Nat} (h : Mem.rising low m = true) (a : Nat) :
    Mem.find (Mem.erase m a) a = none := by
  induction m generalizing low with
  | nil => rfl
  | cons e m ih =>
    obtain ⟨b, w⟩ := e
    simp only [Mem.rising, Bool.and_eq_true, decide_eq_true_eq] at h
    simp only [Mem.erase]
    split
    · next hab => exact find_eq_none_of_rising h.2 (by omega)
    · next hab => rw [find_cons, if_neg hab, ih h.2]

/-! ## The rising order and the entries under a write -/

theorem rising_mono {m : Mem α} {low low' : Nat} (h : Mem.rising low m = true) (hl : low' ≤ low) :
    Mem.rising low' m = true := by
  cases m with
  | nil => rfl
  | cons e m =>
    obtain ⟨b, w⟩ := e
    simp only [Mem.rising, Bool.and_eq_true, decide_eq_true_eq] at h ⊢
    exact ⟨by omega, h.2⟩

theorem rising_insert {m : Mem α} {low : Nat} (h : Mem.rising low m = true) {a : Nat} (ha : low ≤ a) (v : α) :
    Mem.rising low (Mem.insert m a v) = true := by
  induction m generalizing low with
  | nil => simpa [Mem.insert, Mem.rising] using ha
  | cons e m ih =>
    obtain ⟨b, w⟩ := e
    simp only [Mem.rising, Bool.and_eq_true, decide_eq_true_eq] at h
    simp only [Mem.insert]
    split
    · simp only [Mem.rising, Bool.and_eq_true, decide_eq_true_eq]
      exact ⟨ha, by omega, h.2⟩
    · split
      · next hab =>
        simp only [Mem.rising, Bool.and_eq_true, decide_eq_true_eq]
        exact ⟨ha, hab ▸ h.2⟩
      · simp only [Mem.rising, Bool.and_eq_true, decide_eq_true_eq]
        exact ⟨h.1, ih h.2 (by omega)⟩

theorem rising_erase {m : Mem α} {low : Nat} (h : Mem.rising low m = true) (a : Nat) :
    Mem.rising low (Mem.erase m a) = true := by
  induction m generalizing low with
  | nil => rfl
  | cons e m ih =>
    obtain ⟨b, w⟩ := e
    simp only [Mem.rising, Bool.and_eq_true, decide_eq_true_eq] at h
    simp only [Mem.erase]
    split
    · exact rising_mono h.2 (by omega)
    · simp only [Mem.rising, Bool.and_eq_true, decide_eq_true_eq]
      exact ⟨h.1, ih h.2⟩

theorem mem_insert {m : Mem α} {a : Nat} {v : α} {e : Nat × α} (h : e ∈ Mem.insert m a v) : e = (a, v) ∨ e ∈ m := by
  induction m with
  | nil => simpa [Mem.insert] using h
  | cons x m ih =>
    obtain ⟨b, w⟩ := x
    simp only [Mem.insert] at h
    split at h
    · simpa using h
    · split at h
      · rcases List.mem_cons.1 h with h | h
        · exact .inl h
        · exact .inr (List.mem_cons_of_mem _ h)
      · rcases List.mem_cons.1 h with h | h
        · exact .inr (h ▸ List.mem_cons_self)
        · exact (ih h).imp_right (List.mem_cons_of_mem _)

theorem mem_erase {m : Mem α} {a : Nat} {e : Nat × α} (h : e ∈ Mem.erase m a) : e ∈ m := by
  induction m with
  | nil => simp [Mem.erase] at h
  | cons x m ih =>
    obtain ⟨b, w⟩ := x
    simp only [Mem.erase] at h
    split at h
    · exact List.mem_cons_of_mem _ h
    · rcases List.mem_cons.1 h with h | h
      · exact h ▸ List.mem_cons_self
      · exact List.mem_cons_of_mem _ (ih h)

/-! ## A read after a write -/

section
variable [DecidableEq α] {size : Nat} {unlisted : Option α}

/-- A write of a value other than what an unlisted index reads as is read back. -/
theorem find_write_self {m : Mem α} {a : Nat} {v : α} (ha : a < size) (hv : unlisted ≠ some v) :
    Mem.find (Mem.write size unlisted m a v) a = some v := by
  simp [Mem.write, ha, hv]

/-- A write leaves every other index alone. -/
@[simp] theorem find_write_of_ne (m : Mem α) (a : Nat) (v : α) {c : Nat} (h : c ≠ a) :
    Mem.find (Mem.write size unlisted m a v) c = Mem.find m c := by
  unfold Mem.write
  split
  · split
    · exact find_erase_of_ne m a h
    · exact find_insert_of_ne m a v h
  · rfl

/-- In canonical form, what an index reads as after a write to it is the value written, listed or not. -/
theorem read_write_self {m : Mem α} (hm : Mem.wf size unlisted m = true) {a : Nat} {v d : α} (ha : a < size)
    (hd : unlisted = none ∨ unlisted = some d) : (Mem.find (Mem.write size unlisted m a v) a).getD d = v := by
  simp only [Mem.wf, Bool.and_eq_true] at hm
  by_cases hv : unlisted = some v
  · have : d = v := by rcases hd with h | h <;> simp_all
    simp [Mem.write, ha, hv, find_erase_self hm.1, this]
  · rw [find_write_self ha hv, Option.getD_some]

/-! ## The canonical form -/

@[simp] theorem wf_nil : Mem.wf size unlisted ([] : Mem α) = true := rfl

/-- Every write keeps the canonical form. -/
theorem wf_write {m : Mem α} (h : Mem.wf size unlisted m = true) (a : Nat) (v : α) :
    Mem.wf size unlisted (Mem.write size unlisted m a v) = true := by
  unfold Mem.write
  split
  · next ha =>
    simp only [Mem.wf, Bool.and_eq_true, List.all_eq_true, decide_eq_true_eq] at h ⊢
    split
    · exact ⟨rising_erase h.1 a, fun e he => h.2 e (mem_erase he)⟩
    · next hv =>
      refine ⟨rising_insert h.1 (Nat.zero_le _) v, fun e he => ?_⟩
      rcases mem_insert he with rfl | he
      · exact ⟨ha, hv⟩
      · exact h.2 e he
  · exact h

end

/-! ## A memory whose listed indexes are 0, 1, ..., n-1 -/

theorem find_isSome_iff (m : Mem α) (a : Nat) : (Mem.find m a).isSome ↔ a ∈ m.map Prod.fst := by
  induction m with
  | nil => simp [Mem.find]
  | cons e m ih =>
    obtain ⟨b, w⟩ := e
    rw [find_cons]
    by_cases h : a = b <;> simp [h, ih]

/-- Listing an index above all the others appends the entry. -/
theorem insert_append {m : Mem α} {n : Nat} (h : ∀ e ∈ m, e.1 < n) (v : α) : Mem.insert m n v = m ++ [(n, v)] := by
  induction m with
  | nil => rfl
  | cons e m ih =>
    obtain ⟨b, w⟩ := e
    have hb : b < n := h (b, w) List.mem_cons_self
    simp only [Mem.insert, if_neg (Nat.not_lt.2 hb.le), if_neg hb.ne', List.cons_append, List.cons.injEq, true_and]
    exact ih fun e he => h e (List.mem_cons_of_mem _ he)

theorem lt_of_listed {m : Mem α} {n : Nat} (h : m.map Prod.fst = List.range n) : ∀ e ∈ m, e.1 < n := fun _ he =>
  List.mem_range.1 (h ▸ List.mem_map_of_mem he)

theorem find_isSome_of_listed {m : Mem α} {n : Nat} (h : m.map Prod.fst = List.range n) (a : Nat) :
    (Mem.find m a).isSome ↔ a < n := by rw [find_isSome_iff, h, List.mem_range]

theorem find_append (m m' : Mem α) (a : Nat) : Mem.find (m ++ m') a = (Mem.find m a).or (Mem.find m' a) := by
  induction m with
  | nil => simp
  | cons e m ih =>
    obtain ⟨b, w⟩ := e
    rw [List.cons_append, find_cons, find_cons]
    split <;> simp [ih]

/-- Appending at index n to a memory that lists 0, ..., n-1. -/
theorem write_append [DecidableEq α] {m : Mem α} {size n : Nat} (h : m.map Prod.fst = List.range n) (hn : n < size)
    (v : α) : Mem.write size none m n v = m ++ [(n, v)] := by
  simp [Mem.write, hn, insert_append (lt_of_listed h) v]

theorem listed_append {m : Mem α} {n : Nat} (h : m.map Prod.fst = List.range n) (v : α) :
    (m ++ [(n, v)]).map Prod.fst = List.range (n + 1) := by
  simp [h, List.range_succ]

/-- The entry at index i of a memory that lists 0, ..., n-1 is the i-th entry of the list. -/
theorem find_of_listed {m : Mem α} {n : Nat} (h : m.map Prod.fst = List.range n) (i : Nat) :
    Mem.find m i = (m.map Prod.snd)[i]? := by
  induction m using List.reverseRecOn generalizing n with
  | nil => simp
  | append_singleton m e ih =>
    obtain ⟨b, w⟩ := e
    have hlen : m.length + 1 = n := by simpa using congrArg List.length h
    subst hlen
    rw [List.map_append, List.range_succ] at h
    obtain ⟨h1, h2⟩ := List.append_inj h (by simp)
    obtain rfl : b = m.length := by simpa using h2
    rw [find_append, ih h1, List.map_append, List.getElem?_append]
    simp only [List.length_map, find_cons, find_nil]
    by_cases hi : i < m.length
    · simp [hi]
    · rw [if_neg hi]
      by_cases hi' : i = m.length
      · subst hi'; simp
      · rw [if_neg hi']
        have : (m.map Prod.snd)[i]? = none := List.getElem?_eq_none (by simp; omega)
        rw [this]
        simp
        omega

end Sys2Proof.Machine
end

