-- ==== Sys2Proof/Laws/State.lean ====
section
/-!
SUPPORT. One lemma per field per update, all true by rfl, so that no proof unfolds a record update: for every named
update, what each unit, register and memory is after it, and what each memory reads as where it does not write.
-/

namespace Sys2Proof.Machine

variable (s : State)

/-! ## writeCount -/

@[simp] theorem writeCount_st_count (y : Byte) (v : Nat) : (s.writeCount y v).st.count = Mem.write alpha (some 0) s.st.count y.toNat v := rfl
@[simp] theorem writeCount_st_order (y : Byte) (v : Nat) : (s.writeCount y v).st.order = s.st.order := rfl
@[simp] theorem writeCount_st_nsym (y : Byte) (v : Nat) : (s.writeCount y v).st.nsym = s.st.nsym := rfl
@[simp] theorem writeCount_st_total (y : Byte) (v : Nat) : (s.writeCount y v).st.total = s.st.total := rfl
@[simp] theorem writeCount_tb (y : Byte) (v : Nat) : (s.writeCount y v).tb = s.tb := rfl
@[simp] theorem writeCount_cg (y : Byte) (v : Nat) : (s.writeCount y v).cg = s.cg := rfl
@[simp] theorem writeCount_en (y : Byte) (v : Nat) : (s.writeCount y v).en = s.en := rfl
@[simp] theorem writeCount_de (y : Byte) (v : Nat) : (s.writeCount y v).de = s.de := rfl
@[simp] theorem writeCount_phase (y : Byte) (v : Nat) : (s.writeCount y v).phase = s.phase := rfl
@[simp] theorem writeCount_fr (y : Byte) (v : Nat) : (s.writeCount y v).fr = s.fr := rfl
@[simp] theorem writeCount_params (y : Byte) (v : Nat) : (s.writeCount y v).params = s.params := rfl
@[simp] theorem writeCount_epoch (y : Byte) (v : Nat) : (s.writeCount y v).epoch = s.epoch := rfl
@[simp] theorem writeCount_port (y : Byte) (v : Nat) : (s.writeCount y v).port = s.port := rfl
@[simp] theorem writeCount_orderAt (y : Byte) (v : Nat) (i : Nat) : (s.writeCount y v).orderAt i = s.orderAt i := rfl
@[simp] theorem writeCount_nodeAt (y : Byte) (v : Nat) (k : Nat) : (s.writeCount y v).nodeAt k = s.nodeAt k := rfl
@[simp] theorem writeCount_cvalidAt (y : Byte) (v : Nat) (x : Byte) : (s.writeCount y v).cvalidAt x = s.cvalidAt x := rfl
@[simp] theorem writeCount_clenAt (y : Byte) (v : Nat) (x : Byte) : (s.writeCount y v).clenAt x = s.clenAt x := rfl
@[simp] theorem writeCount_cbitsAt (y : Byte) (v : Nat) (x : Byte) : (s.writeCount y v).cbitsAt x = s.cbitsAt x := rfl
@[simp] theorem writeCount_pkmemAt (y : Byte) (v : Nat) (i : Nat) : (s.writeCount y v).pkmemAt i = s.pkmemAt i := rfl
@[simp] theorem writeCount_domemAt (y : Byte) (v : Nat) (i : Nat) : (s.writeCount y v).domemAt i = s.domemAt i := rfl

/-! ## appendOrder -/

@[simp] theorem appendOrder_st_count (y : Byte) : (s.appendOrder y).st.count = s.st.count := rfl
@[simp] theorem appendOrder_st_order (y : Byte) : (s.appendOrder y).st.order = Mem.write alpha none s.st.order s.st.nsym y := rfl
@[simp] theorem appendOrder_st_nsym (y : Byte) : (s.appendOrder y).st.nsym = s.st.nsym + 1 := rfl
@[simp] theorem appendOrder_st_total (y : Byte) : (s.appendOrder y).st.total = s.st.total := rfl
@[simp] theorem appendOrder_tb (y : Byte) : (s.appendOrder y).tb = s.tb := rfl
@[simp] theorem appendOrder_cg (y : Byte) : (s.appendOrder y).cg = s.cg := rfl
@[simp] theorem appendOrder_en (y : Byte) : (s.appendOrder y).en = s.en := rfl
@[simp] theorem appendOrder_de (y : Byte) : (s.appendOrder y).de = s.de := rfl
@[simp] theorem appendOrder_phase (y : Byte) : (s.appendOrder y).phase = s.phase := rfl
@[simp] theorem appendOrder_fr (y : Byte) : (s.appendOrder y).fr = s.fr := rfl
@[simp] theorem appendOrder_params (y : Byte) : (s.appendOrder y).params = s.params := rfl
@[simp] theorem appendOrder_epoch (y : Byte) : (s.appendOrder y).epoch = s.epoch := rfl
@[simp] theorem appendOrder_port (y : Byte) : (s.appendOrder y).port = s.port := rfl
@[simp] theorem appendOrder_countAt (y : Byte) (x : Byte) : (s.appendOrder y).countAt x = s.countAt x := rfl
@[simp] theorem appendOrder_nodeAt (y : Byte) (k : Nat) : (s.appendOrder y).nodeAt k = s.nodeAt k := rfl
@[simp] theorem appendOrder_cvalidAt (y : Byte) (x : Byte) : (s.appendOrder y).cvalidAt x = s.cvalidAt x := rfl
@[simp] theorem appendOrder_clenAt (y : Byte) (x : Byte) : (s.appendOrder y).clenAt x = s.clenAt x := rfl
@[simp] theorem appendOrder_cbitsAt (y : Byte) (x : Byte) : (s.appendOrder y).cbitsAt x = s.cbitsAt x := rfl
@[simp] theorem appendOrder_pkmemAt (y : Byte) (i : Nat) : (s.appendOrder y).pkmemAt i = s.pkmemAt i := rfl
@[simp] theorem appendOrder_domemAt (y : Byte) (i : Nat) : (s.appendOrder y).domemAt i = s.domemAt i := rfl

/-! ## writeNode -/

@[simp] theorem writeNode_st (k : Nat) (v : Node) : (s.writeNode k v).st = s.st := rfl
@[simp] theorem writeNode_tb_node (k : Nat) (v : Node) : (s.writeNode k v).tb.node = Mem.write nodeMax none s.tb.node k v := rfl
@[simp] theorem writeNode_tb_nnode (k : Nat) (v : Node) : (s.writeNode k v).tb.nnode = s.tb.nnode := rfl
@[simp] theorem writeNode_tb_root (k : Nat) (v : Node) : (s.writeNode k v).tb.root = s.tb.root := rfl
@[simp] theorem writeNode_tb_work (k : Nat) (v : Node) : (s.writeNode k v).tb.work = s.tb.work := rfl
@[simp] theorem writeNode_cg (k : Nat) (v : Node) : (s.writeNode k v).cg = s.cg := rfl
@[simp] theorem writeNode_en (k : Nat) (v : Node) : (s.writeNode k v).en = s.en := rfl
@[simp] theorem writeNode_de (k : Nat) (v : Node) : (s.writeNode k v).de = s.de := rfl
@[simp] theorem writeNode_phase (k : Nat) (v : Node) : (s.writeNode k v).phase = s.phase := rfl
@[simp] theorem writeNode_fr (k : Nat) (v : Node) : (s.writeNode k v).fr = s.fr := rfl
@[simp] theorem writeNode_params (k : Nat) (v : Node) : (s.writeNode k v).params = s.params := rfl
@[simp] theorem writeNode_epoch (k : Nat) (v : Node) : (s.writeNode k v).epoch = s.epoch := rfl
@[simp] theorem writeNode_port (k : Nat) (v : Node) : (s.writeNode k v).port = s.port := rfl
@[simp] theorem writeNode_countAt (k : Nat) (v : Node) (y : Byte) : (s.writeNode k v).countAt y = s.countAt y := rfl
@[simp] theorem writeNode_orderAt (k : Nat) (v : Node) (i : Nat) : (s.writeNode k v).orderAt i = s.orderAt i := rfl
@[simp] theorem writeNode_cvalidAt (k : Nat) (v : Node) (y : Byte) : (s.writeNode k v).cvalidAt y = s.cvalidAt y := rfl
@[simp] theorem writeNode_clenAt (k : Nat) (v : Node) (y : Byte) : (s.writeNode k v).clenAt y = s.clenAt y := rfl
@[simp] theorem writeNode_cbitsAt (k : Nat) (v : Node) (y : Byte) : (s.writeNode k v).cbitsAt y = s.cbitsAt y := rfl
@[simp] theorem writeNode_pkmemAt (k : Nat) (v : Node) (i : Nat) : (s.writeNode k v).pkmemAt i = s.pkmemAt i := rfl
@[simp] theorem writeNode_domemAt (k : Nat) (v : Node) (i : Nat) : (s.writeNode k v).domemAt i = s.domemAt i := rfl

/-! ## setWork -/

@[simp] theorem setWork_st (w : List Nat) : (s.setWork w).st = s.st := rfl
@[simp] theorem setWork_tb_node (w : List Nat) : (s.setWork w).tb.node = s.tb.node := rfl
@[simp] theorem setWork_tb_nnode (w : List Nat) : (s.setWork w).tb.nnode = s.tb.nnode := rfl
@[simp] theorem setWork_tb_root (w : List Nat) : (s.setWork w).tb.root = s.tb.root := rfl
@[simp] theorem setWork_tb_work (w : List Nat) : (s.setWork w).tb.work = w := rfl
@[simp] theorem setWork_cg (w : List Nat) : (s.setWork w).cg = s.cg := rfl
@[simp] theorem setWork_en (w : List Nat) : (s.setWork w).en = s.en := rfl
@[simp] theorem setWork_de (w : List Nat) : (s.setWork w).de = s.de := rfl
@[simp] theorem setWork_phase (w : List Nat) : (s.setWork w).phase = s.phase := rfl
@[simp] theorem setWork_fr (w : List Nat) : (s.setWork w).fr = s.fr := rfl
@[simp] theorem setWork_params (w : List Nat) : (s.setWork w).params = s.params := rfl
@[simp] theorem setWork_epoch (w : List Nat) : (s.setWork w).epoch = s.epoch := rfl
@[simp] theorem setWork_port (w : List Nat) : (s.setWork w).port = s.port := rfl
@[simp] theorem setWork_countAt (w : List Nat) (y : Byte) : (s.setWork w).countAt y = s.countAt y := rfl
@[simp] theorem setWork_orderAt (w : List Nat) (i : Nat) : (s.setWork w).orderAt i = s.orderAt i := rfl
@[simp] theorem setWork_nodeAt (w : List Nat) (k : Nat) : (s.setWork w).nodeAt k = s.nodeAt k := rfl
@[simp] theorem setWork_cvalidAt (w : List Nat) (y : Byte) : (s.setWork w).cvalidAt y = s.cvalidAt y := rfl
@[simp] theorem setWork_clenAt (w : List Nat) (y : Byte) : (s.setWork w).clenAt y = s.clenAt y := rfl
@[simp] theorem setWork_cbitsAt (w : List Nat) (y : Byte) : (s.setWork w).cbitsAt y = s.cbitsAt y := rfl
@[simp] theorem setWork_pkmemAt (w : List Nat) (i : Nat) : (s.setWork w).pkmemAt i = s.pkmemAt i := rfl
@[simp] theorem setWork_domemAt (w : List Nat) (i : Nat) : (s.setWork w).domemAt i = s.domemAt i := rfl

/-! ## writeCode -/

@[simp] theorem writeCode_st (y : Byte) (n : Nat) (c : CodeBits) : (s.writeCode y n c).st = s.st := rfl
@[simp] theorem writeCode_tb (y : Byte) (n : Nat) (c : CodeBits) : (s.writeCode y n c).tb = s.tb := rfl
@[simp] theorem writeCode_cg_cvalid (y : Byte) (n : Nat) (c : CodeBits) : (s.writeCode y n c).cg.cvalid = Mem.write alpha (some false) s.cg.cvalid y.toNat true := rfl
@[simp] theorem writeCode_cg_clen (y : Byte) (n : Nat) (c : CodeBits) : (s.writeCode y n c).cg.clen = Mem.write alpha none s.cg.clen y.toNat n := rfl
@[simp] theorem writeCode_cg_cbits (y : Byte) (n : Nat) (c : CodeBits) : (s.writeCode y n c).cg.cbits = Mem.write alpha none s.cg.cbits y.toNat c := rfl
@[simp] theorem writeCode_cg_maxlen (y : Byte) (n : Nat) (c : CodeBits) : (s.writeCode y n c).cg.maxlen = s.cg.maxlen := rfl
@[simp] theorem writeCode_en (y : Byte) (n : Nat) (c : CodeBits) : (s.writeCode y n c).en = s.en := rfl
@[simp] theorem writeCode_de (y : Byte) (n : Nat) (c : CodeBits) : (s.writeCode y n c).de = s.de := rfl
@[simp] theorem writeCode_phase (y : Byte) (n : Nat) (c : CodeBits) : (s.writeCode y n c).phase = s.phase := rfl
@[simp] theorem writeCode_fr (y : Byte) (n : Nat) (c : CodeBits) : (s.writeCode y n c).fr = s.fr := rfl
@[simp] theorem writeCode_params (y : Byte) (n : Nat) (c : CodeBits) : (s.writeCode y n c).params = s.params := rfl
@[simp] theorem writeCode_epoch (y : Byte) (n : Nat) (c : CodeBits) : (s.writeCode y n c).epoch = s.epoch := rfl
@[simp] theorem writeCode_port (y : Byte) (n : Nat) (c : CodeBits) : (s.writeCode y n c).port = s.port := rfl
@[simp] theorem writeCode_countAt (y : Byte) (n : Nat) (c : CodeBits) (x : Byte) : (s.writeCode y n c).countAt x = s.countAt x := rfl
@[simp] theorem writeCode_orderAt (y : Byte) (n : Nat) (c : CodeBits) (i : Nat) : (s.writeCode y n c).orderAt i = s.orderAt i := rfl
@[simp] theorem writeCode_nodeAt (y : Byte) (n : Nat) (c : CodeBits) (k : Nat) : (s.writeCode y n c).nodeAt k = s.nodeAt k := rfl
@[simp] theorem writeCode_pkmemAt (y : Byte) (n : Nat) (c : CodeBits) (i : Nat) : (s.writeCode y n c).pkmemAt i = s.pkmemAt i := rfl
@[simp] theorem writeCode_domemAt (y : Byte) (n : Nat) (c : CodeBits) (i : Nat) : (s.writeCode y n c).domemAt i = s.domemAt i := rfl

/-! ## writePkmem -/

@[simp] theorem writePkmem_st (i : Nat) (v : Byte) : (s.writePkmem i v).st = s.st := rfl
@[simp] theorem writePkmem_tb (i : Nat) (v : Byte) : (s.writePkmem i v).tb = s.tb := rfl
@[simp] theorem writePkmem_cg (i : Nat) (v : Byte) : (s.writePkmem i v).cg = s.cg := rfl
@[simp] theorem writePkmem_en_acc (i : Nat) (v : Byte) : (s.writePkmem i v).en.acc = s.en.acc := rfl
@[simp] theorem writePkmem_en_nbits (i : Nat) (v : Byte) : (s.writePkmem i v).en.nbits = s.en.nbits := rfl
@[simp] theorem writePkmem_en_pkmem (i : Nat) (v : Byte) : (s.writePkmem i v).en.pkmem = Mem.write s.params.pkDepth none s.en.pkmem i v := rfl
@[simp] theorem writePkmem_en_pklen (i : Nat) (v : Byte) : (s.writePkmem i v).en.pklen = s.en.pklen := rfl
@[simp] theorem writePkmem_en_pad (i : Nat) (v : Byte) : (s.writePkmem i v).en.pad = s.en.pad := rfl
@[simp] theorem writePkmem_en_pkvalid (i : Nat) (v : Byte) : (s.writePkmem i v).en.pkvalid = s.en.pkvalid := rfl
@[simp] theorem writePkmem_en_enccnt (i : Nat) (v : Byte) : (s.writePkmem i v).en.enccnt = s.en.enccnt := rfl
@[simp] theorem writePkmem_de (i : Nat) (v : Byte) : (s.writePkmem i v).de = s.de := rfl
@[simp] theorem writePkmem_phase (i : Nat) (v : Byte) : (s.writePkmem i v).phase = s.phase := rfl
@[simp] theorem writePkmem_fr (i : Nat) (v : Byte) : (s.writePkmem i v).fr = s.fr := rfl
@[simp] theorem writePkmem_params (i : Nat) (v : Byte) : (s.writePkmem i v).params = s.params := rfl
@[simp] theorem writePkmem_epoch (i : Nat) (v : Byte) : (s.writePkmem i v).epoch = s.epoch := rfl
@[simp] theorem writePkmem_port (i : Nat) (v : Byte) : (s.writePkmem i v).port = s.port := rfl
@[simp] theorem writePkmem_countAt (i : Nat) (v : Byte) (y : Byte) : (s.writePkmem i v).countAt y = s.countAt y := rfl
@[simp] theorem writePkmem_orderAt (i : Nat) (v : Byte) (x : Nat) : (s.writePkmem i v).orderAt x = s.orderAt x := rfl
@[simp] theorem writePkmem_nodeAt (i : Nat) (v : Byte) (k : Nat) : (s.writePkmem i v).nodeAt k = s.nodeAt k := rfl
@[simp] theorem writePkmem_cvalidAt (i : Nat) (v : Byte) (y : Byte) : (s.writePkmem i v).cvalidAt y = s.cvalidAt y := rfl
@[simp] theorem writePkmem_clenAt (i : Nat) (v : Byte) (y : Byte) : (s.writePkmem i v).clenAt y = s.clenAt y := rfl
@[simp] theorem writePkmem_cbitsAt (i : Nat) (v : Byte) (y : Byte) : (s.writePkmem i v).cbitsAt y = s.cbitsAt y := rfl
@[simp] theorem writePkmem_domemAt (i : Nat) (v : Byte) (x : Nat) : (s.writePkmem i v).domemAt x = s.domemAt x := rfl

/-! ## appendPkmem -/

@[simp] theorem appendPkmem_st (v : Byte) : (s.appendPkmem v).st = s.st := rfl
@[simp] theorem appendPkmem_tb (v : Byte) : (s.appendPkmem v).tb = s.tb := rfl
@[simp] theorem appendPkmem_cg (v : Byte) : (s.appendPkmem v).cg = s.cg := rfl
@[simp] theorem appendPkmem_en_acc (v : Byte) : (s.appendPkmem v).en.acc = s.en.acc := rfl
@[simp] theorem appendPkmem_en_nbits (v : Byte) : (s.appendPkmem v).en.nbits = s.en.nbits := rfl
@[simp] theorem appendPkmem_en_pkmem (v : Byte) : (s.appendPkmem v).en.pkmem = Mem.write s.params.pkDepth none s.en.pkmem s.en.pklen v := rfl
@[simp] theorem appendPkmem_en_pklen (v : Byte) : (s.appendPkmem v).en.pklen = s.en.pklen + 1 := rfl
@[simp] theorem appendPkmem_en_pad (v : Byte) : (s.appendPkmem v).en.pad = s.en.pad := rfl
@[simp] theorem appendPkmem_en_pkvalid (v : Byte) : (s.appendPkmem v).en.pkvalid = s.en.pkvalid := rfl
@[simp] theorem appendPkmem_en_enccnt (v : Byte) : (s.appendPkmem v).en.enccnt = s.en.enccnt := rfl
@[simp] theorem appendPkmem_de (v : Byte) : (s.appendPkmem v).de = s.de := rfl
@[simp] theorem appendPkmem_phase (v : Byte) : (s.appendPkmem v).phase = s.phase := rfl
@[simp] theorem appendPkmem_fr (v : Byte) : (s.appendPkmem v).fr = s.fr := rfl
@[simp] theorem appendPkmem_params (v : Byte) : (s.appendPkmem v).params = s.params := rfl
@[simp] theorem appendPkmem_epoch (v : Byte) : (s.appendPkmem v).epoch = s.epoch := rfl
@[simp] theorem appendPkmem_port (v : Byte) : (s.appendPkmem v).port = s.port := rfl
@[simp] theorem appendPkmem_countAt (v : Byte) (y : Byte) : (s.appendPkmem v).countAt y = s.countAt y := rfl
@[simp] theorem appendPkmem_orderAt (v : Byte) (i : Nat) : (s.appendPkmem v).orderAt i = s.orderAt i := rfl
@[simp] theorem appendPkmem_nodeAt (v : Byte) (k : Nat) : (s.appendPkmem v).nodeAt k = s.nodeAt k := rfl
@[simp] theorem appendPkmem_cvalidAt (v : Byte) (y : Byte) : (s.appendPkmem v).cvalidAt y = s.cvalidAt y := rfl
@[simp] theorem appendPkmem_clenAt (v : Byte) (y : Byte) : (s.appendPkmem v).clenAt y = s.clenAt y := rfl
@[simp] theorem appendPkmem_cbitsAt (v : Byte) (y : Byte) : (s.appendPkmem v).cbitsAt y = s.cbitsAt y := rfl
@[simp] theorem appendPkmem_domemAt (v : Byte) (i : Nat) : (s.appendPkmem v).domemAt i = s.domemAt i := rfl

/-! ## writeDomem -/

@[simp] theorem writeDomem_st (i : Nat) (v : Byte) : (s.writeDomem i v).st = s.st := rfl
@[simp] theorem writeDomem_tb (i : Nat) (v : Byte) : (s.writeDomem i v).tb = s.tb := rfl
@[simp] theorem writeDomem_cg (i : Nat) (v : Byte) : (s.writeDomem i v).cg = s.cg := rfl
@[simp] theorem writeDomem_en (i : Nat) (v : Byte) : (s.writeDomem i v).en = s.en := rfl
@[simp] theorem writeDomem_de_hdrv (i : Nat) (v : Byte) : (s.writeDomem i v).de.hdrv = s.de.hdrv := rfl
@[simp] theorem writeDomem_de_dpad (i : Nat) (v : Byte) : (s.writeDomem i v).de.dpad = s.de.dpad := rfl
@[simp] theorem writeDomem_de_hold (i : Nat) (v : Byte) : (s.writeDomem i v).de.hold = s.de.hold := rfl
@[simp] theorem writeDomem_de_holdv (i : Nat) (v : Byte) : (s.writeDomem i v).de.holdv = s.de.holdv := rfl
@[simp] theorem writeDomem_de_dcur (i : Nat) (v : Byte) : (s.writeDomem i v).de.dcur = s.de.dcur := rfl
@[simp] theorem writeDomem_de_dead (i : Nat) (v : Byte) : (s.writeDomem i v).de.dead = s.de.dead := rfl
@[simp] theorem writeDomem_de_domem (i : Nat) (v : Byte) : (s.writeDomem i v).de.domem = Mem.write s.params.doDepth none s.de.domem i v := rfl
@[simp] theorem writeDomem_de_dolen (i : Nat) (v : Byte) : (s.writeDomem i v).de.dolen = s.de.dolen := rfl
@[simp] theorem writeDomem_de_dovalid (i : Nat) (v : Byte) : (s.writeDomem i v).de.dovalid = s.de.dovalid := rfl
@[simp] theorem writeDomem_de_dbytes (i : Nat) (v : Byte) : (s.writeDomem i v).de.dbytes = s.de.dbytes := rfl
@[simp] theorem writeDomem_phase (i : Nat) (v : Byte) : (s.writeDomem i v).phase = s.phase := rfl
@[simp] theorem writeDomem_fr (i : Nat) (v : Byte) : (s.writeDomem i v).fr = s.fr := rfl
@[simp] theorem writeDomem_params (i : Nat) (v : Byte) : (s.writeDomem i v).params = s.params := rfl
@[simp] theorem writeDomem_epoch (i : Nat) (v : Byte) : (s.writeDomem i v).epoch = s.epoch := rfl
@[simp] theorem writeDomem_port (i : Nat) (v : Byte) : (s.writeDomem i v).port = s.port := rfl
@[simp] theorem writeDomem_countAt (i : Nat) (v : Byte) (y : Byte) : (s.writeDomem i v).countAt y = s.countAt y := rfl
@[simp] theorem writeDomem_orderAt (i : Nat) (v : Byte) (x : Nat) : (s.writeDomem i v).orderAt x = s.orderAt x := rfl
@[simp] theorem writeDomem_nodeAt (i : Nat) (v : Byte) (k : Nat) : (s.writeDomem i v).nodeAt k = s.nodeAt k := rfl
@[simp] theorem writeDomem_cvalidAt (i : Nat) (v : Byte) (y : Byte) : (s.writeDomem i v).cvalidAt y = s.cvalidAt y := rfl
@[simp] theorem writeDomem_clenAt (i : Nat) (v : Byte) (y : Byte) : (s.writeDomem i v).clenAt y = s.clenAt y := rfl
@[simp] theorem writeDomem_cbitsAt (i : Nat) (v : Byte) (y : Byte) : (s.writeDomem i v).cbitsAt y = s.cbitsAt y := rfl
@[simp] theorem writeDomem_pkmemAt (i : Nat) (v : Byte) (x : Nat) : (s.writeDomem i v).pkmemAt x = s.pkmemAt x := rfl

/-! ## appendDomem -/

@[simp] theorem appendDomem_st (v : Byte) : (s.appendDomem v).st = s.st := rfl
@[simp] theorem appendDomem_tb (v : Byte) : (s.appendDomem v).tb = s.tb := rfl
@[simp] theorem appendDomem_cg (v : Byte) : (s.appendDomem v).cg = s.cg := rfl
@[simp] theorem appendDomem_en (v : Byte) : (s.appendDomem v).en = s.en := rfl
@[simp] theorem appendDomem_de_hdrv (v : Byte) : (s.appendDomem v).de.hdrv = s.de.hdrv := rfl
@[simp] theorem appendDomem_de_dpad (v : Byte) : (s.appendDomem v).de.dpad = s.de.dpad := rfl
@[simp] theorem appendDomem_de_hold (v : Byte) : (s.appendDomem v).de.hold = s.de.hold := rfl
@[simp] theorem appendDomem_de_holdv (v : Byte) : (s.appendDomem v).de.holdv = s.de.holdv := rfl
@[simp] theorem appendDomem_de_dcur (v : Byte) : (s.appendDomem v).de.dcur = s.de.dcur := rfl
@[simp] theorem appendDomem_de_dead (v : Byte) : (s.appendDomem v).de.dead = s.de.dead := rfl
@[simp] theorem appendDomem_de_domem (v : Byte) : (s.appendDomem v).de.domem = Mem.write s.params.doDepth none s.de.domem s.de.dolen v := rfl
@[simp] theorem appendDomem_de_dolen (v : Byte) : (s.appendDomem v).de.dolen = s.de.dolen + 1 := rfl
@[simp] theorem appendDomem_de_dovalid (v : Byte) : (s.appendDomem v).de.dovalid = s.de.dovalid := rfl
@[simp] theorem appendDomem_de_dbytes (v : Byte) : (s.appendDomem v).de.dbytes = s.de.dbytes := rfl
@[simp] theorem appendDomem_phase (v : Byte) : (s.appendDomem v).phase = s.phase := rfl
@[simp] theorem appendDomem_fr (v : Byte) : (s.appendDomem v).fr = s.fr := rfl
@[simp] theorem appendDomem_params (v : Byte) : (s.appendDomem v).params = s.params := rfl
@[simp] theorem appendDomem_epoch (v : Byte) : (s.appendDomem v).epoch = s.epoch := rfl
@[simp] theorem appendDomem_port (v : Byte) : (s.appendDomem v).port = s.port := rfl
@[simp] theorem appendDomem_countAt (v : Byte) (y : Byte) : (s.appendDomem v).countAt y = s.countAt y := rfl
@[simp] theorem appendDomem_orderAt (v : Byte) (i : Nat) : (s.appendDomem v).orderAt i = s.orderAt i := rfl
@[simp] theorem appendDomem_nodeAt (v : Byte) (k : Nat) : (s.appendDomem v).nodeAt k = s.nodeAt k := rfl
@[simp] theorem appendDomem_cvalidAt (v : Byte) (y : Byte) : (s.appendDomem v).cvalidAt y = s.cvalidAt y := rfl
@[simp] theorem appendDomem_clenAt (v : Byte) (y : Byte) : (s.appendDomem v).clenAt y = s.clenAt y := rfl
@[simp] theorem appendDomem_cbitsAt (v : Byte) (y : Byte) : (s.appendDomem v).cbitsAt y = s.cbitsAt y := rfl
@[simp] theorem appendDomem_pkmemAt (v : Byte) (i : Nat) : (s.appendDomem v).pkmemAt i = s.pkmemAt i := rfl

/-! ## countByte -/

@[simp] theorem countByte_st : s.countByte.st = s.st := rfl
@[simp] theorem countByte_tb : s.countByte.tb = s.tb := rfl
@[simp] theorem countByte_cg : s.countByte.cg = s.cg := rfl
@[simp] theorem countByte_en : s.countByte.en = s.en := rfl
@[simp] theorem countByte_de_hdrv : s.countByte.de.hdrv = s.de.hdrv := rfl
@[simp] theorem countByte_de_dpad : s.countByte.de.dpad = s.de.dpad := rfl
@[simp] theorem countByte_de_hold : s.countByte.de.hold = s.de.hold := rfl
@[simp] theorem countByte_de_holdv : s.countByte.de.holdv = s.de.holdv := rfl
@[simp] theorem countByte_de_dcur : s.countByte.de.dcur = s.de.dcur := rfl
@[simp] theorem countByte_de_dead : s.countByte.de.dead = s.de.dead := rfl
@[simp] theorem countByte_de_domem : s.countByte.de.domem = s.de.domem := rfl
@[simp] theorem countByte_de_dolen : s.countByte.de.dolen = s.de.dolen := rfl
@[simp] theorem countByte_de_dovalid : s.countByte.de.dovalid = s.de.dovalid := rfl
@[simp] theorem countByte_de_dbytes : s.countByte.de.dbytes = s.de.dbytes + 1 := rfl
@[simp] theorem countByte_phase : s.countByte.phase = s.phase := rfl
@[simp] theorem countByte_fr : s.countByte.fr = s.fr := rfl
@[simp] theorem countByte_params : s.countByte.params = s.params := rfl
@[simp] theorem countByte_epoch : s.countByte.epoch = s.epoch := rfl
@[simp] theorem countByte_port : s.countByte.port = s.port := rfl
@[simp] theorem countByte_countAt (y : Byte) : s.countByte.countAt y = s.countAt y := rfl
@[simp] theorem countByte_orderAt (i : Nat) : s.countByte.orderAt i = s.orderAt i := rfl
@[simp] theorem countByte_nodeAt (k : Nat) : s.countByte.nodeAt k = s.nodeAt k := rfl
@[simp] theorem countByte_cvalidAt (y : Byte) : s.countByte.cvalidAt y = s.cvalidAt y := rfl
@[simp] theorem countByte_clenAt (y : Byte) : s.countByte.clenAt y = s.clenAt y := rfl
@[simp] theorem countByte_cbitsAt (y : Byte) : s.countByte.cbitsAt y = s.cbitsAt y := rfl
@[simp] theorem countByte_pkmemAt (i : Nat) : s.countByte.pkmemAt i = s.pkmemAt i := rfl
@[simp] theorem countByte_domemAt (i : Nat) : s.countByte.domemAt i = s.domemAt i := rfl

/-! ## holdByte -/

@[simp] theorem holdByte_st (b : Byte) : (s.holdByte b).st = s.st := rfl
@[simp] theorem holdByte_tb (b : Byte) : (s.holdByte b).tb = s.tb := rfl
@[simp] theorem holdByte_cg (b : Byte) : (s.holdByte b).cg = s.cg := rfl
@[simp] theorem holdByte_en (b : Byte) : (s.holdByte b).en = s.en := rfl
@[simp] theorem holdByte_de_hdrv (b : Byte) : (s.holdByte b).de.hdrv = s.de.hdrv := rfl
@[simp] theorem holdByte_de_dpad (b : Byte) : (s.holdByte b).de.dpad = s.de.dpad := rfl
@[simp] theorem holdByte_de_hold (b : Byte) : (s.holdByte b).de.hold = b := rfl
@[simp] theorem holdByte_de_holdv (b : Byte) : (s.holdByte b).de.holdv = true := rfl
@[simp] theorem holdByte_de_dcur (b : Byte) : (s.holdByte b).de.dcur = s.de.dcur := rfl
@[simp] theorem holdByte_de_dead (b : Byte) : (s.holdByte b).de.dead = s.de.dead := rfl
@[simp] theorem holdByte_de_domem (b : Byte) : (s.holdByte b).de.domem = s.de.domem := rfl
@[simp] theorem holdByte_de_dolen (b : Byte) : (s.holdByte b).de.dolen = s.de.dolen := rfl
@[simp] theorem holdByte_de_dovalid (b : Byte) : (s.holdByte b).de.dovalid = s.de.dovalid := rfl
@[simp] theorem holdByte_de_dbytes (b : Byte) : (s.holdByte b).de.dbytes = s.de.dbytes := rfl
@[simp] theorem holdByte_phase (b : Byte) : (s.holdByte b).phase = s.phase := rfl
@[simp] theorem holdByte_fr (b : Byte) : (s.holdByte b).fr = s.fr := rfl
@[simp] theorem holdByte_params (b : Byte) : (s.holdByte b).params = s.params := rfl
@[simp] theorem holdByte_epoch (b : Byte) : (s.holdByte b).epoch = s.epoch := rfl
@[simp] theorem holdByte_port (b : Byte) : (s.holdByte b).port = s.port := rfl
@[simp] theorem holdByte_countAt (b : Byte) (y : Byte) : (s.holdByte b).countAt y = s.countAt y := rfl
@[simp] theorem holdByte_orderAt (b : Byte) (i : Nat) : (s.holdByte b).orderAt i = s.orderAt i := rfl
@[simp] theorem holdByte_nodeAt (b : Byte) (k : Nat) : (s.holdByte b).nodeAt k = s.nodeAt k := rfl
@[simp] theorem holdByte_cvalidAt (b : Byte) (y : Byte) : (s.holdByte b).cvalidAt y = s.cvalidAt y := rfl
@[simp] theorem holdByte_clenAt (b : Byte) (y : Byte) : (s.holdByte b).clenAt y = s.clenAt y := rfl
@[simp] theorem holdByte_cbitsAt (b : Byte) (y : Byte) : (s.holdByte b).cbitsAt y = s.cbitsAt y := rfl
@[simp] theorem holdByte_pkmemAt (b : Byte) (i : Nat) : (s.holdByte b).pkmemAt i = s.pkmemAt i := rfl
@[simp] theorem holdByte_domemAt (b : Byte) (i : Nat) : (s.holdByte b).domemAt i = s.domemAt i := rfl

/-! ## raiseFault -/

@[simp] theorem raiseFault_st (c : ECode) (low : Byte) : (s.raiseFault c low).st = s.st := rfl
@[simp] theorem raiseFault_tb (c : ECode) (low : Byte) : (s.raiseFault c low).tb = s.tb := rfl
@[simp] theorem raiseFault_cg (c : ECode) (low : Byte) : (s.raiseFault c low).cg = s.cg := rfl
@[simp] theorem raiseFault_en (c : ECode) (low : Byte) : (s.raiseFault c low).en = s.en := rfl
@[simp] theorem raiseFault_de (c : ECode) (low : Byte) : (s.raiseFault c low).de = s.de := rfl
@[simp] theorem raiseFault_phase (c : ECode) (low : Byte) : (s.raiseFault c low).phase = .halt := rfl
@[simp] theorem raiseFault_fr (c : ECode) (low : Byte) : (s.raiseFault c low).fr = { ecode := c, ephase := s.phase, esym := low, eoff := s.offset } := rfl
@[simp] theorem raiseFault_params (c : ECode) (low : Byte) : (s.raiseFault c low).params = s.params := rfl
@[simp] theorem raiseFault_epoch (c : ECode) (low : Byte) : (s.raiseFault c low).epoch = s.epoch := rfl
@[simp] theorem raiseFault_port (c : ECode) (low : Byte) : (s.raiseFault c low).port = s.port := rfl
@[simp] theorem raiseFault_countAt (c : ECode) (low : Byte) (y : Byte) : (s.raiseFault c low).countAt y = s.countAt y := rfl
@[simp] theorem raiseFault_orderAt (c : ECode) (low : Byte) (i : Nat) : (s.raiseFault c low).orderAt i = s.orderAt i := rfl
@[simp] theorem raiseFault_nodeAt (c : ECode) (low : Byte) (k : Nat) : (s.raiseFault c low).nodeAt k = s.nodeAt k := rfl
@[simp] theorem raiseFault_cvalidAt (c : ECode) (low : Byte) (y : Byte) : (s.raiseFault c low).cvalidAt y = s.cvalidAt y := rfl
@[simp] theorem raiseFault_clenAt (c : ECode) (low : Byte) (y : Byte) : (s.raiseFault c low).clenAt y = s.clenAt y := rfl
@[simp] theorem raiseFault_cbitsAt (c : ECode) (low : Byte) (y : Byte) : (s.raiseFault c low).cbitsAt y = s.cbitsAt y := rfl
@[simp] theorem raiseFault_pkmemAt (c : ECode) (low : Byte) (i : Nat) : (s.raiseFault c low).pkmemAt i = s.pkmemAt i := rfl
@[simp] theorem raiseFault_domemAt (c : ECode) (low : Byte) (i : Nat) : (s.raiseFault c low).domemAt i = s.domemAt i := rfl

/-! ## selectRead -/

@[simp] theorem selectRead_st (sp : BitVec 3) (a : Nat) : (s.selectRead sp a).st = s.st := rfl
@[simp] theorem selectRead_tb (sp : BitVec 3) (a : Nat) : (s.selectRead sp a).tb = s.tb := rfl
@[simp] theorem selectRead_cg (sp : BitVec 3) (a : Nat) : (s.selectRead sp a).cg = s.cg := rfl
@[simp] theorem selectRead_en (sp : BitVec 3) (a : Nat) : (s.selectRead sp a).en = s.en := rfl
@[simp] theorem selectRead_de (sp : BitVec 3) (a : Nat) : (s.selectRead sp a).de = s.de := rfl
@[simp] theorem selectRead_phase (sp : BitVec 3) (a : Nat) : (s.selectRead sp a).phase = s.phase := rfl
@[simp] theorem selectRead_fr (sp : BitVec 3) (a : Nat) : (s.selectRead sp a).fr = s.fr := rfl
@[simp] theorem selectRead_params (sp : BitVec 3) (a : Nat) : (s.selectRead sp a).params = s.params := rfl
@[simp] theorem selectRead_epoch (sp : BitVec 3) (a : Nat) : (s.selectRead sp a).epoch = s.epoch := rfl
@[simp] theorem selectRead_port (sp : BitVec 3) (a : Nat) : (s.selectRead sp a).port = { s.port with rdSpace := sp, rdAddr := a % 2 ^ s.params.raW } := rfl
@[simp] theorem selectRead_countAt (sp : BitVec 3) (a : Nat) (y : Byte) : (s.selectRead sp a).countAt y = s.countAt y := rfl
@[simp] theorem selectRead_orderAt (sp : BitVec 3) (a : Nat) (i : Nat) : (s.selectRead sp a).orderAt i = s.orderAt i := rfl
@[simp] theorem selectRead_nodeAt (sp : BitVec 3) (a : Nat) (k : Nat) : (s.selectRead sp a).nodeAt k = s.nodeAt k := rfl
@[simp] theorem selectRead_cvalidAt (sp : BitVec 3) (a : Nat) (y : Byte) : (s.selectRead sp a).cvalidAt y = s.cvalidAt y := rfl
@[simp] theorem selectRead_clenAt (sp : BitVec 3) (a : Nat) (y : Byte) : (s.selectRead sp a).clenAt y = s.clenAt y := rfl
@[simp] theorem selectRead_cbitsAt (sp : BitVec 3) (a : Nat) (y : Byte) : (s.selectRead sp a).cbitsAt y = s.cbitsAt y := rfl
@[simp] theorem selectRead_pkmemAt (sp : BitVec 3) (a : Nat) (i : Nat) : (s.selectRead sp a).pkmemAt i = s.pkmemAt i := rfl
@[simp] theorem selectRead_domemAt (sp : BitVec 3) (a : Nat) (i : Nat) : (s.selectRead sp a).domemAt i = s.domemAt i := rfl

/-! ## takeInput -/

@[simp] theorem takeInput_st (l : List HostInput) : (s.takeInput l).st = s.st := rfl
@[simp] theorem takeInput_tb (l : List HostInput) : (s.takeInput l).tb = s.tb := rfl
@[simp] theorem takeInput_cg (l : List HostInput) : (s.takeInput l).cg = s.cg := rfl
@[simp] theorem takeInput_en (l : List HostInput) : (s.takeInput l).en = s.en := rfl
@[simp] theorem takeInput_de (l : List HostInput) : (s.takeInput l).de = s.de := rfl
@[simp] theorem takeInput_phase (l : List HostInput) : (s.takeInput l).phase = s.phase := rfl
@[simp] theorem takeInput_fr (l : List HostInput) : (s.takeInput l).fr = s.fr := rfl
@[simp] theorem takeInput_params (l : List HostInput) : (s.takeInput l).params = s.params := rfl
@[simp] theorem takeInput_epoch (l : List HostInput) : (s.takeInput l).epoch = s.epoch := rfl
@[simp] theorem takeInput_port (l : List HostInput) : (s.takeInput l).port = { s.port with inputs := l } := rfl
@[simp] theorem takeInput_countAt (l : List HostInput) (y : Byte) : (s.takeInput l).countAt y = s.countAt y := rfl
@[simp] theorem takeInput_orderAt (l : List HostInput) (i : Nat) : (s.takeInput l).orderAt i = s.orderAt i := rfl
@[simp] theorem takeInput_nodeAt (l : List HostInput) (k : Nat) : (s.takeInput l).nodeAt k = s.nodeAt k := rfl
@[simp] theorem takeInput_cvalidAt (l : List HostInput) (y : Byte) : (s.takeInput l).cvalidAt y = s.cvalidAt y := rfl
@[simp] theorem takeInput_clenAt (l : List HostInput) (y : Byte) : (s.takeInput l).clenAt y = s.clenAt y := rfl
@[simp] theorem takeInput_cbitsAt (l : List HostInput) (y : Byte) : (s.takeInput l).cbitsAt y = s.cbitsAt y := rfl
@[simp] theorem takeInput_pkmemAt (l : List HostInput) (i : Nat) : (s.takeInput l).pkmemAt i = s.pkmemAt i := rfl
@[simp] theorem takeInput_domemAt (l : List HostInput) (i : Nat) : (s.takeInput l).domemAt i = s.domemAt i := rfl

/-! ## presentWord -/

@[simp] theorem presentWord_st (w : CmdWord) : (s.presentWord w).st = s.st := rfl
@[simp] theorem presentWord_tb (w : CmdWord) : (s.presentWord w).tb = s.tb := rfl
@[simp] theorem presentWord_cg (w : CmdWord) : (s.presentWord w).cg = s.cg := rfl
@[simp] theorem presentWord_en (w : CmdWord) : (s.presentWord w).en = s.en := rfl
@[simp] theorem presentWord_de (w : CmdWord) : (s.presentWord w).de = s.de := rfl
@[simp] theorem presentWord_phase (w : CmdWord) : (s.presentWord w).phase = s.phase := rfl
@[simp] theorem presentWord_fr (w : CmdWord) : (s.presentWord w).fr = s.fr := rfl
@[simp] theorem presentWord_params (w : CmdWord) : (s.presentWord w).params = s.params := rfl
@[simp] theorem presentWord_epoch (w : CmdWord) : (s.presentWord w).epoch = s.epoch := rfl
@[simp] theorem presentWord_port (w : CmdWord) : (s.presentWord w).port = { s.port with inputs := .command w :: s.port.inputs } := rfl
@[simp] theorem presentWord_countAt (w : CmdWord) (y : Byte) : (s.presentWord w).countAt y = s.countAt y := rfl
@[simp] theorem presentWord_orderAt (w : CmdWord) (i : Nat) : (s.presentWord w).orderAt i = s.orderAt i := rfl
@[simp] theorem presentWord_nodeAt (w : CmdWord) (k : Nat) : (s.presentWord w).nodeAt k = s.nodeAt k := rfl
@[simp] theorem presentWord_cvalidAt (w : CmdWord) (y : Byte) : (s.presentWord w).cvalidAt y = s.cvalidAt y := rfl
@[simp] theorem presentWord_clenAt (w : CmdWord) (y : Byte) : (s.presentWord w).clenAt y = s.clenAt y := rfl
@[simp] theorem presentWord_cbitsAt (w : CmdWord) (y : Byte) : (s.presentWord w).cbitsAt y = s.cbitsAt y := rfl
@[simp] theorem presentWord_pkmemAt (w : CmdWord) (i : Nat) : (s.presentWord w).pkmemAt i = s.pkmemAt i := rfl
@[simp] theorem presentWord_domemAt (w : CmdWord) (i : Nat) : (s.presentWord w).domemAt i = s.domemAt i := rfl

/-! ## clear -/

@[simp] theorem clear_st : s.clear.st = .reset := rfl
@[simp] theorem clear_tb : s.clear.tb = .reset := rfl
@[simp] theorem clear_cg : s.clear.cg = .reset := rfl
@[simp] theorem clear_en : s.clear.en = .reset := rfl
@[simp] theorem clear_de : s.clear.de = .reset := rfl
@[simp] theorem clear_phase : s.clear.phase = .count := rfl
@[simp] theorem clear_fr : s.clear.fr = .reset := rfl
@[simp] theorem clear_params : s.clear.params = s.params := rfl
@[simp] theorem clear_epoch : s.clear.epoch = s.epoch + 1 := rfl
@[simp] theorem clear_port : s.clear.port = s.port := rfl

end Sys2Proof.Machine
end

