-- ==== Sys2Proof/Laws/Frame.lean ====
section
/-!
SUPPORT. What the execution frame of R80 and one step can do: an equation for each case, and one inversion lemma that
says all of them. Later proofs cite these and do not unfold the frame.
-/

namespace Sys2Proof.Machine

variable {s t : State} {i : Instr} {body : State → Performed}

/-- A legal command that completes. -/
theorem perform_done (hl : Instr.legalIn i s.phase = true) (hb : body s = .done t) : s.perform i body = .next t := by
  unfold State.perform
  split
  · next h => exact absurd hl (by cases i <;> simp_all [Instr.legalIn])
  · simp [hb]

/-- A legal command that raises a fault of its own. -/
theorem perform_raise {c : ECode} (hl : Instr.legalIn i s.phase = true) (hb : body s = .raise c) :
    s.perform i body = .next (s.raiseFault c i.imm8) := by
  unfold State.perform
  split
  · next h => exact absurd hl (by cases i <;> simp_all [Instr.legalIn])
  · simp [hb]

/-- A command out of its phase (R187). -/
theorem perform_sequence (hh : s.phase ≠ .halt) (hl : Instr.legalIn i s.phase = false) :
    s.perform i body = .next (s.raiseFault .sequence i.imm8) := by
  unfold State.perform
  rw [if_neg (fun h => hh h.1), if_neg (by simp [hl])]

/-- Any command but CLR while halted (R192). -/
theorem perform_halted (hh : s.phase = .halt) (hc : i ≠ .clr) : s.perform i body = .next s := by
  unfold State.perform
  rw [if_pos ⟨hh, hc⟩]

/-- Everything the frame can do when it answers a next state. -/
theorem perform_next (h : s.perform i body = .next t) :
    (s.phase = .halt ∧ i ≠ .clr ∧ t = s) ∨
    (Instr.legalIn i s.phase = true ∧ body s = .done t) ∨
    (Instr.legalIn i s.phase = true ∧ ∃ c, body s = .raise c ∧ t = s.raiseFault c i.imm8) ∨
    (s.phase ≠ .halt ∧ Instr.legalIn i s.phase = false ∧ t = s.raiseFault .sequence i.imm8) := by
  unfold State.perform at h
  split at h
  · next hh => exact .inl ⟨hh.1, hh.2, by simpa using h.symm⟩
  · next hh =>
    split at h
    · next hl =>
      split at h
      · next u hb => exact .inr (.inl ⟨hl, by simp_all⟩)
      · next c hb => exact .inr (.inr (.inl ⟨hl, c, hb, by simpa using h.symm⟩))
      · cases h
    · next hl =>
      refine .inr (.inr (.inr ⟨?_, by simpa using hl, by simpa using h.symm⟩))
      intro hp
      refine hh ⟨hp, ?_⟩
      rintro rfl
      simp [Instr.legalIn] at hl

/-- The meaning of a command is its pseudocode in the frame of R80. -/
def commandBody : Instr → State → Performed
  | .nop => fun s => .done s
  | .clr => fun s => .done s.clear
  | .sym y => symBody y
  | .build => buildBody
  | .gen => genBody
  | .encbeg => encbegBody
  | .enc y => encBody y
  | .encend => encendBody
  | .decbeg => decbegBody
  | .decb b => decbBody b
  | .decend => decendBody

theorem exec_eq_perform (i : Instr) (s : State) : exec i s = s.perform i (commandBody i) := by cases i <;> rfl

theorem exec_done (hl : Instr.legalIn i s.phase = true) (hb : commandBody i s = .done t) : exec i s = .next t :=
  (exec_eq_perform i s).trans (perform_done hl hb)

theorem exec_raise {c : ECode} (hl : Instr.legalIn i s.phase = true) (hb : commandBody i s = .raise c) :
    exec i s = .next (s.raiseFault c i.imm8) := (exec_eq_perform i s).trans (perform_raise hl hb)

theorem exec_sequence (hh : s.phase ≠ .halt) (hl : Instr.legalIn i s.phase = false) :
    exec i s = .next (s.raiseFault .sequence i.imm8) := (exec_eq_perform i s).trans (perform_sequence hh hl)

theorem exec_halted (hh : s.phase = .halt) (hc : i ≠ .clr) : exec i s = .next s :=
  (exec_eq_perform i s).trans (perform_halted hh hc)

/-- Everything a command can do when it answers a next state. -/
theorem exec_next (h : exec i s = .next t) :
    (s.phase = .halt ∧ i ≠ .clr ∧ t = s) ∨
    (Instr.legalIn i s.phase = true ∧ commandBody i s = .done t) ∨
    (Instr.legalIn i s.phase = true ∧ ∃ c, commandBody i s = .raise c ∧ t = s.raiseFault c i.imm8) ∨
    (s.phase ≠ .halt ∧ Instr.legalIn i s.phase = false ∧ t = s.raiseFault .sequence i.imm8) :=
  perform_next (exec_eq_perform i s ▸ h)

/-- The four ways one step answers a next state (R223). -/
theorem step_next (h : step s = .next t) :
    (s.port.inputs = [] ∧ t = s) ∨
    (∃ w rest, s.port.inputs = .command w :: rest ∧ executeWord w (s.takeInput rest) = .next t) ∨
    (∃ sp a rest, s.port.inputs = .read sp a :: rest ∧ t = (s.takeInput rest).selectRead sp a) ∨
    (∃ rest, s.port.inputs = .reset :: rest ∧ t = (s.takeInput rest).clear) := by
  unfold step at h
  split at h
  · next hi => exact .inl ⟨hi, by simpa using h.symm⟩
  · next w rest hi => exact .inr (.inl ⟨w, rest, hi, h⟩)
  · next sp a rest hi => exact .inr (.inr (.inl ⟨sp, a, rest, hi, by simpa using h.symm⟩))
  · next rest hi => exact .inr (.inr (.inr ⟨rest, hi, by simpa using h.symm⟩))

/-- What an accepted word does: its command, or the rejection of R64. -/
theorem executeWord_next {w : CmdWord} (h : executeWord w s = .next t) :
    (∃ i, decode w = .ok i ∧ exec i s = .next t) ∨ (∃ e, decode w = .error e ∧ t = s.rejectWord w) := by
  unfold executeWord at h
  split at h
  · next i hd => exact .inl ⟨i, hd, h⟩
  · next e hd => exact .inr ⟨e, hd, by simpa using h.symm⟩

end Sys2Proof.Machine
end

