-- ==== Sys2Proof/Laws/TreeBuilder.lean ====
section
/-!
SUPPORT. What BUILD does (R100 to R107): the key is a strict total order, Insert keeps a list sorted, and the merge loop
keeps the invariant from which the shape of the tree (R106, R108) follows.
-/

namespace Sys2Proof.Machine

variable {s t : State}

/-! ## The key (R103) and Insert (R104) -/

theorem keyLt_iff (s : State) (j k : Nat) : s.keyLt j k = true ↔
    (s.nodeAt j).weight < (s.nodeAt k).weight ∨ ((s.nodeAt j).weight = (s.nodeAt k).weight ∧ j < k) := by
  simp [State.keyLt]

theorem keyLt_trans {i j k : Nat} (h : s.keyLt i j = true) (h' : s.keyLt j k = true) : s.keyLt i k = true := by
  rw [keyLt_iff] at *; omega

theorem keyLt_total {j k : Nat} (h : j ≠ k) (h' : ¬ s.keyLt j k = true) : s.keyLt k j = true := by
  rw [keyLt_iff] at *; omega

theorem keyLt_irrefl (k : Nat) : ¬ s.keyLt k k = true := by
  rw [keyLt_iff]; omega

theorem insertKey_perm (s : State) (w : List Nat) (k : Nat) : (s.insertKey w k).Perm (k :: w) := by
  unfold State.insertKey
  refine List.perm_middle.trans ?_
  rw [List.take_append_drop]

theorem insertKey_nil (s : State) (k : Nat) : s.insertKey [] k = [k] := rfl

theorem insertKey_cons (s : State) {a : Nat} {w : List Nat} (hw : s.Sorted (a :: w)) (k : Nat) :
    s.insertKey (a :: w) k = if s.keyLt a k then a :: s.insertKey w k else k :: a :: w := by
  have hw' := List.pairwise_cons.1 hw
  unfold State.insertKey
  by_cases h : s.keyLt a k = true
  · simp [h]
  · have h0 : w.countP (fun j => s.keyLt j k) = 0 := List.countP_eq_zero.2 fun j hj hjk =>
      h (keyLt_trans (hw'.1 j hj) hjk)
    simp [h, h0]

/-- Insert keeps a sorted list sorted (R104). -/
theorem insertKey_sorted {w : List Nat} (hw : s.Sorted w) {k : Nat} (hk : k ∉ w) :
    s.Sorted (s.insertKey w k) := by
  induction w with
  | nil => simp [insertKey_nil, State.Sorted]
  | cons a w ih =>
    have hw' := List.pairwise_cons.1 hw
    have hka : k ≠ a := fun h => hk (h ▸ List.mem_cons_self)
    rw [insertKey_cons s hw k]
    split
    · next h =>
      refine List.pairwise_cons.2 ⟨fun j hj => ?_, ih hw'.2 fun h => hk (List.mem_cons_of_mem _ h)⟩
      rcases List.mem_cons.1 ((insertKey_perm s w k).mem_iff.1 hj) with rfl | hj
      · exact h
      · exact hw'.1 j hj
    · next h =>
      have hlt := keyLt_total (Ne.symm hka) h
      refine List.pairwise_cons.2 ⟨fun j hj => ?_, hw⟩
      rcases List.mem_cons.1 hj with rfl | hj
      · exact hlt
      · exact keyLt_trans hlt (hw'.1 j hj)

theorem sortKeys_aux (s : State) (w acc : List Nat) (hs : s.Sorted acc) (hn : (acc ++ w).Nodup) :
    s.Sorted (w.foldl s.insertKey acc) ∧ (w.foldl s.insertKey acc).Perm (acc ++ w) := by
  induction w generalizing acc with
  | nil => simpa using hs
  | cons a w ih =>
    have hp : (s.insertKey acc a ++ w).Perm (acc ++ a :: w) :=
      ((insertKey_perm s acc a).append_right w).trans (by simpa using List.perm_middle.symm)
    have ha : a ∉ acc := fun h => (List.nodup_append.1 hn).2.2 a h a List.mem_cons_self rfl
    obtain ⟨h1, h2⟩ := ih _ (insertKey_sorted hs ha) (hp.nodup_iff.2 hn)
    exact ⟨h1, h2.trans hp⟩

/-- Sort gives the arrangement with strictly ascending keys (R102). -/
theorem sortKeys_spec (s : State) {w : List Nat} (hw : w.Nodup) :
    s.Sorted (s.sortKeys w) ∧ (s.sortKeys w).Perm w := by
  have := sortKeys_aux s w [] List.Pairwise.nil (by simpa using hw)
  rwa [List.nil_append] at this

/-! ## Reading NODE after a write -/

theorem nodeAt_writeNode_self {k : Nat} (h : k < nodeMax) (v : Node) : (s.writeNode k v).nodeAt k = v := by
  simp [State.nodeAt, find_write_self h]

theorem nodeAt_writeNode_of_ne {k j : Nat} (h : j ≠ k) (v : Node) : (s.writeNode k v).nodeAt j = s.nodeAt j := by
  simp [State.nodeAt, find_write_of_ne _ _ _ h]

@[simp] theorem keyLt_setWork (w : List Nat) : (s.setWork w).keyLt = s.keyLt := rfl

theorem keyLt_congr {j k : Nat} (hj : t.nodeAt j = s.nodeAt j) (hk : t.nodeAt k = s.nodeAt k) :
    t.keyLt j k = s.keyLt j k := by simp [State.keyLt, hj, hk]

theorem sorted_congr {w : List Nat} (h : ∀ j ∈ w, t.nodeAt j = s.nodeAt j) (hw : s.Sorted w) : t.Sorted w :=
  hw.imp_of_mem fun ha hb hab => by rw [keyLt_congr (h _ ha) (h _ hb)]; exact hab

/-! ## The leaves (R101) -/

/-- The leaf of the symbol at position i of ORDER (R101). -/
def State.leafFor (s : State) (i : Nat) : Node :=
  { leaf := true, weight := s.countAt (s.orderAt i), sym := s.orderAt i, left := 0, right := 0 }

/-- What Leaves(n) leaves alone, and what it writes in an empty NODE (R101). -/
theorem leaves_eq (s : State) (hs : s.tb.node = []) {n : Nat} (hn : n ≤ nodeMax) :
    s.leaves n = { s with tb := { s.tb with node := (List.range n).map fun i => (i, s.leafFor i) } } := by
  induction n with
  | zero => simp [State.leaves, ← hs]
  | succ n ih =>
    have hstep : s.leaves (n + 1) = (s.leaves n).writeNode n ((s.leaves n).leafFor n) := by
      simp [State.leaves, List.range_succ, State.leafFor]
    rw [hstep, ih (by omega)]
    simp only [State.writeNode]
    rw [write_append (n := n) (by simp [Function.comp_def]) (show n < nodeMax by omega)]
    simp [List.range_succ]
    rfl

/-! ## The merge loop (R104, R105) -/

/-- The invariant of the loop of R100 when `next` is m: nodes 0, ..., m-1 are written, WORK is sorted and holds exactly
the nodes that are no child yet, and every merge so far took the two lowest keys. -/
structure MergeInv (s : State) (n m : Nat) : Prop where
  n_le : n ≤ m
  listed : s.tb.node.map Prod.fst = List.range m
  leaf_eq : ∀ i, i < n → s.nodeAt i = s.leafFor i
  inner : ∀ k, n ≤ k → k < m → (s.nodeAt k).leaf = false ∧ (s.nodeAt k).sym = 0 ∧ (s.nodeAt k).left < k ∧
    (s.nodeAt k).right < k ∧
    (s.nodeAt k).weight = (s.nodeAt (s.nodeAt k).left).weight + (s.nodeAt (s.nodeAt k).right).weight
  sorted : s.Sorted s.tb.work
  length_eq : s.tb.work.length + m = 2 * n
  owned : (s.tb.work ++ s.childrenUpTo n m).Perm (List.range m)
  greedy : ∀ k, n ≤ k → k < m → s.keyLt (s.nodeAt k).left (s.nodeAt k).right = true ∧
    ∀ j, j < k → j ∉ s.childrenUpTo n k → j ≠ (s.nodeAt k).left → j ≠ (s.nodeAt k).right →
      s.keyLt (s.nodeAt k).right j = true

theorem childrenUpTo_congr {n m : Nat} (h : ∀ k, n ≤ k → k < m → t.nodeAt k = s.nodeAt k) :
    t.childrenUpTo n m = s.childrenUpTo n m := by
  unfold State.childrenUpTo
  rw [List.flatMap_def, List.flatMap_def]
  congr 1
  refine List.map_congr_left fun k hk => ?_
  simp only [List.mem_range'_1] at hk
  rw [h k hk.1 (by omega)]

theorem childrenUpTo_succ (s : State) {n m : Nat} (h : n ≤ m) :
    s.childrenUpTo n (m + 1) = s.childrenUpTo n m ++ [(s.nodeAt m).left, (s.nodeAt m).right] := by
  unfold State.childrenUpTo
  rw [show m + 1 - n = (m - n) + 1 by omega, List.range'_concat, List.flatMap_append]
  simp [show n + (m - n) = m by omega]

/-- One merge keeps the invariant of the loop (R104). -/
theorem merge_inv {n m : Nat} (h : MergeInv s n m) (hm : m < nodeMax) (hw : 2 ≤ s.tb.work.length) :
    MergeInv (s.merge m) n (m + 1) := by
  obtain ⟨lo, hi, rest, hwork⟩ : ∃ lo hi rest, s.tb.work = lo :: hi :: rest := by
    match hs : s.tb.work, hw with
    | lo :: hi :: rest, _ => exact ⟨lo, hi, rest, rfl⟩
  have howned := h.owned
  have hsorted := h.sorted
  have hlen := h.length_eq
  rw [hwork] at howned hsorted hlen
  have hmem : ∀ j, j ∈ lo :: hi :: rest → j < m := fun j hj =>
    List.mem_range.1 (howned.mem_iff.1 (List.mem_append_left _ hj))
  have hlo := hmem lo (by simp)
  have hhi := hmem hi (by simp)
  obtain ⟨hlo1, hs1⟩ := List.pairwise_cons.1 hsorted
  obtain ⟨hhi1, hs2⟩ := List.pairwise_cons.1 hs1
  have hlohi : s.keyLt lo hi = true := hlo1 hi (by simp)
  -- the new node, and the state after the write
  let nd : Node := { leaf := false, weight := (s.nodeAt lo).weight + (s.nodeAt hi).weight, sym := 0, left := lo, right := hi }
  let u := s.writeNode m nd
  have hu : s.merge m = u.setWork (u.insertKey rest m) := by simp only [State.merge, hwork, u, nd]
  have hat : ∀ j, j < m → u.nodeAt j = s.nodeAt j := fun j hj => nodeAt_writeNode_of_ne (by omega) _
  have hatm : u.nodeAt m = nd := nodeAt_writeNode_self hm _
  have hk : ∀ i j, i < m → j < m → u.keyLt i j = s.keyLt i j := fun i j hi hj => keyLt_congr (hat i hi) (hat j hj)
  have hmrest : m ∉ rest := fun hx => by have := hmem m (by simp [hx]); omega
  have hch : u.childrenUpTo n m = s.childrenUpTo n m := childrenUpTo_congr fun k _ hk => hat k hk
  have hchk : ∀ k, k ≤ m → u.childrenUpTo n k = s.childrenUpTo n k := fun k hk =>
    childrenUpTo_congr fun j _ hj => hat j (by omega)
  have hsrt : u.Sorted rest := sorted_congr (fun j hj => hat j (hmem j (by simp [hj]))) hs2
  have hchu : u.childrenUpTo n (m + 1) = s.childrenUpTo n m ++ [lo, hi] := by
    rw [childrenUpTo_succ _ h.n_le, hch, hatm]
  rw [hu]
  refine ⟨Nat.le_succ_of_le h.n_le, ?_, ?_, ?_, ?_, ?_, ?_, ?_⟩
  · show (Mem.write nodeMax none s.tb.node m nd).map Prod.fst = _
    rw [write_append h.listed hm]
    exact listed_append h.listed _
  · intro i hi
    have := h.leaf_eq i hi
    show u.nodeAt i = s.leafFor i
    rw [hat i (by have := h.n_le; omega), this]
  · intro k hnk hkm
    show (u.nodeAt k).leaf = false ∧ (u.nodeAt k).sym = 0 ∧ (u.nodeAt k).left < k ∧ (u.nodeAt k).right < k ∧
      (u.nodeAt k).weight = (u.nodeAt (u.nodeAt k).left).weight + (u.nodeAt (u.nodeAt k).right).weight
    rcases Nat.lt_succ_iff_lt_or_eq.1 hkm with hkm | rfl
    · have := h.inner k hnk hkm
      rw [hat k hkm, hat _ (by omega), hat _ (by omega)]
      exact this
    · rw [hatm]
      exact ⟨rfl, rfl, hlo, hhi, by rw [hat _ hlo, hat _ hhi]⟩
  · exact insertKey_sorted hsrt hmrest
  · have := (insertKey_perm u rest m).length_eq
    show (u.insertKey rest m).length + (m + 1) = 2 * n
    simp only [List.length_cons] at this hlen
    omega
  · show (u.insertKey rest m ++ u.childrenUpTo n (m + 1)).Perm _
    rw [hchu, List.range_succ]
    refine ((insertKey_perm u rest m).append_right _).trans ?_
    have h1 : (m :: rest ++ (s.childrenUpTo n m ++ [lo, hi])).Perm
        ((lo :: hi :: rest ++ s.childrenUpTo n m) ++ [m]) := by
      have : ∀ a : Nat, (m :: rest ++ (s.childrenUpTo n m ++ [lo, hi])).count a =
          ((lo :: hi :: rest ++ s.childrenUpTo n m) ++ [m]).count a := by
        intro a
        simp only [List.count_append, List.count_cons, List.cons_append, List.count_nil]
        omega
      exact List.perm_iff_count.2 this
    exact h1.trans (howned.append_right _)
  · intro k hnk hkm
    show u.keyLt (u.nodeAt k).left (u.nodeAt k).right = true ∧ ∀ j, j < k → j ∉ u.childrenUpTo n k →
      j ≠ (u.nodeAt k).left → j ≠ (u.nodeAt k).right → u.keyLt (u.nodeAt k).right j = true
    rcases Nat.lt_succ_iff_lt_or_eq.1 hkm with hkm | rfl
    · have hin := h.inner k hnk hkm
      obtain ⟨g1, g2⟩ := h.greedy k hnk hkm
      rw [hat k hkm, hchk k hkm.le, hk _ _ (by omega) (by omega)]
      exact ⟨g1, fun j hj hjc hjl hjr => by rw [hk _ _ (by omega) (by omega)]; exact g2 j hj hjc hjl hjr⟩
    · rw [hatm, hchk k le_rfl]
      refine ⟨by rw [hk _ _ hlo hhi]; exact hlohi, fun j hj hjc hjl hjr => ?_⟩
      rw [hk _ _ hhi hj]
      have : j ∈ lo :: hi :: rest ++ s.childrenUpTo n k := howned.mem_iff.2 (List.mem_range.2 hj)
      have hjrest : j ∈ rest := by
        rcases List.mem_append.1 this with hx | hx
        · simpa [show j ≠ lo from hjl, show j ≠ hi from hjr] using hx
        · exact absurd hx hjc
      exact hhi1 j hjrest

/-- A merge changes NODE and WORK only. -/
theorem merge_frame (s : State) (m : Nat) :
    s.merge m = { s with tb := { s.tb with node := (s.merge m).tb.node, work := (s.merge m).tb.work } } := by
  unfold State.merge
  split <;> rfl

theorem mergeTimes_frame (k : Nat) (s : State) (m : Nat) :
    (State.mergeTimes k s m).1 =
      { s with tb := { s.tb with
          node := (State.mergeTimes k s m).1.tb.node
          work := (State.mergeTimes k s m).1.tb.work } } := by
  induction k generalizing s m with
  | zero => rfl
  | succ k ih => rw [State.mergeTimes, ih, merge_frame s m]

/-- The loop runs k merges and keeps the invariant (R105). -/
theorem mergeTimes_inv {n : Nat} (k : Nat) {s : State} {m : Nat} (h : MergeInv s n m) (hk : m + k ≤ nodeMax)
    (hw : k + 1 ≤ s.tb.work.length) :
    MergeInv (State.mergeTimes k s m).1 n (m + k) ∧ (State.mergeTimes k s m).2 = m + k := by
  induction k generalizing s m with
  | zero => exact ⟨h, rfl⟩
  | succ k ih =>
    have h' := merge_inv h (show m < nodeMax by omega) (by omega)
    have hl := h'.length_eq
    have hl' := h.length_eq
    obtain ⟨h1, h2⟩ := ih h' (by omega) (by omega)
    rw [State.mergeTimes, show m + (k + 1) = m + 1 + k by omega]
    exact ⟨h1, h2⟩

/-- The invariant holds when the loop begins: the leaves are written and WORK is sorted (R101, R102). -/
theorem mergeInv_start (s : State) (hs : s.tb.node = []) {n : Nat} (hn : n ≤ nodeMax) :
    MergeInv ((s.leaves n).setWork ((s.leaves n).sortKeys (List.range n))) n n := by
  obtain ⟨hsort, hperm⟩ := sortKeys_spec (s.leaves n) (List.nodup_range (n := n))
  have hnode : (s.leaves n).tb.node = (List.range n).map fun i => (i, s.leafFor i) := by rw [leaves_eq s hs hn]
  have hlist : (s.leaves n).tb.node.map Prod.fst = List.range n := by simp [hnode, Function.comp_def]
  refine ⟨le_rfl, hlist, ?_, fun k h1 h2 => absurd h2 (by omega), hsort, ?_, ?_, fun k h1 h2 => absurd h2 (by omega)⟩
  · intro i hi
    have h2 : ((s.leaves n).setWork ((s.leaves n).sortKeys (List.range n))).leafFor i = s.leafFor i := by
      rw [leaves_eq s hs hn]; rfl
    have h1 : (s.leaves n).nodeAt i = s.leafFor i := by
      rw [State.nodeAt, find_of_listed hlist, hnode]
      simp [hi]
    rw [h2, setWork_nodeAt, h1]
  · have := hperm.length_eq
    simp only [List.length_range] at this
    show ((s.leaves n).sortKeys (List.range n)).length + n = 2 * n
    omega
  · have : ((s.leaves n).setWork ((s.leaves n).sortKeys (List.range n))).childrenUpTo n n = [] := by
      simp [State.childrenUpTo]
    rw [this, List.append_nil]
    exact hperm

/-- BUILD of a non-empty SymbolTable completes, and leaves the tree of R106 (R100). -/
theorem buildBody_spec (hs : s.st.nsym ≤ alpha) (ht : s.tb = .reset) (hn : 1 ≤ s.st.nsym) :
    ∃ t, buildBody s = .done t ∧ t = { s with tb := t.tb, phase := .tree } ∧ t.tb.work = [] ∧ TreeShape t ∧
      t.GreedyMerges := by
  have hnode : s.tb.node = [] := by rw [ht]; rfl
  have hn511 : s.st.nsym ≤ nodeMax := by simp only [alpha, nodeMax] at *; omega
  have hstart := mergeInv_start s hnode hn511
  set n := s.st.nsym with hndef
  set u := (s.leaves n).setWork ((s.leaves n).sortKeys (List.range n)) with hu
  have hlen : u.tb.work.length = n := by have := hstart.length_eq; omega
  obtain ⟨hinv, hnext⟩ := mergeTimes_inv (u.tb.work.length - 1) hstart
    (by simp only [alpha, nodeMax] at *; omega) (by omega)
  have hframe := mergeTimes_frame (u.tb.work.length - 1) u n
  set v := (State.mergeTimes (u.tb.work.length - 1) u n).1 with hv
  have hus : u = { s with tb := u.tb } := by rw [hu, leaves_eq s hnode hn511]; rfl
  have hvs : v = { s with tb := v.tb } := by rw [hframe, hus]
  have hm : n + (u.tb.work.length - 1) = 2 * n - 1 := by omega
  rw [hm] at hinv hnext
  obtain ⟨r, hr⟩ : ∃ r, v.tb.work = [r] := by
    have := hinv.length_eq
    exact List.length_eq_one_iff.1 (by omega)
  have howned := hinv.owned
  rw [hr] at howned
  have hmemch : ∀ j, j ∈ v.childrenUpTo n (2 * n - 1) → j < 2 * n - 2 := by
    intro j hj
    simp only [State.childrenUpTo, List.mem_flatMap, List.mem_range'_1] at hj
    obtain ⟨k, hk, hjk⟩ := hj
    have := hinv.inner k hk.1 (by omega)
    have : j = (v.nodeAt k).left ∨ j = (v.nodeAt k).right := by simpa using hjk
    omega
  have hroot : r = 2 * n - 2 := by
    have : 2 * n - 2 ∈ [r] ++ v.childrenUpTo n (2 * n - 1) := howned.mem_iff.2 (List.mem_range.2 (by omega))
    rcases List.mem_append.1 this with h | h
    · exact (List.mem_singleton.1 h).symm
    · exact absurd (hmemch _ h) (by omega)
  let t : State := { v with tb := { v.tb with root := v.tb.work.headD 0, nnode := 2 * n - 1, work := [] }, phase := .tree }
  have htv : ∀ k, t.nodeAt k = v.nodeAt k := fun k => rfl
  have hst : t.st = s.st := by show v.st = s.st; rw [hvs]
  refine ⟨t, ?_, ?_, rfl, ?_, ?_⟩
  · unfold buildBody
    rw [if_neg (by omega)]
    show Performed.done _ = Performed.done _
    simp only [t, ← hnext, hv, hu, ← hndef]
  · show ({ v with tb := _, phase := _ } : State) = _
    rw [hvs]
  · refine ⟨by rw [hst]; exact hn, by rw [hst], by rw [hst]; simp [t, hr, hroot, ← hndef], ?_, ?_, ?_, ?_⟩
    · exact hinv.listed
    · intro i hi
      rw [hst] at hi
      exact hinv.leaf_eq i hi
    · intro k hk1 hk2
      rw [hst] at hk1
      exact hinv.inner k hk1 hk2
    · have hch : t.children = v.childrenUpTo n (2 * n - 1) := by
        unfold State.children State.childrenUpTo
        rw [hst, ← hndef, show 2 * n - 1 - n = n - 1 by omega]
        rfl
      have hr' : t.tb.root = r := by simp [t, hr]
      rw [hch, hr', hroot]
      have h2 : List.range (2 * n - 1) = List.range (2 * n - 2) ++ [2 * n - 2] := by
        rw [← List.range_succ]; congr 1; omega
      rw [h2, hroot] at howned
      exact (List.perm_cons (2 * n - 2)).1 (howned.trans List.perm_append_comm)
  · intro k hk1 hk2
    rw [hst] at hk1 ⊢
    exact hinv.greedy k hk1 hk2

theorem buildBody_empty (h : s.st.nsym = 0) : buildBody s = .raise .emptyInput := by
  simp [buildBody, h]

end Sys2Proof.Machine
end

