-- ==== Sys2Proof/Laws/CodeBook.lean ====
section
/-!
SUPPORT. What GEN does (R120 to R126): in a tree of the shape of R106 the traversal ends, meets every leaf exactly once,
and records for each symbol the path to its leaf.
-/

namespace Sys2Proof.Machine

variable {s t : State}

/-! ## The leaves below a node -/

/-- The leaves below node k with the path from k to each (R121). -/
def State.below (s : State) : Nat → Nat → List (Nat × BitString)
  | 0, _ => []
  | fuel + 1, k =>
    if (s.nodeAt k).leaf then [(k, [])]
    else (s.below fuel (s.nodeAt k).left).map (fun e => (e.1, false :: e.2)) ++
      (s.below fuel (s.nodeAt k).right).map (fun e => (e.1, true :: e.2))

theorem TreeShape.leaf_iff (ht : TreeShape s) {k : Nat} (hk : k < s.tb.nnode) :
    (s.nodeAt k).leaf = true ↔ k < s.st.nsym := by
  by_cases h : k < s.st.nsym
  · simp [ht.leaf_eq k h, h]
  · simp [(ht.inner k (by omega) hk).1, h]

theorem TreeShape.child_lt (ht : TreeShape s) {k : Nat} (hk : k < s.tb.nnode) (hn : s.st.nsym ≤ k) (b : Bool) :
    (s.nodeAt k).child b < k := by
  have := ht.inner k hn hk
  cases b <;> simp [Node.child] <;> omega

/-- The traversal of R121 gives the leaves below its node, as soon as its fuel exceeds the node's index. -/
theorem leafPaths_eq (ht : TreeShape s) (fuel : Nat) {k : Nat} (hk : k < s.tb.nnode) (hf : k < fuel)
    (path : BitString) :
    s.leafPaths fuel k path = some ((s.below fuel k).map fun e => ((s.nodeAt e.1).sym, path ++ e.2)) := by
  induction fuel generalizing k path with
  | zero => omega
  | succ fuel ih =>
    simp only [State.leafPaths, State.below]
    by_cases hl : (s.nodeAt k).leaf = true
    · simp [hl]
    · have hn : s.st.nsym ≤ k := by
        by_contra h
        exact hl ((ht.leaf_iff hk).2 (by omega))
      have hL := ht.child_lt hk hn false
      have hR := ht.child_lt hk hn true
      simp only [Node.child] at hL hR
      simp only [Bool.false_eq_true, if_false, if_true] at hL hR
      rw [ih (by omega) (by omega), ih (by omega) (by omega)]
      simp [hl, Function.comp_def]

theorem below_follow (s : State) (fuel : Nat) {k j : Nat} {q : BitString} (h : (j, q) ∈ s.below fuel k) :
    s.follow k q = some j ∧ (s.nodeAt j).leaf = true := by
  induction fuel generalizing k q with
  | zero => simp [State.below] at h
  | succ fuel ih =>
    simp only [State.below] at h
    split at h
    · next hl =>
      obtain ⟨rfl, rfl⟩ : j = k ∧ q = [] := by simpa using h
      exact ⟨rfl, hl⟩
    · next hl =>
      simp only [List.mem_append, List.mem_map, Prod.mk.injEq] at h
      rcases h with ⟨⟨j', q'⟩, hm, rfl, rfl⟩ | ⟨⟨j', q'⟩, hm, rfl, rfl⟩ <;>
        simpa [State.follow, hl, Node.child] using ih hm

/-- A path down from an internal node k is no longer than the number of internal nodes up to k (R126). -/
theorem below_length (ht : TreeShape s) (fuel : Nat) {k j : Nat} {q : BitString} (hk : k < s.tb.nnode)
    (h : (j, q) ∈ s.below fuel k) : q.length ≤ k + 1 - s.st.nsym ∧ j < s.st.nsym := by
  induction fuel generalizing k q with
  | zero => simp [State.below] at h
  | succ fuel ih =>
    simp only [State.below] at h
    split at h
    · next hl =>
      obtain ⟨rfl, rfl⟩ : j = k ∧ q = [] := by simpa using h
      exact ⟨by simp, (ht.leaf_iff hk).1 hl⟩
    · next hl =>
      have hn : s.st.nsym ≤ k := by
        by_contra hx
        exact hl ((ht.leaf_iff hk).2 (by omega))
      have hL := ht.child_lt hk hn false
      have hR := ht.child_lt hk hn true
      simp only [Node.child, Bool.false_eq_true, if_false, if_true] at hL hR
      simp only [List.mem_append, List.mem_map, Prod.mk.injEq] at h
      rcases h with ⟨⟨j', q'⟩, hm, rfl, rfl⟩ | ⟨⟨j', q'⟩, hm, rfl, rfl⟩
      · have := ih (by omega) hm
        simp only [List.length_cons]
        omega
      · have := ih (by omega) hm
        simp only [List.length_cons]
        omega

/-- The sum of 2^(M - length) over the paths below a node is 2^M (R126). -/
theorem below_kraft (ht : TreeShape s) (fuel : Nat) {k M : Nat} (hk : k < s.tb.nnode) (hf : k < fuel)
    (hM : k + 1 - s.st.nsym ≤ M) : ((s.below fuel k).map fun e => 2 ^ (M - e.2.length)).sum = 2 ^ M := by
  induction fuel generalizing k M with
  | zero => omega
  | succ fuel ih =>
    simp only [State.below]
    split
    · simp
    · next hl =>
      have hn : s.st.nsym ≤ k := by
        by_contra hx
        exact hl ((ht.leaf_iff hk).2 (by omega))
      have hL := ht.child_lt hk hn false
      have hR := ht.child_lt hk hn true
      simp only [Node.child, Bool.false_eq_true, if_false, if_true] at hL hR
      obtain ⟨M, rfl⟩ : ∃ M', M = M' + 1 := ⟨M - 1, by omega⟩
      have h1 := ih (k := (s.nodeAt k).left) (M := M) (by omega) (by omega) (by omega)
      have h2 := ih (k := (s.nodeAt k).right) (M := M) (by omega) (by omega) (by omega)
      simp only [List.map_append, List.map_map, Function.comp_def, List.length_cons, Nat.add_sub_add_right,
        List.sum_append, h1, h2]
      ring

/-- The leaves below a node do not depend on the fuel. -/
theorem below_fuel (ht : TreeShape s) (f g : Nat) {k : Nat} (hk : k < s.tb.nnode) (hf : k < f) (hg : k < g) :
    s.below f k = s.below g k := by
  induction f generalizing g k with
  | zero => omega
  | succ f ih =>
    obtain ⟨g, rfl⟩ : ∃ g', g = g' + 1 := ⟨g - 1, by omega⟩
    simp only [State.below]
    split
    · rfl
    · next hl =>
      have hn : s.st.nsym ≤ k := by
        by_contra hx
        exact hl ((ht.leaf_iff hk).2 (by omega))
      have hL := ht.child_lt hk hn false
      have hR := ht.child_lt hk hn true
      simp only [Node.child, Bool.false_eq_true, if_false, if_true] at hL hR
      rw [ih g (by omega) (by omega) (by omega), ih g (by omega) (by omega) (by omega)]

/-- The leaf indexes below a node, with enough fuel. -/
def State.leavesBelow (s : State) (k : Nat) : List Nat := (s.below (k + 1) k).map Prod.fst

theorem leavesBelow_leaf (ht : TreeShape s) {k : Nat} (hk : k < s.st.nsym) : s.leavesBelow k = [k] := by
  simp [State.leavesBelow, State.below, ht.leaf_eq k hk]

theorem leavesBelow_inner (ht : TreeShape s) {k : Nat} (hk : k < s.tb.nnode) (hn : s.st.nsym ≤ k) :
    s.leavesBelow k = s.leavesBelow (s.nodeAt k).left ++ s.leavesBelow (s.nodeAt k).right := by
  have hin := ht.inner k hn hk
  rw [State.leavesBelow, State.below, if_neg (by simp [hin.1]), List.map_append, List.map_map, List.map_map,
    below_fuel ht k ((s.nodeAt k).left + 1) (by omega) (by omega) (by omega),
    below_fuel ht k ((s.nodeAt k).right + 1) (by omega) (by omega) (by omega)]
  rfl

/-- Expanding the nodes that are no child of 0, ..., m-1 gives every leaf exactly once. -/
theorem leavesBelow_frontier (ht : TreeShape s) (m : Nat) (hm : s.st.nsym + m ≤ s.tb.nnode) (l : List Nat)
    (hl : (l ++ s.childrenUpTo s.st.nsym (s.st.nsym + m)).Perm (List.range (s.st.nsym + m))) :
    (l.flatMap s.leavesBelow).Perm (List.range s.st.nsym) := by
  induction m generalizing l with
  | zero =>
    have : s.childrenUpTo s.st.nsym (s.st.nsym + 0) = [] := by simp [State.childrenUpTo]
    rw [this, List.append_nil, Nat.add_zero] at hl
    have h1 : (List.range s.st.nsym).flatMap s.leavesBelow = List.range s.st.nsym := by
      rw [List.flatMap_def, List.map_congr_left (g := fun k => [k]) fun k hk => leavesBelow_leaf ht (List.mem_range.1 hk)]
      rw [← List.flatMap_def, List.flatMap_singleton']
    exact (hl.flatMap_right _).trans (by rw [h1])
  | succ m ih =>
    set n := s.st.nsym with hn
    set k := n + m with hk
    have hkm : n + (m + 1) = k + 1 := by omega
    rw [hkm, childrenUpTo_succ s (by omega), List.range_succ] at hl
    have hmem : k ∈ l := by
      have h1 : k ∈ l ++ (s.childrenUpTo n k ++ [(s.nodeAt k).left, (s.nodeAt k).right]) :=
        hl.mem_iff.2 (by simp)
      have hin := ht.inner k (by omega) (by omega)
      rcases List.mem_append.1 h1 with h | h
      · exact h
      · exfalso
        rcases List.mem_append.1 h with h | h
        · simp only [State.childrenUpTo, List.mem_flatMap, List.mem_range'_1] at h
          obtain ⟨i, hi, hki⟩ := h
          have := ht.inner i hi.1 (by omega)
          have : k = (s.nodeAt i).left ∨ k = (s.nodeAt i).right := by simpa using hki
          omega
        · have : k = (s.nodeAt k).left ∨ k = (s.nodeAt k).right := by simpa using h
          omega
    obtain ⟨l', hl'⟩ : ∃ l', l.Perm (k :: l') := ⟨_, List.perm_cons_erase hmem⟩
    have hperm : (((s.nodeAt k).left :: (s.nodeAt k).right :: l') ++ s.childrenUpTo n k).Perm (List.range k) := by
      have h2 := (hl'.append_right (s.childrenUpTo n k ++ [(s.nodeAt k).left, (s.nodeAt k).right])).symm.trans hl
      refine List.perm_iff_count.2 fun a => ?_
      have := List.perm_iff_count.1 h2 a
      simp only [List.count_append, List.count_cons, List.cons_append, List.count_nil] at this ⊢
      omega
    have := ih (by omega) _ hperm
    refine (hl'.flatMap_right _).trans ?_
    rw [List.flatMap_cons, leavesBelow_inner ht (by omega) (by omega), List.append_assoc]
    exact this

/-- The traversal from ROOT meets every leaf exactly once (R121, R124). -/
theorem leavesBelow_root (ht : TreeShape s) : (s.leavesBelow s.tb.root).Perm (List.range s.st.nsym) := by
  have h1 := ht.some_symbol
  have hroot := ht.root_eq
  have hnn := ht.nnode_eq
  have := leavesBelow_frontier ht (s.st.nsym - 1) (by omega) [s.tb.root] (by
    have hch : s.childrenUpTo s.st.nsym (s.st.nsym + (s.st.nsym - 1)) = s.children := by
      simp [State.childrenUpTo, State.children]
    rw [hch, show s.st.nsym + (s.st.nsym - 1) = s.tb.root + 1 by omega, List.range_succ]
    exact (ht.owned_once.cons s.tb.root).trans (List.perm_append_singleton _ _).symm)
  simpa using this

/-! ## Recording the codes (R120, R121) -/

theorem recordCode_frame (s : State) (e : Byte × BitString) : s.recordCode e = { s with cg := (s.recordCode e).cg } := rfl

theorem foldl_recordCode_frame (l : List (Byte × BitString)) (s : State) :
    l.foldl State.recordCode s = { s with cg := (l.foldl State.recordCode s).cg } := by
  induction l generalizing s with
  | nil => rfl
  | cons e l ih => rw [List.foldl_cons, ih, recordCode_frame s e]

theorem foldl_recordCode_maxlen (l : List (Byte × BitString)) (s : State) :
    (l.foldl State.recordCode s).cg.maxlen = s.cg.maxlen := by
  induction l generalizing s with
  | nil => rfl
  | cons e l ih => rw [List.foldl_cons, ih]; rfl

theorem toNat_ne {y z : Byte} (h : y ≠ z) : y.toNat ≠ z.toNat := fun h' => h (BitVec.eq_of_toNat_eq h')

theorem recordCode_cvalidAt (s : State) (e : Byte × BitString) (y : Byte) :
    (s.recordCode e).cvalidAt y = (s.cvalidAt y || decide (y = e.1)) := by
  have he : e.1.toNat < alpha := e.1.isLt
  by_cases h : y = e.1
  · subst h
    simp [State.recordCode, State.cvalidAt, find_write_self he]
  · simp [State.recordCode, State.cvalidAt, find_write_of_ne _ _ _ (toNat_ne h), h]

theorem recordCode_code_self (s : State) (e : Byte × BitString) :
    (s.recordCode e).clenAt e.1 = e.2.length ∧ (s.recordCode e).cbitsAt e.1 = BitVec.ofNat 255 (bitVal e.2) := by
  have he : e.1.toNat < alpha := e.1.isLt
  simp [State.recordCode, State.clenAt, State.cbitsAt, find_write_self he]

theorem recordCode_code_of_ne (s : State) (e : Byte × BitString) {y : Byte} (h : y ≠ e.1) :
    (s.recordCode e).clenAt y = s.clenAt y ∧ (s.recordCode e).cbitsAt y = s.cbitsAt y := by
  simp [State.recordCode, State.clenAt, State.cbitsAt, find_write_of_ne _ _ _ (toNat_ne h)]

theorem foldl_recordCode_cvalidAt (l : List (Byte × BitString)) (s : State) (y : Byte) :
    (l.foldl State.recordCode s).cvalidAt y = (s.cvalidAt y || decide (y ∈ l.map Prod.fst)) := by
  induction l generalizing s with
  | nil => simp
  | cons e l ih =>
    rw [List.foldl_cons, ih, recordCode_cvalidAt]
    simp only [List.map_cons, List.mem_cons, Bool.decide_or, Bool.or_assoc]

theorem foldl_recordCode_of_notMem (l : List (Byte × BitString)) (s : State) {y : Byte} (h : y ∉ l.map Prod.fst) :
    (l.foldl State.recordCode s).clenAt y = s.clenAt y ∧ (l.foldl State.recordCode s).cbitsAt y = s.cbitsAt y := by
  induction l generalizing s with
  | nil => exact ⟨rfl, rfl⟩
  | cons e l ih =>
    simp only [List.map_cons, List.mem_cons, not_or] at h
    have := recordCode_code_of_ne s e h.1
    rw [List.foldl_cons, (ih _ h.2).1, (ih _ h.2).2, this.1, this.2]
    exact ⟨rfl, rfl⟩

/-- Each symbol's entry holds the length and the numeral of its code, when no symbol has two (R71, R121). -/
theorem foldl_recordCode_code (l : List (Byte × BitString)) (s : State) (hn : (l.map Prod.fst).Nodup) {y : Byte}
    {q : BitString} (h : (y, q) ∈ l) :
    (l.foldl State.recordCode s).clenAt y = q.length ∧
      (l.foldl State.recordCode s).cbitsAt y = BitVec.ofNat 255 (bitVal q) := by
  induction l generalizing s with
  | nil => simp at h
  | cons e l ih =>
    rw [List.map_cons, List.nodup_cons] at hn
    rw [List.foldl_cons]
    rcases List.mem_cons.1 h with rfl | h
    · have := foldl_recordCode_of_notMem l (s.recordCode (y, q)) hn.1
      rw [this.1, this.2]
      exact recordCode_code_self s (y, q)
    · exact ih _ hn.2 h

theorem map_fst_insert {α β : Type} {m : Mem α} {m' : Mem β} (h : m.map Prod.fst = m'.map Prod.fst) (a : Nat) (v : α)
    (w : β) : (Mem.insert m a v).map Prod.fst = (Mem.insert m' a w).map Prod.fst := by
  induction m generalizing m' with
  | nil =>
    obtain rfl : m' = [] := by simpa using h.symm
    rfl
  | cons e m ih =>
    match m', h with
    | e' :: m', h =>
      simp only [List.map_cons, List.cons.injEq] at h
      simp only [Mem.insert, h.1]
      split
      · simp [h.2]
      · split
        · simp [h.2]
        · simp [ih h.2]

theorem foldl_recordCode_listed (l : List (Byte × BitString)) (s : State)
    (h1 : s.cg.clen.map Prod.fst = s.cg.cvalid.map Prod.fst) (h2 : s.cg.cbits.map Prod.fst = s.cg.cvalid.map Prod.fst) :
    (l.foldl State.recordCode s).cg.clen.map Prod.fst = (l.foldl State.recordCode s).cg.cvalid.map Prod.fst ∧
    (l.foldl State.recordCode s).cg.cbits.map Prod.fst = (l.foldl State.recordCode s).cg.cvalid.map Prod.fst := by
  induction l generalizing s with
  | nil => exact ⟨h1, h2⟩
  | cons e l ih =>
    have he : e.1.toNat < alpha := e.1.isLt
    rw [List.foldl_cons]
    refine ih _ ?_ ?_
    · simpa [State.recordCode, Mem.write, he] using map_fst_insert h1 _ _ _
    · simpa [State.recordCode, Mem.write, he] using map_fst_insert h2 _ _ _

theorem foldl_recordCode_cvalid_wf (l : List (Byte × BitString)) (s : State)
    (h : Mem.wf alpha (some false) s.cg.cvalid = true) :
    Mem.wf alpha (some false) (l.foldl State.recordCode s).cg.cvalid = true := by
  induction l generalizing s with
  | nil => exact h
  | cons e l ih => exact ih _ (wf_write h _ _)

theorem foldl_max_le (l : List (Byte × BitString)) (a : Nat) : a ≤ l.foldl (fun m e => max m e.2.length) a := by
  induction l generalizing a with
  | nil => exact le_rfl
  | cons e l ih => exact (le_max_left _ _).trans (ih _)

theorem le_maxLength_aux (l : List (Byte × BitString)) (a : Nat) {e : Byte × BitString} (h : e ∈ l) :
    e.2.length ≤ l.foldl (fun m e => max m e.2.length) a := by
  induction l generalizing a with
  | nil => simp at h
  | cons x l ih =>
    rcases List.mem_cons.1 h with rfl | h
    · exact (le_max_right a _).trans (foldl_max_le l _)
    · exact ih _ h

theorem maxLength_mem_aux (l : List (Byte × BitString)) (a : Nat) :
    l.foldl (fun m e => max m e.2.length) a = a ∨ ∃ e ∈ l, e.2.length = l.foldl (fun m e => max m e.2.length) a := by
  induction l generalizing a with
  | nil => exact .inl rfl
  | cons x l ih =>
    rw [List.foldl_cons]
    rcases ih (max a x.2.length) with h | ⟨e, he, h⟩
    · rw [h]
      rcases le_total a x.2.length with hm | hm
      · exact .inr ⟨x, List.mem_cons_self, by simp [hm]⟩
      · exact .inl (by simp [hm])
    · exact .inr ⟨e, List.mem_cons_of_mem _ he, h⟩

/-- MAXLEN is at least every length (R123). -/
theorem le_maxLength {l : List (Byte × BitString)} {e : Byte × BitString} (h : e ∈ l) : e.2.length ≤ maxLength l :=
  le_maxLength_aux l 0 h

/-- MAXLEN is the length of some code, when there is a non-empty one (R123). -/
theorem maxLength_mem {l : List (Byte × BitString)} {e : Byte × BitString} (h : e ∈ l) (he : e.2 ≠ []) :
    ∃ e ∈ l, e.2.length = maxLength l := by
  rcases maxLength_mem_aux l 0 with h0 | h0
  · exfalso
    have := le_maxLength h
    rw [maxLength, h0] at this
    exact he (List.length_eq_zero_iff.1 (by omega))
  · exact h0

/-! ## GEN in a tree of the shape of R106 -/

/-- The symbols in first-insertion order, by position (R12). -/
theorem orderAt_of_listed (hs : SymbolTableOk s) {i : Nat} (hi : i < s.st.nsym) :
    s.symbols[i]? = some (s.orderAt i) := by
  have hf := find_of_listed hs.order_listed i
  have : (Mem.find s.st.order i).isSome := (find_isSome_of_listed hs.order_listed i).2 hi
  obtain ⟨v, hv⟩ := Option.isSome_iff_exists.1 this
  rw [State.symbols, ← hf, State.orderAt, hv, Option.getD_some]

theorem symbols_length (hs : SymbolTableOk s) : s.symbols.length = s.st.nsym := by
  simpa [State.symbols] using congrArg List.length hs.order_listed

theorem symbols_eq_map (hs : SymbolTableOk s) : s.symbols = (List.range s.st.nsym).map s.orderAt := by
  refine List.ext_getElem? fun i => ?_
  by_cases hi : i < s.st.nsym
  · rw [orderAt_of_listed hs hi]
    simp [hi]
  · rw [List.getElem?_eq_none (by rw [symbols_length hs]; omega), List.getElem?_eq_none (by simp; omega)]

/-- The codes that GEN records in a tree of two symbols or more, in the order of the traversal. -/
def State.codeList (s : State) : List (Byte × BitString) :=
  (s.below 512 s.tb.root).map fun e => ((s.nodeAt e.1).sym, e.2)

theorem codeList_symbols (hs : SymbolTableOk s) (ht : TreeShape s) : (s.codeList.map Prod.fst).Perm s.symbols := by
  have hroot := ht.root_eq
  have hnn := ht.nnode_eq
  have h1 := ht.some_symbol
  have hn := hs.nsym_le
  have h2 : s.codeList.map Prod.fst = (s.leavesBelow s.tb.root).map fun k => (s.nodeAt k).sym := by
    rw [State.leavesBelow, ← below_fuel ht 512 (s.tb.root + 1) (by omega) (by simp only [alpha] at hn; omega) (by omega)]
    simp [State.codeList, Function.comp_def]
  rw [h2, symbols_eq_map hs]
  refine ((leavesBelow_root ht).map _).trans ?_
  rw [List.map_congr_left (g := s.orderAt)]
  intro i hi
  rw [ht.leaf_eq i (List.mem_range.1 hi)]

theorem codeList_mem (ht : TreeShape s) {y : Byte} {q : BitString} (h : (y, q) ∈ s.codeList) :
    ∃ k, s.follow s.tb.root q = some k ∧ (s.nodeAt k).leaf = true ∧ (s.nodeAt k).sym = y ∧
      q.length ≤ s.st.nsym - 1 := by
  have hroot := ht.root_eq
  have hnn := ht.nnode_eq
  have h1 := ht.some_symbol
  simp only [State.codeList, List.mem_map, Prod.mk.injEq] at h
  obtain ⟨⟨k, q'⟩, hm, rfl, rfl⟩ := h
  have hf := below_follow s 512 hm
  have hl := below_length ht 512 (by omega) hm
  have hl1 : q'.length ≤ s.tb.root + 1 - s.st.nsym := hl.1
  exact ⟨k, hf.1, hf.2, rfl, show q'.length ≤ s.st.nsym - 1 by omega⟩

theorem root_leaf_iff (ht : TreeShape s) : (s.nodeAt s.tb.root).leaf = true ↔ s.st.nsym = 1 := by
  have hroot := ht.root_eq
  have hnn := ht.nnode_eq
  have h1 := ht.some_symbol
  rw [ht.leaf_iff (by omega)]
  omega

/-- GEN completes in every tree of the shape of R106 (R120). -/
theorem genBody_done (hs : SymbolTableOk s) (ht : TreeShape s) :
    genBody s = .done (s.recordCodeBook
      (if s.st.nsym = 1 then [((s.nodeAt s.tb.root).sym, [false])] else s.codeList)) := by
  have hroot := ht.root_eq
  have hnn := ht.nnode_eq
  have h1 := ht.some_symbol
  have hn := hs.nsym_le
  simp only [genBody, root_leaf_iff ht]
  split
  · rfl
  · rw [leafPaths_eq ht 512 (by omega) (by simp only [alpha] at hn; omega)]
    rfl

theorem recordCodeBook_frame (s : State) (l : List (Byte × BitString)) :
    s.recordCodeBook l = { s with cg := (s.recordCodeBook l).cg, phase := .ready } := by
  simp only [State.recordCodeBook]
  rw [foldl_recordCode_frame l s]

/-- A list of codes that names each counted symbol once gives a CodeBook entry for exactly the counted symbols, with the
code of the list (R124). -/
theorem recordCodeBook_code (hs : SymbolTableOk s) (hcg : s.cg = .reset) {l : List (Byte × BitString)}
    (hl : (l.map Prod.fst).Perm s.symbols) (hlen : ∀ e ∈ l, e.2.length ≤ 255) :
    (∀ y, (s.recordCodeBook l).cvalidAt y = true ↔ 1 ≤ s.countAt y) ∧
    ∀ y q, (y, q) ∈ l → (s.recordCodeBook l).clenAt y = q.length ∧
      (s.recordCodeBook l).cbitsAt y = BitVec.ofNat 255 (bitVal q) ∧ (s.recordCodeBook l).code y = q := by
  constructor
  · intro y
    show (l.foldl State.recordCode s).cvalidAt y = true ↔ _
    rw [foldl_recordCode_cvalidAt, hs.counted_iff, ← hl.mem_iff]
    simp [State.cvalidAt, hcg, CodeUnit.reset]
  · intro y q hm
    have := foldl_recordCode_code l s (hl.nodup_iff.2 hs.order_nodup) hm
    refine ⟨this.1, this.2, ?_⟩
    show codeString ((l.foldl State.recordCode s).clenAt y) ((l.foldl State.recordCode s).cbitsAt y) = q
    rw [this.1, this.2]
    exact codeString_bitVal q (hlen _ hm)

/-- GEN leaves the CodeBook of R122 to R126. -/
theorem genBody_codeBook (hs : SymbolTableOk s) (ht : TreeShape s) (hcg : s.cg = .reset) (h : genBody s = .done t) :
    t = { s with cg := t.cg, phase := .ready } ∧ CodeBookShape t ∧ Mem.wf alpha (some false) t.cg.cvalid = true := by
  rw [genBody_done hs ht, Performed.done.injEq] at h
  have hn := hs.nsym_le
  have hn1 := ht.some_symbol
  simp only [alpha] at hn
  set l := if s.st.nsym = 1 then [((s.nodeAt s.tb.root).sym, [false])] else s.codeList with hldef
  have hfr : t = { s with cg := t.cg, phase := .ready } := by rw [← h]; exact recordCodeBook_frame s l
  have hroot := ht.root_eq
  have hperm : (l.map Prod.fst).Perm s.symbols := by
    rw [hldef]
    split
    · next h1 =>
      have hr : s.tb.root = 0 := by omega
      rw [symbols_eq_map hs, h1, hr, ht.leaf_eq 0 (by omega)]
      simp
    · exact codeList_symbols hs ht
  have hpath : ∀ y q, (y, q) ∈ l → 1 ≤ q.length ∧ q.length ≤ max 1 (s.st.nsym - 1) ∧
      (s.st.nsym = 1 → q = [false]) ∧ (2 ≤ s.st.nsym → ∃ k, s.follow s.tb.root q = some k ∧
        (s.nodeAt k).leaf = true ∧ (s.nodeAt k).sym = y) := by
    intro y q hm
    rw [hldef] at hm
    split at hm
    · next h1 =>
      obtain ⟨-, rfl⟩ : y = (s.nodeAt s.tb.root).sym ∧ q = [false] := by simpa using hm
      exact ⟨by simp, by simp, fun _ => rfl, fun h => by omega⟩
    · next h1 =>
      obtain ⟨k, hk1, hk2, hk3, hk4⟩ := codeList_mem ht hm
      refine ⟨?_, by omega, fun h => absurd h h1, fun _ => ⟨k, hk1, hk2, hk3⟩⟩
      cases q with
      | nil =>
        have : k = s.tb.root := by simpa [State.follow] using hk1.symm
        rw [this, root_leaf_iff ht] at hk2
        exact absurd hk2 h1
      | cons b q => simp
  obtain ⟨hcov, hcode⟩ := recordCodeBook_code hs hcg hperm (fun e he => by
    have := (hpath e.1 e.2 he).2.1
    omega)
  rw [h] at hcov hcode
  have hfind : ∀ y, t.cvalidAt y = true → ∃ q, (y, q) ∈ l := by
    intro y hy
    have : y ∈ l.map Prod.fst := by rw [hperm.mem_iff, ← hs.counted_iff, ← hcov]; exact hy
    simpa using this
  have hst : t.st = s.st := by rw [hfr]
  have htb : t.tb = s.tb := by rw [hfr]
  have hcount : t.countAt = s.countAt := by rw [hfr]; rfl
  have hnode : t.nodeAt = s.nodeAt := by rw [hfr]; rfl
  have hfollow : ∀ q k, t.follow k q = s.follow k q := by
    intro q
    induction q with
    | nil => intro k; rfl
    | cons b q ih => intro k; simp only [State.follow, hnode, ih]
  have hlisted := foldl_recordCode_listed l s (by rw [hcg]; rfl) (by rw [hcg]; rfl)
  refine ⟨hfr, ⟨?_, ?_, ?_, ?_, ?_, ?_, ?_, ?_, ?_⟩, ?_⟩
  · rw [← h]; exact hlisted.1
  · rw [← h]; exact hlisted.2
  · intro y; rw [hcount]; exact hcov y
  · intro h1 y hy
    rw [hst] at h1
    obtain ⟨q, hq⟩ := hfind y hy
    rw [(hcode y q hq).2.2, (hpath y q hq).2.2.1 h1]
  · intro h2 y hy
    rw [hst] at h2
    obtain ⟨q, hq⟩ := hfind y hy
    rw [(hcode y q hq).2.2, htb, hfollow, hnode]
    exact (hpath y q hq).2.2.2 h2
  · intro y hy
    obtain ⟨q, hq⟩ := hfind y hy
    rw [(hcode y q hq).1, hst]
    exact ⟨(hpath y q hq).1, (hpath y q hq).2.1⟩
  · intro y hy
    obtain ⟨q, hq⟩ := hfind y hy
    rw [(hcode y q hq).1, (hcode y q hq).2.1, BitVec.toNat_ofNat]
    exact (Nat.mod_le _ _).trans_lt (bitVal_lt q)
  · intro y hy
    obtain ⟨q, hq⟩ := hfind y hy
    rw [(hcode y q hq).1, ← h]
    exact le_maxLength hq
  · obtain ⟨y0, hy0⟩ : ∃ y, y ∈ l.map Prod.fst := by
      have : (l.map Prod.fst).length = s.st.nsym := by rw [hperm.length_eq, symbols_length hs]
      exact List.exists_mem_of_length_pos (by omega)
    obtain ⟨⟨y1, q1⟩, he1, -⟩ := List.mem_map.1 hy0
    obtain ⟨⟨y, q⟩, he, hmax⟩ := maxLength_mem he1 (by
      have := (hpath y1 q1 he1).1
      rintro h0
      rw [show q1 = [] from h0] at this
      simp at this)
    refine ⟨y, ?_, ?_⟩
    · rw [hcov, hs.counted_iff, ← hperm.mem_iff]
      exact List.mem_map_of_mem (f := Prod.fst) he
    · rw [(hcode y q he).1, ← h]
      exact hmax
  · rw [← h]
    exact foldl_recordCode_cvalid_wf l s (by rw [hcg]; rfl)

end Sys2Proof.Machine
end

