-- ==== Sys2Proof/Laws/Counter.lean ====
section
/-!
SUPPORT. What SYM does to the SymbolTable (R90), and that it keeps the SymbolTable's invariants (R13, R14, R91).
-/

namespace Sys2Proof.Machine

variable {s t : State} {y : Byte}

/-- The SymbolTable after one completed SYM, as a value (R90). -/
theorem symBody_done (h : symBody y s = .done t) :
    s.st.total ≠ s.params.lenMax ∧ t =
      { s with st :=
          { count := Mem.write alpha (some 0) s.st.count y.toNat (s.countAt y + 1)
            order := if s.countAt y = 0 then Mem.write alpha none s.st.order s.st.nsym y else s.st.order
            nsym := if s.countAt y = 0 then s.st.nsym + 1 else s.st.nsym
            total := s.st.total + 1 } } := by
  unfold symBody at h
  split at h
  · cases h
  · next hf =>
    refine ⟨hf, ?_⟩
    by_cases hy : s.countAt y = 0
    · simp only [hy, if_true, Performed.done.injEq] at h
      rw [← h]
      simp only [State.countAt] at hy
      simp [State.appendOrder, State.writeCount, State.countAt, hy]
    · simp only [hy, if_false, Performed.done.injEq] at h
      rw [← h]
      simp [State.writeCount, hy]

theorem symBody_raise {c : ECode} (h : symBody y s = .raise c) : s.st.total = s.params.lenMax ∧ c = .capacity := by
  unfold symBody at h
  split at h
  · next hf => exact ⟨hf, by simpa using h.symm⟩
  · simp at h

/-- COUNT after a completed SYM: one more for the symbol, every other count as before (R90). -/
theorem symBody_countAt (h : symBody y s = .done t) (z : Byte) :
    t.countAt z = if z = y then s.countAt y + 1 else s.countAt z := by
  obtain ⟨-, rfl⟩ := symBody_done h
  have hy : y.toNat < alpha := y.isLt
  by_cases hz : z = y
  · subst hz
    simp [State.countAt, find_write_self hy]
  · have : z.toNat ≠ y.toNat := fun h => hz (BitVec.eq_of_toNat_eq h)
    simp [State.countAt, hz, find_write_of_ne _ _ _ this]

/-- Adding one at one place of a list of distinct indexes adds one to the sum. -/
theorem sum_map_update (l : List Nat) (hl : l.Nodup) {a : Nat} (ha : a ∈ l) (f g : Nat → Nat) (hg : g a = f a + 1)
    (hne : ∀ i ∈ l, i ≠ a → g i = f i) : (l.map g).sum = (l.map f).sum + 1 := by
  induction l with
  | nil => simp at ha
  | cons b l ih =>
    rw [List.nodup_cons] at hl
    rcases List.mem_cons.1 ha with rfl | h
    · have : l.map g = l.map f := List.map_congr_left fun i hi =>
        hne i (List.mem_cons_of_mem _ hi) (by rintro rfl; exact hl.1 hi)
      simp [this, hg]; omega
    · have hb : b ≠ a := by rintro rfl; exact hl.1 h
      have := ih hl.2 h fun i hi => hne i (List.mem_cons_of_mem _ hi)
      simp [hne b List.mem_cons_self hb, this]; omega

theorem ofNat_toNat_byte (y : Byte) : BitVec.ofNat 8 y.toNat = y := by simp

theorem symBody_countSum (h : symBody y s = .done t) : t.countSum = s.countSum + 1 := by
  refine sum_map_update (List.range alpha) List.nodup_range (a := y.toNat) (List.mem_range.2 y.isLt) _ _ ?_ ?_
  · simp [symBody_countAt h]
  · intro i hi hne
    rw [symBody_countAt h, if_neg]
    rintro rfl
    have : i < 256 := List.mem_range.1 hi
    exact hne (by simp; omega)

/-- A list of distinct bytes has at most 256 elements. -/
theorem length_le_of_nodup_bytes {l : List Byte} (h : l.Nodup) : l.length ≤ 256 := by
  have hm : (l.map BitVec.toNat).Nodup := h.map fun _ _ => BitVec.eq_of_toNat_eq
  have hs : l.map BitVec.toNat ⊆ List.range 256 := fun x hx => by
    obtain ⟨b, -, rfl⟩ := List.mem_map.1 hx
    exact List.mem_range.2 b.isLt
  simpa using (List.subperm_of_subset hm hs).length_le

/-- Fewer than 256 symbols have been counted while one has not. -/
theorem nsym_lt_of_new (hs : SymbolTableOk s) (hy : s.countAt y = 0) : s.st.nsym < alpha := by
  have hn : y ∉ s.symbols := fun h => by have := (hs.counted_iff y).2 h; omega
  have hlen : s.symbols.length = s.st.nsym := by
    simpa [State.symbols] using congrArg List.length hs.order_listed
  have := length_le_of_nodup_bytes (List.nodup_cons.2 ⟨hn, hs.order_nodup⟩)
  rw [List.length_cons, hlen] at this
  exact this

/-- SYM keeps the invariants of the SymbolTable (R13, R14, R91). -/
theorem symBody_symbolTableOk (hs : SymbolTableOk s) (h : symBody y s = .done t) : SymbolTableOk t := by
  have hc := symBody_countAt h
  have hsum := symBody_countSum h
  obtain ⟨hfull, rfl⟩ := symBody_done h
  have hnew : s.countAt y = 0 → Mem.write alpha none s.st.order s.st.nsym y = s.st.order ++ [(s.st.nsym, y)] :=
    fun hy => write_append hs.order_listed (nsym_lt_of_new hs hy) y
  refine ⟨wf_write hs.count_wf _ _, ?_, ?_, ?_, ?_, ?_, ?_⟩
  · by_cases hy : s.countAt y = 0
    · simpa [hy] using nsym_lt_of_new hs hy
    · simpa [hy] using hs.nsym_le
  · by_cases hy : s.countAt y = 0
    · simpa [hy, hnew hy] using listed_append hs.order_listed y
    · simpa [hy] using hs.order_listed
  · by_cases hy : s.countAt y = 0
    · have hn : y ∉ s.symbols := fun h => by have := (hs.counted_iff y).2 h; omega
      have := hs.order_nodup
      simp only [State.symbols] at hn this ⊢
      simp only [hy, if_true, hnew hy, List.map_append, List.map_cons, List.map_nil]
      exact List.nodup_append.2 ⟨this, by simp, by
        rintro a ha b hb rfl
        exact hn (List.mem_singleton.1 hb ▸ ha)⟩
    · simpa [State.symbols, hy] using hs.order_nodup
  · intro z
    rw [hc z]
    by_cases hy : s.countAt y = 0
    · simp only [State.symbols, hy, if_true, hnew hy, List.map_append, List.mem_append]
      by_cases hz : z = y
      · simp [hz]
      · simpa [hz, State.symbols] using hs.counted_iff z
    · simp only [State.symbols, hy, if_false]
      by_cases hz : z = y
      · have := (hs.counted_iff y).1 (by omega)
        simpa [hz, State.symbols] using this
      · simpa [hz, State.symbols] using hs.counted_iff z
  · rw [hsum, ← hs.total_eq]
  · have := hs.total_fits
    show s.st.total + 1 ≤ s.params.lenMax
    omega

end Sys2Proof.Machine
end

