-- ==== Sys2Proof/Laws/Decoder.lean ====
section
/-!
SUPPORT. What the walk and the commit of the decoder do (R157, R158), and that the walk of a code emits its symbol
(R160, R165).
-/

namespace Sys2Proof.Machine

variable {s t : State}

/-! ## The walk (R157) -/

theorem walkBits_append (s : State) (a b : BitString) (r : Walk) :
    s.walkBits (a ++ b) r = (s.walkBits a r).bind (s.walkBits b) := by
  induction a generalizing r with
  | nil => rfl
  | cons x a ih =>
    simp only [List.cons_append, State.walkBits]
    cases s.decBit r x with
    | none => rfl
    | some r' => exact ih r'

/-- Every bit keeps the symbols emitted so far and emits at most one, only while there is room (R157, R158). -/
theorem decBit_out {r r' : Walk} {x : Bool} (h : s.decBit r x = some r') :
    r'.out = r.out ∨ ∃ y, r'.out = r.out ++ [y] ∧ s.de.dolen + r.out.length ≠ s.params.doDepth := by
  have hemit : ∀ {y : Byte} {q : Walk}, s.emit y q = some r' →
      r'.out = q.out ++ [y] ∧ s.de.dolen + q.out.length ≠ s.params.doDepth := by
    intro y q hq
    unfold State.emit at hq
    split at hq
    · cases hq
    · next hne =>
      obtain rfl := Option.some.inj hq
      exact ⟨rfl, hne⟩
  unfold State.decBit at h
  split at h
  · obtain rfl := Option.some.inj h; exact .inl rfl
  · split at h
    · split at h
      · obtain rfl := Option.some.inj h; exact .inl rfl
      · exact .inr ⟨_, hemit h⟩
    · dsimp only at h
      split at h
      · obtain ⟨ha, hb⟩ := hemit h
        exact .inr ⟨_, ha, hb⟩
      · obtain rfl := Option.some.inj h; exact .inl rfl

theorem walkBits_out {b : BitString} {r r' : Walk} (h : s.walkBits b r = some r')
    (hr : s.de.dolen + r.out.length ≤ s.params.doDepth) :
    s.de.dolen + r'.out.length ≤ s.params.doDepth ∧ r'.out.length ≤ r.out.length + b.length ∧
      ∃ o, r'.out = r.out ++ o := by
  induction b generalizing r with
  | nil =>
    obtain rfl := Option.some.inj h
    exact ⟨hr, by simp, [], by simp⟩
  | cons x b ih =>
    simp only [State.walkBits] at h
    split at h
    · next q hq =>
      rcases decBit_out hq with ho | ⟨y, ho, hne⟩
      · obtain ⟨h1, h2, o, h3⟩ := ih h (by rw [ho]; exact hr)
        rw [ho] at h2 h3
        exact ⟨h1, by simp only [List.length_cons]; omega, o, h3⟩
      · obtain ⟨h1, h2, o, h3⟩ := ih h (by rw [ho, List.length_append, List.length_singleton]; omega)
        rw [ho] at h2 h3
        simp only [List.length_append, List.length_singleton] at h2
        exact ⟨h1, by simp only [List.length_cons]; omega, y :: o, by simpa using h3⟩
    · cases h

/-- The candidate between bits (R28, R157): DCUR is a node; with one distinct symbol it stays at ROOT, with more it is an
internal node and DEAD is never set. -/
def State.Candidate (s : State) (r : Walk) : Prop :=
  r.cur < s.tb.nnode ∧ (s.st.nsym = 1 → r.cur = s.tb.root) ∧
    (2 ≤ s.st.nsym → (s.nodeAt r.cur).leaf = false ∧ r.dead = false)

theorem root_inner (ht : TreeShape s) (h : 2 ≤ s.st.nsym) : (s.nodeAt s.tb.root).leaf = false := by
  have := root_leaf_iff ht
  cases hl : (s.nodeAt s.tb.root).leaf
  · rfl
  · rw [hl] at this
    have := this.1 rfl
    omega

theorem decBit_candidate (ht : TreeShape s) {r r' : Walk} {x : Bool} (hr : s.Candidate r)
    (h : s.decBit r x = some r') : s.Candidate r' := by
  have hroot := ht.root_eq
  have hnn := ht.nnode_eq
  have h1 := ht.some_symbol
  obtain ⟨hc1, hc2, hc3⟩ := hr
  have hemit : ∀ {y : Byte} {q : Walk}, s.emit y q = some r' → r'.cur = q.cur ∧ r'.dead = q.dead := by
    intro y q hq
    unfold State.emit at hq
    split at hq
    · cases hq
    · obtain rfl := Option.some.inj hq; exact ⟨rfl, rfl⟩
  unfold State.decBit at h
  split at h
  · obtain rfl := Option.some.inj h; exact ⟨hc1, hc2, hc3⟩
  · next hd =>
    split at h
    · next hl =>
      have hn := (root_leaf_iff ht).1 hl
      split at h
      · obtain rfl := Option.some.inj h; exact ⟨hc1, hc2, fun h => by omega⟩
      · have := hemit h
        exact ⟨by rw [this.1]; exact hc1, fun h => by rw [this.1]; exact hc2 h, fun h => by omega⟩
    · next hl =>
      have hn : s.st.nsym ≠ 1 := fun h => hl ((root_leaf_iff ht).2 h)
      have hdead : r.dead = false := by simpa using hd
      have hcur := (hc3 (by omega)).1
      have hin : s.st.nsym ≤ r.cur := by
        by_contra hx
        rw [(ht.leaf_iff hc1).2 (by omega)] at hcur
        cases hcur
      have hch := ht.child_lt hc1 hin x
      dsimp only at h
      split at h
      · have := hemit h
        exact ⟨by rw [this.1]; show s.tb.root < _; omega, fun h => absurd h hn,
          fun h => by rw [this.1, this.2]; exact ⟨root_inner ht h, hdead⟩⟩
      · next hnl =>
        obtain rfl := Option.some.inj h
        exact ⟨show (s.nodeAt r.cur).child x < _ by omega, fun h => absurd h hn, fun _ => ⟨by simpa using hnl, hdead⟩⟩

theorem walkBits_candidate (ht : TreeShape s) {b : BitString} {r r' : Walk} (hr : s.Candidate r)
    (h : s.walkBits b r = some r') : s.Candidate r' := by
  induction b generalizing r with
  | nil => obtain rfl := Option.some.inj h; exact hr
  | cons x b ih =>
    simp only [State.walkBits] at h
    split at h
    · next q hq => exact ih (decBit_candidate ht hr hq) h
    · cases h

/-- The walk of a path from an internal node to a leaf emits the leaf's symbol and returns to ROOT (R160). -/
theorem walkBits_follow (s : State) (hroot : (s.nodeAt s.tb.root).leaf = false) (q : BitString) {k j : Nat}
    (hk : (s.nodeAt k).leaf = false) (hf : s.follow k q = some j) (hj : (s.nodeAt j).leaf = true) (out : List Byte)
    (hroom : s.de.dolen + out.length ≠ s.params.doDepth) :
    s.walkBits q ⟨k, false, out⟩ = some ⟨s.tb.root, false, out ++ [(s.nodeAt j).sym]⟩ := by
  induction q generalizing k with
  | nil =>
    obtain rfl : k = j := by simpa [State.follow] using hf
    rw [hk] at hj; cases hj
  | cons x q ih =>
    simp only [State.follow, hk, Bool.false_eq_true, if_false] at hf
    simp only [State.walkBits, State.decBit, hroot, Bool.false_eq_true, if_false]
    by_cases hc : (s.nodeAt ((s.nodeAt k).child x)).leaf = true
    · cases q with
      | nil =>
        obtain rfl : (s.nodeAt k).child x = j := by simpa [State.follow] using hf
        simp [hc, State.emit, hroom, State.walkBits]
      | cons x' q => simp [State.follow, hc] at hf
    · rw [if_neg hc]
      exact ih (by simpa using hc) hf

/-! ## The commit (R158) -/

/-- What the commit of a list of symbols does, while it fits DOMEM. -/
theorem foldl_appendDomem (o : List Byte) (s : State) (h : s.de.dolen + o.length ≤ s.params.doDepth) :
    (∃ m, o.foldl State.appendDomem s = { s with de := { s.de with domem := m, dolen := s.de.dolen + o.length } }) ∧
    (∀ i, i < s.de.dolen ∨ s.de.dolen + o.length ≤ i →
      Mem.find (o.foldl State.appendDomem s).de.domem i = Mem.find s.de.domem i) ∧
    (∀ j (hj : j < o.length), Mem.find (o.foldl State.appendDomem s).de.domem (s.de.dolen + j) = some o[j]) ∧
    (Mem.wf s.params.doDepth none s.de.domem = true →
      Mem.wf s.params.doDepth none (o.foldl State.appendDomem s).de.domem = true) := by
  induction o generalizing s with
  | nil => exact ⟨⟨s.de.domem, rfl⟩, fun _ _ => rfl, fun j hj => absurd hj (by simp), id⟩
  | cons y o ih =>
    simp only [List.length_cons] at h
    obtain ⟨⟨m, h1⟩, h2, h3, h4⟩ := ih (s.appendDomem y) (by simp; omega)
    simp only [appendDomem_de_dolen, appendDomem_de_domem, appendDomem_params] at h1 h2 h3 h4
    refine ⟨⟨m, ?_⟩, fun i hi => ?_, fun j hj => ?_, fun hw => h4 (wf_write hw _ _)⟩
    · rw [List.foldl_cons, h1]
      simp only [State.appendDomem, State.writeDomem, List.length_cons]
      congr 2
      omega
    · simp only [List.length_cons] at hi
      rw [List.foldl_cons, h2 i (by omega), find_write_of_ne _ _ _ (by omega)]
    · rw [List.foldl_cons]
      cases j with
      | zero =>
        rw [Nat.add_zero, h2 s.de.dolen (by omega), find_write_self (by omega) (by simp)]
        rfl
      | succ j =>
        have := h3 j (by simpa using hj)
        rw [show s.de.dolen + (j + 1) = s.de.dolen + 1 + j by omega, this]
        rfl

end Sys2Proof.Machine
end

