-- ==== Sys2Proof/Laws/Encoder.lean ====
section
/-!
SUPPORT. What the packer does (R136 to R138, R143): one bit, one code, and the last byte, all through one relation
between the encoder's registers and the bit-string packed so far.
-/

namespace Sys2Proof.Machine

variable {s t : State}

/-- A group of 8 bits as a byte, most significant bit first (R44). -/
def packByte (g : BitString) : Byte := BitVec.ofNat 8 (bitVal g)

/-- The encoder holds the bit-string b, packed from PKMEM[p] on: the whole bytes of b in PKMEM, the rest in ACC (R22,
R143). -/
structure Packed (s : State) (p : Nat) (b : BitString) : Prop where
  nbits_eq : s.en.nbits = b.length % 8
  pklen_eq : s.en.pklen = p + b.length / 8
  acc_eq : s.en.acc.toNat = bitVal (b.drop (8 * (b.length / 8)))
  bytes_eq : ∀ j, j < b.length / 8 → Mem.find s.en.pkmem (p + j) = some (packByte ((b.drop (8 * j)).take 8))

theorem encBit_frame (s : State) (x : Bool) :
    s.encBit x = { s with en := { s.en with
      acc := (s.encBit x).en.acc, nbits := (s.encBit x).en.nbits, pkmem := (s.encBit x).en.pkmem, pklen := (s.encBit x).en.pklen } } := by
  unfold State.encBit
  dsimp only
  split <;> rfl

theorem foldl_encBit_frame (c : BitString) (s : State) :
    c.foldl State.encBit s = { s with en := { s.en with
      acc := (c.foldl State.encBit s).en.acc
      nbits := (c.foldl State.encBit s).en.nbits
      pkmem := (c.foldl State.encBit s).en.pkmem
      pklen := (c.foldl State.encBit s).en.pklen } } := by
  induction c generalizing s with
  | nil => rfl
  | cons x c ih =>
    rw [List.foldl_cons, ih, encBit_frame s x]

/-- One bit (R137): the bit-string grows by it, and no entry but the one that a completed byte takes changes. -/
theorem encBit_packed {p : Nat} {b : BitString} (h : Packed s p b) (x : Bool)
    (hroom : p + (b.length + 1) / 8 ≤ s.params.pkDepth) :
    Packed (s.encBit x) p (b ++ [x]) ∧
      ∀ i, i < p + b.length / 8 ∨ p + (b.length + 1) / 8 ≤ i →
        Mem.find (s.encBit x).en.pkmem i = Mem.find s.en.pkmem i := by
  obtain ⟨hn, hp, ha, hb⟩ := h
  have hlt := bitVal_lt (b.drop (8 * (b.length / 8)))
  have hdl : (b.drop (8 * (b.length / 8))).length = b.length % 8 := by rw [List.length_drop]; omega
  rw [hdl, ← ha] at hlt
  have hx : x.toNat ≤ 1 := Bool.toNat_le x
  have hacc : (2 * s.en.acc + BitVec.ofNat 8 x.toNat : Byte).toNat = 2 * s.en.acc.toNat + x.toNat := by
    have h128 : s.en.acc.toNat < 128 := by
      have : (2 : Nat) ^ (b.length % 8) ≤ 2 ^ 7 := Nat.pow_le_pow_right (by omega) (by omega)
      omega
    simp only [BitVec.toNat_add, BitVec.toNat_mul, BitVec.toNat_ofNat, show BitVec.toNat (2 : Byte) = 2 from rfl]
    omega
  have hval : 2 * s.en.acc.toNat + x.toNat = bitVal (b.drop (8 * (b.length / 8)) ++ [x]) := by
    rw [bitVal_concat, ha]
  by_cases h7 : s.en.nbits = 7
  · have hq : (b.length + 1) / 8 = b.length / 8 + 1 := by omega
    have hin : p + b.length / 8 < s.params.pkDepth := by omega
    have hs' : s.encBit x = { s with en := { s.en with
        acc := 0, nbits := 0, pkmem := Mem.write s.params.pkDepth none s.en.pkmem s.en.pklen (2 * s.en.acc + BitVec.ofNat 8 x.toNat), pklen := s.en.pklen + 1 } } := by
      simp [State.encBit, h7, State.appendPkmem, State.writePkmem]
    rw [hs']
    refine ⟨⟨?_, ?_, ?_, ?_⟩, ?_⟩
    · simp; omega
    · simp [hq, hp]; omega
    · have : (b ++ [x]).drop (8 * ((b ++ [x]).length / 8)) = [] := List.drop_eq_nil_of_le (by simp; omega)
      rw [this]
      rfl
    · intro j hj
      simp only [List.length_append, List.length_singleton, hq] at hj
      rcases Nat.lt_succ_iff_lt_or_eq.1 hj with hj | rfl
      · show Mem.find (Mem.write _ _ _ _ _) _ = _
        rw [find_write_of_ne _ _ _ (by omega), hb j hj, List.drop_append_of_le_length (by omega),
          List.take_append_of_le_length (by rw [List.length_drop]; omega)]
      · show Mem.find (Mem.write _ _ _ _ _) _ = _
        rw [hp, find_write_self hin (by simp), Option.some_inj]
        apply BitVec.eq_of_toNat_eq
        rw [hacc, hval, List.drop_append_of_le_length (by omega), packByte, List.take_of_length_le (by simp; omega),
          BitVec.toNat_ofNat, Nat.mod_eq_of_lt]
        refine (bitVal_lt _).trans_le (Nat.pow_le_pow_right (by omega) ?_)
        rw [List.length_append, hdl, List.length_singleton]
        omega
    · intro i hi
      show Mem.find (Mem.write _ _ _ _ _) _ = _
      rw [hp, find_write_of_ne _ _ _ (by omega)]
  · have hq : (b.length + 1) / 8 = b.length / 8 := by omega
    have hs' : s.encBit x = { s with en := { s.en with
        acc := 2 * s.en.acc + BitVec.ofNat 8 x.toNat, nbits := s.en.nbits + 1 } } := by
      simp [State.encBit, h7]
    rw [hs']
    refine ⟨⟨?_, ?_, ?_, ?_⟩, fun _ _ => rfl⟩
    · simp; omega
    · simp [hq, hp]
    · rw [List.length_append, List.length_singleton, hq, List.drop_append_of_le_length (by omega), ← hval]
      exact hacc
    · intro j hj
      simp only [List.length_append, List.length_singleton, hq] at hj
      rw [List.drop_append_of_le_length (by omega), List.take_append_of_le_length (by rw [List.length_drop]; omega)]
      exact hb j hj

/-- A whole code (R136, R143). -/
theorem foldl_encBit_packed {p : Nat} (c : BitString) {s : State} {b : BitString} (h : Packed s p b)
    (hroom : p + (b.length + c.length) / 8 ≤ s.params.pkDepth) :
    Packed (c.foldl State.encBit s) p (b ++ c) ∧
      ∀ i, i < p + b.length / 8 ∨ p + (b.length + c.length) / 8 ≤ i →
        Mem.find (c.foldl State.encBit s).en.pkmem i = Mem.find s.en.pkmem i := by
  induction c generalizing s b with
  | nil => simpa using h
  | cons x c ih =>
    simp only [List.length_cons] at hroom ⊢
    obtain ⟨h1, h2⟩ := encBit_packed h x (by omega)
    have hpar : (s.encBit x).params = s.params := by rw [encBit_frame]
    obtain ⟨h3, h4⟩ := ih h1 (by rw [hpar, List.length_append, List.length_singleton]; omega)
    refine ⟨by simpa using h3, fun i hi => ?_⟩
    rw [List.foldl_cons, h4 i (by rw [List.length_append, List.length_singleton]; omega), h2 i (by omega)]

theorem foldl_encBit_wf (c : BitString) {s : State} (h : Mem.wf s.params.pkDepth none s.en.pkmem = true) :
    Mem.wf s.params.pkDepth none (c.foldl State.encBit s).en.pkmem = true := by
  induction c generalizing s with
  | nil => exact h
  | cons x c ih =>
    have hpar : (s.encBit x).params = s.params := by rw [encBit_frame]
    have : Mem.wf (s.encBit x).params.pkDepth none (s.encBit x).en.pkmem = true := by
      rw [hpar]
      unfold State.encBit
      dsimp only
      split
      · exact wf_write h _ _
      · exact h
    have := ih this
    rwa [hpar] at this

@[simp] theorem pendingBits_length (s : State) : s.pendingBits.length = s.en.nbits := by simp [State.pendingBits]

/-- ACC is the numeral of the pending bits (R22). -/
theorem bitVal_pendingBits (h : s.en.acc.toNat < 2 ^ s.en.nbits) : bitVal s.pendingBits = s.en.acc.toNat := by
  apply Nat.eq_of_testBit_eq
  intro i
  by_cases hi : i < s.en.nbits
  · have := testBit_bitVal s.pendingBits (j := s.en.nbits - 1 - i) (by simp; omega)
    simp only [pendingBits_length, show s.en.nbits - 1 - (s.en.nbits - 1 - i) = i by omega] at this
    rw [this]
    simp only [State.pendingBits, List.getElem_map, List.getElem_range]
    rw [show s.en.nbits - 1 - (s.en.nbits - 1 - i) = i by omega]
    rfl
  · have h1 : bitVal s.pendingBits < 2 ^ i :=
      (bitVal_lt _).trans_le (Nat.pow_le_pow_right (by omega) (by simp; omega))
    have h2 : s.en.acc.toNat < 2 ^ i := h.trans_le (Nat.pow_le_pow_right (by omega) (by omega))
    rw [Nat.testBit_lt_two_pow h1, Nat.testBit_lt_two_pow h2]

/-- Between commands the encoder holds its pending bits, packed from PKMEM[PKLEN] on. -/
theorem packed_pending (h7 : s.en.nbits ≤ 7) (h : s.en.acc.toNat < 2 ^ s.en.nbits) :
    Packed s s.en.pklen s.pendingBits := by
  have hd : s.en.nbits / 8 = 0 := by omega
  refine ⟨by simp; omega, by simp [hd], by simp [hd, bitVal_pendingBits h], fun j hj => ?_⟩
  rw [pendingBits_length] at hj
  omega

/-- The invariant parts that a relation `Packed` gives back. -/
theorem Packed.acc_lt {p : Nat} {b : BitString} (h : Packed s p b) :
    s.en.nbits ≤ 7 ∧ s.en.acc.toNat < 2 ^ s.en.nbits := by
  have := bitVal_lt (b.drop (8 * (b.length / 8)))
  have hdl : (b.drop (8 * (b.length / 8))).length = b.length % 8 := by rw [List.length_drop]; omega
  rw [hdl, ← h.acc_eq, ← h.nbits_eq] at this
  exact ⟨by rw [h.nbits_eq]; omega, this⟩

theorem Packed.pendingBits_eq {p : Nat} {b : BitString} (h : Packed s p b) :
    s.pendingBits = b.drop (8 * (b.length / 8)) := by
  have h1 := h.acc_lt
  have hdl : (b.drop (8 * (b.length / 8))).length = b.length % 8 := by rw [List.length_drop]; omega
  have hlen : s.pendingBits.length = (b.drop (8 * (b.length / 8))).length := by
    rw [pendingBits_length, hdl, h.nbits_eq]
  have hval : bitVal s.pendingBits = bitVal (b.drop (8 * (b.length / 8))) := by
    rw [bitVal_pendingBits h1.2, h.acc_eq]
  refine List.ext_getElem hlen fun j hj1 hj2 => ?_
  rw [← testBit_bitVal _ hj1, ← testBit_bitVal _ hj2, hval, hlen]

/-! ## The commands -/

theorem encBody_cases (y : Byte) (s : State) :
    (s.cvalidAt y = false ∧ encBody y s = .raise .unknownSymbol) ∨
    (s.cvalidAt y = true ∧ (s.en.enccnt = s.params.lenMax ∨
        s.en.pklen + (s.en.nbits + s.clenAt y) / 8 > s.params.pkDepth) ∧ encBody y s = .raise .capacity) ∨
    (s.cvalidAt y = true ∧ s.en.enccnt ≠ s.params.lenMax ∧
      s.en.pklen + (s.en.nbits + s.clenAt y) / 8 ≤ s.params.pkDepth ∧
      encBody y s = .done { (s.code y).foldl State.encBit s with
        en := { ((s.code y).foldl State.encBit s).en with enccnt := s.en.enccnt + 1 } }) := by
  unfold encBody
  by_cases h1 : s.cvalidAt y = false
  · exact .inl ⟨h1, by simp [h1]⟩
  · have h1' : s.cvalidAt y = true := by simpa using h1
    by_cases h2 : s.en.enccnt = s.params.lenMax
    · exact .inr (.inl ⟨h1', .inl h2, by simp [h1', h2]⟩)
    · by_cases h3 : s.en.pklen + (s.en.nbits + s.clenAt y) / 8 > s.params.pkDepth
      · exact .inr (.inl ⟨h1', .inr h3, by simp [h1', h2, h3]⟩)
      · refine .inr (.inr ⟨h1', h2, by omega, ?_⟩)
        rw [if_neg h1, if_neg h2, if_neg h3]
        have : ((s.code y).foldl State.encBit s).en.enccnt = s.en.enccnt := by rw [foldl_encBit_frame]
        dsimp only
        rw [this]

@[simp] theorem code_length (s : State) (y : Byte) : (s.code y).length = s.clenAt y := by simp [State.code]

end Sys2Proof.Machine
end

