-- ==== Sys2Proof/Laws/Commands.lean ====
section
/-!
SUPPORT. For each command, what it can write when it completes and which faults of its own it can raise, in every state.
Later proofs cite these and do not unfold a meaning.
-/

namespace Sys2Proof.Machine

variable {s t : State} {y b : Byte} {c : ECode}

/-! ## What a completed command writes -/

theorem symBody_frame (h : symBody y s = .done t) : t = { s with st := t.st } := by
  rw [(symBody_done h).2]

theorem leaves_frame (n : Nat) (s : State) : s.leaves n = { s with tb := (s.leaves n).tb } := by
  unfold State.leaves
  induction n with
  | zero => rfl
  | succ n ih => rw [List.range_succ, List.foldl_append, ih]; rfl

theorem buildBody_frame (h : buildBody s = .done t) : t = { s with tb := t.tb, phase := .tree } ∧ s.st.nsym ≠ 0 := by
  unfold buildBody at h
  dsimp only at h
  split at h
  · cases h
  · next hn =>
    refine ⟨?_, hn⟩
    rw [Performed.done.injEq] at h
    rw [← h, mergeTimes_frame, leaves_frame]
    rfl

theorem genBody_frame (h : genBody s = .done t) : t = { s with cg := t.cg, phase := .ready } := by
  unfold genBody at h
  dsimp only at h
  split at h
  · rw [Performed.done.injEq] at h
    rw [← h]
    exact recordCodeBook_frame _ _
  · split at h
    · rw [Performed.done.injEq] at h
      rw [← h]
      exact recordCodeBook_frame _ _
    · cases h

theorem encbegBody_frame (h : encbegBody s = .done t) :
    t = { s with en := t.en, phase := .enc } ∧ t.en.pkvalid = false := by
  rw [encbegBody, Performed.done.injEq] at h
  rw [← h]
  exact ⟨rfl, rfl⟩

theorem encBody_frame (h : encBody y s = .done t) :
    t = { s with en := t.en } ∧ t.en.pkvalid = s.en.pkvalid ∧ t.en.pad = s.en.pad ∧
      t.en.enccnt = s.en.enccnt + 1 := by
  rcases encBody_cases y s with ⟨-, h'⟩ | ⟨-, -, h'⟩ | ⟨-, -, -, h'⟩
  · rw [h'] at h; cases h
  · rw [h'] at h; cases h
  · rw [h', Performed.done.injEq] at h
    rw [← h, foldl_encBit_frame]
    exact ⟨rfl, rfl, rfl, rfl⟩

theorem encendBody_frame (h : encendBody s = .done t) :
    t = { s with en := t.en, phase := .ready } ∧ t.en.pkvalid = true := by
  unfold encendBody at h
  dsimp only at h
  split at h
  · split at h
    · cases h
    · rw [Performed.done.injEq] at h
      rw [← h]
      exact ⟨rfl, rfl⟩
  · rw [Performed.done.injEq] at h
    rw [← h]
    exact ⟨rfl, rfl⟩

theorem decbegBody_frame (h : decbegBody s = .done t) :
    t = { s with de := t.de, phase := .dec } ∧ t.de.domem = s.de.domem := by
  rw [decbegBody, Performed.done.injEq] at h
  rw [← h]
  exact ⟨rfl, rfl⟩

theorem foldl_appendDomem_frame (o : List Byte) (s : State) :
    o.foldl State.appendDomem s = { s with de := { s.de with
      domem := (o.foldl State.appendDomem s).de.domem, dolen := (o.foldl State.appendDomem s).de.dolen } } := by
  induction o generalizing s with
  | nil => rfl
  | cons x o ih => rw [List.foldl_cons, ih]; rfl

/-- Commit writes DCUR, DEAD, DOMEM and DOLEN only (R158). -/
theorem commit_frame (s : State) (r : Walk) :
    s.commit r = { s with de := { s.de with
      dcur := r.cur, dead := r.dead, domem := (s.commit r).de.domem, dolen := (s.commit r).de.dolen } } := by
  unfold State.commit
  rw [foldl_appendDomem_frame]

theorem decBit_dead {r r' : Walk} {x : Bool} (h : s.decBit r x = some r') (hd : r.dead = true) : r' = r := by
  unfold State.decBit at h
  rw [if_pos hd] at h
  exact (Option.some.inj h).symm

theorem walkBits_dead {q : BitString} {r : Walk} (hd : r.dead = true) : s.walkBits q r = some r := by
  induction q with
  | nil => rfl
  | cons x q ih => rw [State.walkBits, State.decBit, if_pos hd]; exact ih

theorem decbBody_frame (h : decbBody b s = .done t) :
    t = { s with de := t.de } ∧ t.de.dovalid = s.de.dovalid ∧ t.de.hdrv = true ∧
      (t.de.holdv ≠ s.de.holdv → t.de.holdv = true) ∧ (t.de.dead ≠ s.de.dead → t.de.dead = true) ∧
      t.de.dbytes = s.de.dbytes + 1 ∧ s.de.dbytes ≠ s.params.lenMax := by
  unfold decbBody at h
  split at h
  · cases h
  · next hfull =>
    split at h
    · split at h
      · cases h
      · rw [Performed.done.injEq] at h
        rw [← h]
        exact ⟨rfl, rfl, rfl, fun h => absurd rfl h, fun h => absurd rfl h, rfl, hfull⟩
    · next hh =>
      have hh : s.de.hdrv = true := by simpa using hh
      split at h
      · next hv =>
        split at h
        · cases h
        · next r hr =>
          rw [Performed.done.injEq] at h
          rw [← h, commit_frame]
          refine ⟨rfl, rfl, hh, fun _ => rfl, fun hd => ?_, rfl, hfull⟩
          show r.dead = true
          cases hs : s.de.dead with
          | true =>
            have := walkBits_dead (s := s) (q := byteBits s.de.hold 0) (r := ⟨s.de.dcur, s.de.dead, []⟩) hs
            rw [State.walk, this] at hr
            rw [← Option.some.inj hr]
            exact hs
          | false => rw [hs] at hd; simpa using hd
      · rw [Performed.done.injEq] at h
        rw [← h]
        exact ⟨rfl, rfl, hh, fun _ => rfl, fun h => absurd rfl h, rfl, hfull⟩

theorem finishDecode_frame {r : Walk} (h : s.finishDecode r = .done t) :
    t = { s with de := t.de, phase := .ready } ∧ t.de.dovalid = true ∧ t.de.holdv = false ∧ t.de.dead = false ∧
      t.de.hdrv = s.de.hdrv := by
  unfold State.finishDecode at h
  split at h
  · cases h
  · next hd =>
    rw [Performed.done.injEq] at h
    rw [← h, commit_frame]
    exact ⟨rfl, rfl, rfl, by simpa using fun hh => hd (.inl hh), rfl⟩

theorem decendBody_frame (h : decendBody s = .done t) :
    t = { s with de := t.de, phase := .ready } ∧ t.de.dovalid = true ∧ t.de.holdv = false ∧ t.de.dead = false ∧
      t.de.hdrv = s.de.hdrv := by
  unfold decendBody at h
  split at h
  · cases h
  · split at h
    · split at h
      · cases h
      · exact finishDecode_frame h
    · split at h
      · cases h
      · exact finishDecode_frame h

/-! ## The faults a command raises of itself -/

theorem buildBody_raise (h : buildBody s = .raise c) : s.st.nsym = 0 ∧ c = .emptyInput := by
  unfold buildBody at h
  dsimp only at h
  split at h
  · next hn => exact ⟨hn, by simpa using h.symm⟩
  · cases h

theorem genBody_no_raise : genBody s ≠ .raise c := by
  unfold genBody
  dsimp only
  split
  · simp
  · split <;> simp

theorem encBody_raise (h : encBody y s = .raise c) :
    (s.cvalidAt y = false ∧ c = .unknownSymbol) ∨
    (s.cvalidAt y = true ∧ c = .capacity ∧ (s.en.enccnt = s.params.lenMax ∨
      s.en.pklen + (s.en.nbits + s.clenAt y) / 8 > s.params.pkDepth)) := by
  rcases encBody_cases y s with ⟨h1, h'⟩ | ⟨h1, h2, h'⟩ | ⟨-, -, -, h'⟩
  · rw [h'] at h; exact .inl ⟨h1, by simpa using h.symm⟩
  · rw [h'] at h; exact .inr ⟨h1, by simpa using h.symm, h2⟩
  · rw [h'] at h; cases h

theorem encendBody_raise (h : encendBody s = .raise c) :
    s.en.nbits > 0 ∧ s.en.pklen + 1 > s.params.pkDepth ∧ c = .capacity := by
  unfold encendBody at h
  dsimp only at h
  split at h
  · next h1 =>
    split at h
    · next h2 => exact ⟨h1, h2, by simpa using h.symm⟩
    · cases h
  · cases h

theorem decbBody_raise (h : decbBody b s = .raise c) :
    (c = .capacity ∧ (s.de.dbytes = s.params.lenMax ∨
      s.de.hdrv = true ∧ s.de.holdv = true ∧ s.walk s.de.hold 0 = none)) ∨
    (c = .corruptStream ∧ s.de.dbytes ≠ s.params.lenMax ∧ s.de.hdrv = false ∧ b.toNat > 7) := by
  unfold decbBody at h
  split at h
  · next h1 => exact .inl ⟨by simpa using h.symm, .inl h1⟩
  · next h1 =>
    split at h
    · next h2 =>
      split at h
      · next h3 => exact .inr ⟨by simpa using h.symm, h1, h2, h3⟩
      · cases h
    · next h2 =>
      split at h
      · next h3 =>
        split at h
        · next h4 => exact .inl ⟨by simpa using h.symm, .inr ⟨by simpa using h2, h3, h4⟩⟩
        · cases h
      · cases h

theorem finishDecode_raise {r : Walk} (h : s.finishDecode r = .raise c) :
    c = .corruptStream ∧ (r.dead = true ∨ r.cur ≠ s.tb.root) := by
  unfold State.finishDecode at h
  split at h
  · next hd => exact ⟨by simpa using h.symm, hd⟩
  · cases h

theorem decendBody_raise (h : decendBody s = .raise c) :
    (c = .corruptStream ∧ (s.de.hdrv = false ∨
      s.de.hdrv = true ∧ s.de.holdv = false ∧ s.de.dpad ≠ 0 ∨
      s.de.hdrv = true ∧ s.de.holdv = false ∧ s.de.dpad = 0 ∧ (s.de.dead = true ∨ s.de.dcur ≠ s.tb.root) ∨
      s.de.hdrv = true ∧ s.de.holdv = true ∧
        ∃ r, s.walk s.de.hold s.de.dpad = some r ∧ (r.dead = true ∨ r.cur ≠ s.tb.root))) ∨
    (c = .capacity ∧ s.de.hdrv = true ∧ s.de.holdv = true ∧ s.walk s.de.hold s.de.dpad = none) := by
  unfold decendBody at h
  split at h
  · next h1 => exact .inl ⟨by simpa using h.symm, .inl h1⟩
  · next h1 =>
    have h1 : s.de.hdrv = true := by simpa using h1
    split at h
    · next h2 =>
      split at h
      · next h3 => exact .inl ⟨by simpa using h.symm, .inr (.inl ⟨h1, h2, h3⟩)⟩
      · next h3 =>
        obtain ⟨hc, hr⟩ := finishDecode_raise h
        exact .inl ⟨hc, .inr (.inr (.inl ⟨h1, h2, by simpa using h3, hr⟩))⟩
    · next h2 =>
      have h2 : s.de.holdv = true := by simpa using h2
      split at h
      · next h3 => exact .inr ⟨by simpa using h.symm, h1, h2, h3⟩
      · next r h3 =>
        obtain ⟨hc, hr⟩ := finishDecode_raise h
        exact .inl ⟨hc, .inr (.inr (.inr ⟨h1, h2, r, h3, hr⟩))⟩

/-- A fault of a command's own is none of the frame's. -/
theorem commandBody_raise {i : Instr} (h : commandBody i s = .raise c) :
    c ≠ .noFault ∧ c ≠ .illegalCmd ∧ c ≠ .sequence := by
  cases i <;> simp only [commandBody] at h
  · cases h
  · cases h
  · obtain ⟨-, rfl⟩ := symBody_raise h; simp
  · obtain ⟨-, rfl⟩ := buildBody_raise h; simp
  · exact absurd h genBody_no_raise
  · cases h
  · rcases encBody_raise h with ⟨-, rfl⟩ | ⟨-, rfl, -⟩ <;> simp
  · obtain ⟨-, -, rfl⟩ := encendBody_raise h; simp
  · cases h
  · rcases decbBody_raise h with ⟨rfl, -⟩ | ⟨rfl, -⟩ <;> simp
  · rcases decendBody_raise h with ⟨rfl, -⟩ | ⟨rfl, -⟩ <;> simp

/-- The phase in which a command is performed (R83). -/
theorem phase_of_legalIn {i : Instr} {p : Phase} : Instr.legalIn i p = true →
    match i with
    | .nop | .clr => True
    | .sym _ | .build => p = .count
    | .gen => p = .tree
    | .encbeg | .decbeg => p = .ready
    | .enc _ | .encend => p = .enc
    | .decb _ | .decend => p = .dec := by
  intro h
  cases i <;> cases p <;> trivial

/-- The low byte of a word that decodes to a command is that command's (R60). -/
theorem imm8_of_decode {w : CmdWord} {i : Instr} (h : decode w = .ok i) : CmdWord.imm8 w = i.imm8 ∧
    CmdWord.op w = i.opcode := by
  unfold decode plainCommand at h
  dsimp only at h
  generalize CmdWord.op w = a at *
  generalize CmdWord.imm8 w = v at *
  split at h
  · cases h; exact ⟨rfl, ‹_›⟩
  split at h
  · cases h; exact ⟨rfl, ‹_›⟩
  split at h
  · cases h; exact ⟨rfl, ‹_›⟩
  split at h
  · next hp =>
    split at h
    · next hv =>
      cases h
      subst hv
      repeat' split at hp
      all_goals first | (cases hp; exact ⟨rfl, ‹_›⟩) | cases hp
    · cases h
  · cases h

end Sys2Proof.Machine
end

