-- ==== Sys2Proof/Laws/Invariant.lean ====
section
/-!
SUPPORT. The invariant of each unit is about that unit's registers, and which command keeps it: one lemma per unit that
carries it to a state with the same registers, and one per command that writes them.
-/

namespace Sys2Proof.Machine

variable {s t : State}

/-! ## Reading depends on the memory read only -/

theorem countAt_congr (h : t.st = s.st) : t.countAt = s.countAt := by funext y; simp [State.countAt, h]

theorem orderAt_congr (h : t.st = s.st) (he : t.epoch = s.epoch) : t.orderAt = s.orderAt := by
  funext i; simp [State.orderAt, h, he]

theorem nodeAt_congr (h : t.tb.node = s.tb.node) (hp : t.params = s.params) (he : t.epoch = s.epoch) :
    t.nodeAt = s.nodeAt := by funext k; simp [State.nodeAt, h, hp, he]

theorem cvalidAt_congr (h : t.cg = s.cg) : t.cvalidAt = s.cvalidAt := by funext y; simp [State.cvalidAt, h]

theorem clenAt_congr (h : t.cg = s.cg) (he : t.epoch = s.epoch) : t.clenAt = s.clenAt := by
  funext y; simp [State.clenAt, h, he]

theorem cbitsAt_congr (h : t.cg = s.cg) (he : t.epoch = s.epoch) : t.cbitsAt = s.cbitsAt := by
  funext y; simp [State.cbitsAt, h, he]

theorem code_congr (h : t.cg = s.cg) (he : t.epoch = s.epoch) : t.code = s.code := by
  funext y; simp [State.code, clenAt_congr h he, cbitsAt_congr h he]

theorem pkmemAt_congr (h : t.en.pkmem = s.en.pkmem) (he : t.epoch = s.epoch) : t.pkmemAt = s.pkmemAt := by
  funext i; simp [State.pkmemAt, h, he]

theorem follow_congr (h : t.nodeAt = s.nodeAt) : t.follow = s.follow := by
  funext k q
  induction q generalizing k with
  | nil => rfl
  | cons b q ih => simp only [State.follow, h, ih]

theorem leafFor_congr (h : t.st = s.st) (he : t.epoch = s.epoch) : t.leafFor = s.leafFor := by
  funext i; simp [State.leafFor, countAt_congr h, orderAt_congr h he]

/-! ## The invariants depend on the units they are about -/

theorem SymbolTableOk.congr (h : SymbolTableOk s) (hst : t.st = s.st) (hp : t.params = s.params) : SymbolTableOk t := by
  have hc := countAt_congr hst
  have hsym : t.symbols = s.symbols := by simp [State.symbols, hst]
  refine ⟨?_, ?_, ?_, ?_, ?_, ?_, ?_⟩
  · rw [hst]; exact h.count_wf
  · rw [hst]; exact h.nsym_le
  · rw [hst]; exact h.order_listed
  · rw [hsym]; exact h.order_nodup
  · rw [hc, hsym]; exact h.counted_iff
  · rw [hst, h.total_eq, State.countSum, State.countSum, hc]
  · rw [hst, hp]; exact h.total_fits

theorem TreeShape.congr (h : TreeShape s) (hst : t.st = s.st) (htb : t.tb.node = s.tb.node)
    (hnn : t.tb.nnode = s.tb.nnode) (hr : t.tb.root = s.tb.root) (hp : t.params = s.params) (he : t.epoch = s.epoch) :
    TreeShape t := by
  have hn := nodeAt_congr htb hp he
  have hl : ∀ i, t.leafFor i = s.leafFor i := fun i => by rw [leafFor_congr hst he]
  refine ⟨?_, ?_, ?_, ?_, ?_, ?_, ?_⟩
  · rw [hst]; exact h.some_symbol
  · rw [hst, hnn]; exact h.nnode_eq
  · rw [hst, hr]; exact h.root_eq
  · rw [htb, hnn]; exact h.listed
  · intro i hi
    rw [hst] at hi
    rw [hn]
    exact (h.leaf_eq i hi).trans (hl i).symm
  · rw [hst, hnn, hn]; exact h.inner
  · have : t.children = s.children := by simp [State.children, hst, hn]
    rw [this, hr]; exact h.owned_once

theorem TreeOk.congr (h : TreeOk s) (hst : t.st = s.st) (htb : t.tb = s.tb) (hp : t.params = s.params)
    (he : t.epoch = s.epoch) (hw : t.workPhase = s.workPhase) : TreeOk t :=
  ⟨by rw [htb]; exact h.work_empty, by rw [htb, hw]; exact h.none_before, fun hc =>
    (h.built_after (hw ▸ hc)).congr hst (by rw [htb]) (by rw [htb]) (by rw [htb]) hp he⟩

theorem CodeBookShape.congr (h : CodeBookShape s) (hst : t.st = s.st) (htb : t.tb = s.tb) (hcg : t.cg = s.cg)
    (hp : t.params = s.params) (he : t.epoch = s.epoch) : CodeBookShape t := by
  have hn := nodeAt_congr (show t.tb.node = s.tb.node by rw [htb]) hp he
  refine ⟨?_, ?_, ?_, ?_, ?_, ?_, ?_, ?_, ?_⟩
  · rw [hcg]; exact h.clen_listed
  · rw [hcg]; exact h.cbits_listed
  · rw [cvalidAt_congr hcg, countAt_congr hst]; exact h.covered_iff
  · rw [hst, cvalidAt_congr hcg, code_congr hcg he]; exact h.one_symbol
  · rw [hst, cvalidAt_congr hcg, code_congr hcg he, follow_congr hn, htb, hn]; exact h.leaf_path
  · rw [hst, cvalidAt_congr hcg, clenAt_congr hcg he]; exact h.clen_range
  · rw [cvalidAt_congr hcg, clenAt_congr hcg he, cbitsAt_congr hcg he]; exact h.cbits_fits
  · rw [hcg, cvalidAt_congr hcg, clenAt_congr hcg he]; exact h.maxlen_bounds
  · rw [hcg, cvalidAt_congr hcg, clenAt_congr hcg he]; exact h.maxlen_reached

theorem CodeBookOk.congr (h : CodeBookOk s) (hst : t.st = s.st) (htb : t.tb = s.tb) (hcg : t.cg = s.cg)
    (hp : t.params = s.params) (he : t.epoch = s.epoch) (hw : t.workPhase = s.workPhase) : CodeBookOk t :=
  ⟨by rw [hcg]; exact h.cvalid_wf, by rw [hcg, hw]; exact h.none_before, fun h1 h2 =>
    (h.derived_after (hw ▸ h1) (hw ▸ h2)).congr hst htb hcg hp he⟩

theorem EncoderOk.congr (h : EncoderOk s) (hen : t.en = s.en) (hp : t.params = s.params) (he : t.epoch = s.epoch)
    (hw : (t.workPhase = .enc) = (s.workPhase = .enc)) : EncoderOk t := by
  have hpk := pkmemAt_congr (show t.en.pkmem = s.en.pkmem by rw [hen]) he
  have hw' : (t.workPhase ≠ .enc) = (s.workPhase ≠ .enc) := by simp only [ne_eq, hw]
  refine ⟨?_, ?_, ?_, ?_, ?_, ?_, ?_, ?_, ?_, ?_⟩
  · rw [hen]; exact h.nbits_le
  · rw [hen]; exact h.acc_lt
  · rw [hen, hp]; exact h.pkmem_wf
  · rw [hen, hp]; exact h.pklen_le
  · rw [hen]; exact h.written
  · rw [hen]; exact h.pad_le
  · rw [hen, hp]; exact h.enccnt_fits
  · rw [hen, hw']; exact h.idle_empty
  · rw [hen, hw, hpk]; exact h.encoding
  · rw [hen, hpk]; exact h.complete

theorem DecoderOk.congr (h : DecoderOk s) (hde : t.de = s.de) (hst : t.st = s.st) (htb : t.tb = s.tb)
    (hp : t.params = s.params) (he : t.epoch = s.epoch) (hw : (t.workPhase = .dec) = (s.workPhase = .dec)) :
    DecoderOk t := by
  have hn := nodeAt_congr (show t.tb.node = s.tb.node by rw [htb]) hp he
  have hw' : (t.workPhase ≠ .dec) = (s.workPhase ≠ .dec) := by simp only [ne_eq, hw]
  refine ⟨?_, ?_, ?_, ?_, ?_, ?_, ?_, ?_, ?_, ?_, ?_⟩
  · rw [hde]; exact h.dpad_le
  · rw [hde, hp]; exact h.domem_wf
  · rw [hde, hp]; exact h.dolen_le
  · rw [hde]; exact h.written
  · rw [hde, hp]; exact h.dbytes_fits
  · rw [hde]; exact h.hdrv_iff
  · rw [hde, hw']; exact h.idle
  · rw [hde, hw]; exact h.holdv_iff
  · rw [hde, hw]; exact h.running
  · rw [hde, hw, htb, hst, hn]; exact h.candidate
  · rw [hde]; exact h.dcur_node

/-- Outside the decoder's phase the tree may change: the rest of the decoder's invariant does not look at it. -/
theorem DecoderOk.congr_idle (h : DecoderOk s) (hde : t.de = s.de) (hp : t.params = s.params) (hs : s.workPhase ≠ .dec)
    (ht : t.workPhase ≠ .dec) : DecoderOk t := by
  refine ⟨?_, ?_, ?_, ?_, ?_, ?_, ?_, fun h' => absurd h' ht, fun h' => absurd h' ht, fun h' => absurd h' ht, ?_⟩
  · rw [hde]; exact h.dpad_le
  · rw [hde, hp]; exact h.domem_wf
  · rw [hde, hp]; exact h.dolen_le
  · rw [hde]; exact h.written
  · rw [hde, hp]; exact h.dbytes_fits
  · rw [hde]; exact h.hdrv_iff
  · rw [hde]; exact fun _ => h.idle hs
  · rw [hde]; exact h.dcur_node

/-! ## The phase of the work -/

theorem workPhase_running (h : s.phase ≠ .halt) : s.workPhase = s.phase := by simp [State.workPhase, h]

/-- A fault leaves the phase of the work as it was (R186). -/
theorem workPhase_raiseFault (h : s.phase ≠ .halt) (c : ECode) (low : Byte) :
    (s.raiseFault c low).workPhase = s.workPhase := by
  rw [workPhase_running h]
  rfl

theorem FaultRecordOk.of_running (h : FaultRecordOk s) (hs : s.phase ≠ .halt) (hfr : t.fr = s.fr) (ht : t.phase ≠ .halt) :
    FaultRecordOk t := by
  have hr := h.clear_when_running hs
  rw [hr] at hfr
  exact ⟨by simp [hfr, FaultRecord.reset, ht], by simp [hfr, FaultRecord.reset], fun _ => hfr,
    by simp [hfr, FaultRecord.reset]⟩

/-! ## Reset, CLR and the host's side -/

theorem inv_reset_like (h : s.params.wf = true) (hst : s.st = .reset) (htb : s.tb = .reset) (hcg : s.cg = .reset)
    (hen : s.en = .reset) (hde : s.de = .reset) (hph : s.phase = .count) (hfr : s.fr = .reset)
    (hrd : s.port.rdAddr < 2 ^ s.params.raW) : s.Inv := by
  have hw : s.workPhase = .count := by rw [workPhase_running (by simp [hph]), hph]
  have hdo : 1 ≤ s.params.pkDepth ∧ 1 ≤ s.params.doDepth := by
    simp only [Params.wf, Bool.and_eq_true, decide_eq_true_eq] at h
    exact ⟨h.1.2, h.2⟩
  refine ⟨h, ⟨?_, ?_, ?_, ?_⟩, ⟨?_, ?_, ?_, ?_, ?_, ?_, ?_⟩, ⟨?_, ?_, ?_⟩, ⟨?_, ?_, ?_⟩, ⟨?_, ?_, ?_, ?_, ?_, ?_, ?_, ?_, ?_, ?_⟩,
    ⟨?_, ?_, ?_, ?_, ?_, ?_, ?_, ?_, ?_, ?_, ?_⟩, hrd⟩
  all_goals
    simp [hw, hst, htb, hcg, hen, hde, hph, hfr, SymbolTable.reset, TreeUnit.reset, CodeUnit.reset, EncoderUnit.reset,
      DecoderUnit.reset, FaultRecord.reset, State.symbols, State.countAt, State.countSum, List.sum_eq_zero]

theorem inv_clear (h : s.Inv) : s.clear.Inv := inv_reset_like h.params_ok rfl rfl rfl rfl rfl rfl rfl h.rdAddr_fits

/-- Of the host's side of the ports the invariant says only that `rd_addr` fits its width. -/
theorem inv_port (h : s.Inv) (p : HostPort) (hp : p.rdAddr < 2 ^ s.params.raW) : ({ s with port := p } : State).Inv :=
  ⟨h.params_ok, ⟨h.fault_ok.1, h.fault_ok.2, h.fault_ok.3, h.fault_ok.4⟩, h.symbols_ok.congr rfl rfl,
    h.tree_ok.congr rfl rfl rfl rfl rfl, h.code_ok.congr rfl rfl rfl rfl rfl rfl, h.encoder_ok.congr rfl rfl rfl rfl,
    h.decoder_ok.congr rfl rfl rfl rfl rfl rfl, hp⟩

theorem inv_takeInput (h : s.Inv) (rest : List HostInput) : (s.takeInput rest).Inv := inv_port h _ h.rdAddr_fits

theorem inv_presentWord (h : s.Inv) (w : CmdWord) : (s.presentWord w).Inv := inv_port h _ h.rdAddr_fits

theorem inv_selectRead (h : s.Inv) (space : BitVec 3) (addr : Nat) : (s.selectRead space addr).Inv :=
  inv_port h _ (Nat.mod_lt _ (Nat.two_pow_pos _))

/-- The offset that a fault records fits EOFF (R199). -/
theorem offset_le (h : s.Inv) : s.offset ≤ s.params.lenMax := by
  have h1 := h.symbols_ok.total_fits
  have h2 := h.encoder_ok.enccnt_fits
  have h3 := h.decoder_ok.dbytes_fits
  unfold State.offset
  cases s.phase <;> simp <;> assumption

/-- Fault entry keeps the invariant (R186, R191). -/
theorem inv_raiseFault (h : s.Inv) (hs : s.phase ≠ .halt) {c : ECode} (hc : c ≠ .noFault) (low : Byte) :
    (s.raiseFault c low).Inv := by
  have hw := workPhase_raiseFault hs c low
  exact ⟨h.params_ok, ⟨by simp [hc], hs, fun h' => absurd rfl h', offset_le h⟩, h.symbols_ok.congr rfl rfl,
    h.tree_ok.congr rfl rfl rfl rfl hw, h.code_ok.congr rfl rfl rfl rfl rfl hw,
    h.encoder_ok.congr rfl rfl rfl (by rw [hw]), h.decoder_ok.congr rfl rfl rfl rfl rfl (by rw [hw]),
    h.rdAddr_fits⟩

/-! ## The commands that complete -/

theorem inv_sym {y : Byte} (h : s.Inv) (hp : s.phase = .count) (hb : symBody y s = .done t) : t.Inv := by
  have hsym := symBody_symbolTableOk h.symbols_ok hb
  obtain ⟨-, ht⟩ := symBody_done hb
  have hw : t.workPhase = s.workPhase := by rw [ht]; rfl
  have hws : s.workPhase = .count := by rw [workPhase_running (by simp [hp]), hp]
  have htb := h.tree_ok.none_before hws
  have hcg := h.code_ok.none_before (.inl hws)
  refine ⟨by rw [ht]; exact h.params_ok, ?_, hsym, ?_, ?_, ?_, ?_, by rw [ht]; exact h.rdAddr_fits⟩
  · exact h.fault_ok.of_running (by simp [hp]) (by rw [ht]) (by rw [ht]; simp [hp])
  · refine ⟨by rw [ht]; exact h.tree_ok.work_empty, fun _ => by rw [ht]; exact htb, fun h' => ?_⟩
    exact absurd (hw.trans hws) h'
  · refine ⟨by rw [ht]; exact h.code_ok.cvalid_wf, fun _ => by rw [ht]; exact hcg, fun h' => ?_⟩
    exact absurd (hw.trans hws) h'
  · exact h.encoder_ok.congr (by rw [ht]) (by rw [ht]) (by rw [ht]) (by rw [hw])
  · exact h.decoder_ok.congr_idle (by rw [ht]) (by rw [ht]) (by simp [hws]) (by simp [hw, hws])

theorem inv_build (h : s.Inv) (hp : s.phase = .count) (hb : buildBody s = .done t) : t.Inv := by
  have hws : s.workPhase = .count := by rw [workPhase_running (by simp [hp]), hp]
  have htb := h.tree_ok.none_before hws
  have hcg := h.code_ok.none_before (.inl hws)
  by_cases hn : s.st.nsym = 0
  · rw [buildBody_empty hn] at hb; cases hb
  · obtain ⟨t', ht', hfr, hwork, hshape, -⟩ := buildBody_spec h.symbols_ok.nsym_le htb (by omega)
    obtain rfl : t' = t := by rw [ht'] at hb; exact Performed.done.inj hb
    have hph : t'.phase = .tree := by rw [hfr]
    have hwt : t'.workPhase = .tree := by rw [workPhase_running (by simp [hph]), hph]
    refine ⟨by rw [hfr]; exact h.params_ok, ?_, h.symbols_ok.congr (by rw [hfr]) (by rw [hfr]), ?_, ?_, ?_, ?_,
      by rw [hfr]; exact h.rdAddr_fits⟩
    · exact h.fault_ok.of_running (by simp [hp]) (by rw [hfr]) (by simp [hph])
    · exact ⟨hwork, fun h' => (by rw [hwt] at h'; cases h'), fun _ => hshape⟩
    · refine ⟨by rw [hfr]; exact h.code_ok.cvalid_wf, fun _ => by rw [hfr]; exact hcg, fun _ h' => absurd hwt h'⟩
    · exact h.encoder_ok.congr (by rw [hfr]) (by rw [hfr]) (by rw [hfr]) (by rw [hwt, hws]; simp)
    · exact h.decoder_ok.congr_idle (by rw [hfr]) (by rw [hfr]) (by simp [hws]) (by simp [hwt])

theorem inv_gen (h : s.Inv) (hp : s.phase = .tree) (hb : genBody s = .done t) : t.Inv := by
  have hws : s.workPhase = .tree := by rw [workPhase_running (by simp [hp]), hp]
  have hshape := h.tree_ok.built_after (by simp [hws])
  obtain ⟨hfr, hcb, hcv⟩ := genBody_codeBook h.symbols_ok hshape (h.code_ok.none_before (.inr hws)) hb
  have hph : t.phase = .ready := by rw [hfr]
  have hwt : t.workPhase = .ready := by rw [workPhase_running (by simp [hph]), hph]
  refine ⟨by rw [hfr]; exact h.params_ok, ?_, h.symbols_ok.congr (by rw [hfr]) (by rw [hfr]), ?_, ?_, ?_, ?_,
    by rw [hfr]; exact h.rdAddr_fits⟩
  · exact h.fault_ok.of_running (by simp [hp]) (by rw [hfr]) (by simp [hph])
  · exact ⟨by rw [hfr]; exact h.tree_ok.work_empty, fun h' => (by rw [hwt] at h'; cases h'), fun _ =>
      hshape.congr (by rw [hfr]) (by rw [hfr]) (by rw [hfr]) (by rw [hfr]) (by rw [hfr]) (by rw [hfr])⟩
  · exact ⟨hcv, fun h' => (by rw [hwt] at h'; rcases h' with h' | h' <;> cases h'), fun _ _ => hcb⟩
  · exact h.encoder_ok.congr (by rw [hfr]) (by rw [hfr]) (by rw [hfr]) (by rw [hwt, hws]; simp)
  · exact h.decoder_ok.congr_idle (by rw [hfr]) (by rw [hfr]) (by simp [hws]) (by simp [hwt])

/-- What a command that writes the encoder and PHASE only must show to keep the invariant. -/
theorem inv_of_encoder {p : Phase} (h : s.Inv) (hs : s.phase ≠ .halt) (hfr : t = { s with en := t.en, phase := p })
    (hp1 : p = .ready ∨ p = .enc) (hs1 : s.phase = .ready ∨ s.phase = .enc) (hen : EncoderOk t) : t.Inv := by
  have hph : t.phase = p := by rw [hfr]
  have hrun : t.phase ≠ .halt := by rw [hph]; rcases hp1 with rfl | rfl <;> simp
  have hwt : t.workPhase = p := by rw [workPhase_running hrun, hph]
  have hws : s.workPhase = s.phase := workPhase_running hs
  have hst : t.st = s.st := by rw [hfr]
  have htb : t.tb = s.tb := by rw [hfr]
  have hcg : t.cg = s.cg := by rw [hfr]
  have hpa : t.params = s.params := by rw [hfr]
  have hep : t.epoch = s.epoch := by rw [hfr]
  refine ⟨by rw [hpa]; exact h.params_ok, ?_, h.symbols_ok.congr hst hpa, ?_, ?_, hen, ?_,
    by rw [hfr]; exact h.rdAddr_fits⟩
  · exact h.fault_ok.of_running hs (by rw [hfr]) hrun
  · refine ⟨by rw [htb]; exact h.tree_ok.work_empty, fun h' => ?_, fun _ =>
      (h.tree_ok.built_after ?_).congr hst (by rw [htb]) (by rw [htb]) (by rw [htb]) hpa hep⟩
    · rw [hwt] at h'; rcases hp1 with rfl | rfl <;> cases h'
    · rw [hws]; rcases hs1 with h' | h' <;> simp [h']
  · refine ⟨by rw [hcg]; exact h.code_ok.cvalid_wf, fun h' => ?_, fun _ _ =>
      (h.code_ok.derived_after ?_ ?_).congr hst htb hcg hpa hep⟩
    · rw [hwt] at h'; rcases hp1 with rfl | rfl <;> rcases h' with h' | h' <;> cases h'
    · rw [hws]; rcases hs1 with h' | h' <;> simp [h']
    · rw [hws]; rcases hs1 with h' | h' <;> simp [h']
  · exact h.decoder_ok.congr_idle (by rw [hfr]) hpa (by rw [hws]; rcases hs1 with h' | h' <;> simp [h'])
      (by rw [hwt]; rcases hp1 with rfl | rfl <;> simp)

theorem inv_encbeg (h : s.Inv) (hp : s.phase = .ready) (hb : encbegBody s = .done t) : t.Inv := by
  have hpk : 1 ≤ s.params.pkDepth := by
    have := h.params_ok
    simp only [Params.wf, Bool.and_eq_true, decide_eq_true_eq] at this
    exact this.1.2
  simp only [encbegBody, Performed.done.injEq] at hb
  subst hb
  refine inv_of_encoder (p := .enc) h (by simp [hp]) rfl (.inr rfl) (.inl hp) ?_
  refine ⟨by simp, by simp, wf_write h.encoder_ok.pkmem_wf _ _, hpk, ?_, by simp, by simp, by simp, fun _ => ?_, by simp⟩
  · intro i hi
    obtain rfl : i = 0 := by simpa using hi
    show (Mem.find (Mem.write _ _ _ _ _) _).isSome
    rw [find_write_self (by omega) (by simp)]
    rfl
  · refine ⟨le_rfl, rfl, rfl, ?_⟩
    show (Mem.find (Mem.write _ _ _ _ _) _).getD _ = _
    rw [find_write_self (by omega) (by simp)]
    rfl

theorem inv_enc {y : Byte} (h : s.Inv) (hp : s.phase = .enc) (hb : encBody y s = .done t) : t.Inv := by
  have hok := h.encoder_ok
  have hws : s.workPhase = .enc := by rw [workPhase_running (by simp [hp]), hp]
  rcases encBody_cases y s with ⟨-, h'⟩ | ⟨-, -, h'⟩ | ⟨-, hcnt, hroom, h'⟩
  · rw [h'] at hb; cases hb
  · rw [h'] at hb; cases hb
  · rw [h', Performed.done.injEq] at hb
    set u := (s.code y).foldl State.encBit s with hu
    have hufr := foldl_encBit_frame (s.code y) s
    rw [← hu] at hufr
    obtain ⟨hpk, hkeep⟩ := foldl_encBit_packed (s.code y) (packed_pending hok.nbits_le hok.acc_lt)
      (by rw [pendingBits_length, code_length]; exact hroom)
    rw [← hu] at hpk hkeep
    have hacc := hpk.acc_lt
    have hupar : u.params = s.params := by rw [hufr]
    have hpklen := hpk.pklen_eq
    simp only [List.length_append, pendingBits_length, code_length] at hpklen hkeep
    obtain ⟨he1, he2, he3, he4⟩ := hok.encoding hws
    have hfr : t = { s with en := t.en, phase := .enc } := by rw [← hb, hufr, ← hp]
    have hfind : ∀ i, i < s.en.pklen → Mem.find t.en.pkmem i = Mem.find s.en.pkmem i := by
      intro i hi
      rw [← hb]
      exact hkeep i (by omega)
    refine inv_of_encoder h (by simp [hp]) hfr (.inr rfl) (.inr hp) ?_
    have hwt : t.workPhase = .enc := by rw [hfr]; rfl
    refine ⟨?_, ?_, ?_, ?_, ?_, ?_, ?_, ?_, ?_, ?_⟩
    · rw [← hb]; exact hacc.1
    · rw [← hb]; exact hacc.2
    · rw [hfr, ← hb]; exact foldl_encBit_wf (s.code y) hok.pkmem_wf
    · rw [hfr, ← hb]; show u.en.pklen ≤ s.params.pkDepth; omega
    · intro i hi
      by_cases hi' : i < s.en.pklen
      · rw [hfind i hi']; exact hok.written i hi'
      · have hj : i - s.en.pklen < (s.pendingBits ++ s.code y).length / 8 := by
          have : i < u.en.pklen := by rw [← hb] at hi; exact hi
          simp only [List.length_append, pendingBits_length, code_length]
          omega
        have := hpk.bytes_eq _ hj
        rw [show s.en.pklen + (i - s.en.pklen) = i by omega] at this
        rw [← hb]
        show (Mem.find u.en.pkmem i).isSome
        rw [this]
        rfl
    · rw [← hb, hufr]; exact hok.pad_le
    · have := hok.enccnt_fits
      rw [hfr, ← hb]
      show s.en.enccnt + 1 ≤ s.params.lenMax
      omega
    · intro h'; exact absurd hwt h'
    · intro _
      refine ⟨?_, ?_, ?_, ?_⟩
      · rw [← hb]; show 1 ≤ u.en.pklen; omega
      · rw [← hb, hufr]; exact he2
      · rw [← hb, hufr]; exact he3
      · have hep : t.epoch = s.epoch := by rw [hfr]
        have := hfind 0 (by omega)
        simp only [State.pkmemAt, this, hep] at he4 ⊢
        exact he4
    · intro h'
      rw [← hb, hufr] at h'
      rw [show _ = s.en.pkvalid from rfl, he2] at h'
      cases h'

theorem finishStream_pkmemAt (p : Nat) (h : 0 < s.params.pkDepth) : (s.finishStream p).pkmemAt 0 = BitVec.ofNat 8 p := by
  show (Mem.find (Mem.write _ _ _ _ _) _).getD _ = _
  rw [find_write_self h (by simp)]
  rfl

theorem inv_encend (h : s.Inv) (hp : s.phase = .enc) (hb : encendBody s = .done t) : t.Inv := by
  have hok := h.encoder_ok
  have hws : s.workPhase = .enc := by rw [workPhase_running (by simp [hp]), hp]
  obtain ⟨he1, he2, he3, he4⟩ := hok.encoding hws
  have hpk : 0 < s.params.pkDepth := by have := hok.pklen_le; omega
  have hfin : ∀ (u : State) (p : Nat), u.params = s.params → p ≤ 7 → Mem.wf s.params.pkDepth none u.en.pkmem = true →
      1 ≤ u.en.pklen → u.en.pklen ≤ s.params.pkDepth → (∀ i, i < u.en.pklen → (Mem.find u.en.pkmem i).isSome) →
      u.en.enccnt = s.en.enccnt → EncoderOk (u.finishStream p) := by
    intro u p hpa hp7 hwf h1 hle hwr hcnt
    have hw : (u.finishStream p).workPhase = .ready := rfl
    refine ⟨by simp [State.finishStream], by simp [State.finishStream], ?_, ?_, ?_, hp7, ?_, fun _ => rfl, ?_, fun _ => ⟨h1, ?_⟩⟩
    · show Mem.wf u.params.pkDepth none (Mem.write u.params.pkDepth none u.en.pkmem 0 _) = true
      rw [hpa]; exact wf_write hwf _ _
    · show u.en.pklen ≤ u.params.pkDepth
      rw [hpa]; exact hle
    · intro i hi
      show (Mem.find (Mem.write u.params.pkDepth none u.en.pkmem 0 _) i).isSome
      by_cases h0 : i = 0
      · rw [h0, find_write_self (by rw [hpa]; exact hpk) (by simp)]; rfl
      · rw [find_write_of_ne _ _ _ h0]; exact hwr i hi
    · show u.en.enccnt ≤ u.params.lenMax
      rw [hcnt, hpa]; exact hok.enccnt_fits
    · intro h'; rw [hw] at h'; cases h'
    · exact finishStream_pkmemAt p (by rw [hpa]; exact hpk)
  unfold encendBody at hb
  split at hb
  · next hn =>
    split at hb
    · cases hb
    · next hroom =>
      rw [Performed.done.injEq] at hb
      subst hb
      refine inv_of_encoder (p := .ready) h (by simp [hp]) rfl (.inl rfl) (.inr hp) (hfin _ _ rfl (by omega) ?_ ?_ ?_ ?_ rfl)
      · exact wf_write hok.pkmem_wf _ _
      · show 1 ≤ s.en.pklen + 1; omega
      · show s.en.pklen + 1 ≤ _; omega
      · intro i hi
        have hi' : i < s.en.pklen + 1 := hi
        show (Mem.find (Mem.write s.params.pkDepth none s.en.pkmem s.en.pklen _) i).isSome
        by_cases h0 : i = s.en.pklen
        · rw [h0, find_write_self (by omega) (by simp)]; rfl
        · rw [find_write_of_ne _ _ _ h0]; exact hok.written i (by omega)
  · rw [Performed.done.injEq] at hb
    subst hb
    exact inv_of_encoder (p := .ready) h (by simp [hp]) rfl (.inl rfl) (.inr hp)
      (hfin s 0 rfl (by omega) hok.pkmem_wf he1 hok.pklen_le hok.written rfl)

/-- What a command that writes the decoder and PHASE only must show to keep the invariant. -/
theorem inv_of_decoder {p : Phase} (h : s.Inv) (hs : s.phase ≠ .halt) (hfr : t = { s with de := t.de, phase := p })
    (hp1 : p = .ready ∨ p = .dec) (hs1 : s.phase = .ready ∨ s.phase = .dec) (hde : DecoderOk t) : t.Inv := by
  have hph : t.phase = p := by rw [hfr]
  have hrun : t.phase ≠ .halt := by rw [hph]; rcases hp1 with rfl | rfl <;> simp
  have hwt : t.workPhase = p := by rw [workPhase_running hrun, hph]
  have hws : s.workPhase = s.phase := workPhase_running hs
  have hst : t.st = s.st := by rw [hfr]
  have htb : t.tb = s.tb := by rw [hfr]
  have hcg : t.cg = s.cg := by rw [hfr]
  have hpa : t.params = s.params := by rw [hfr]
  have hep : t.epoch = s.epoch := by rw [hfr]
  refine ⟨by rw [hpa]; exact h.params_ok, ?_, h.symbols_ok.congr hst hpa, ?_, ?_, ?_, hde,
    by rw [hfr]; exact h.rdAddr_fits⟩
  · exact h.fault_ok.of_running hs (by rw [hfr]) hrun
  · refine ⟨by rw [htb]; exact h.tree_ok.work_empty, fun h' => ?_, fun _ =>
      (h.tree_ok.built_after ?_).congr hst (by rw [htb]) (by rw [htb]) (by rw [htb]) hpa hep⟩
    · rw [hwt] at h'; rcases hp1 with rfl | rfl <;> cases h'
    · rw [hws]; rcases hs1 with h' | h' <;> simp [h']
  · refine ⟨by rw [hcg]; exact h.code_ok.cvalid_wf, fun h' => ?_, fun _ _ =>
      (h.code_ok.derived_after ?_ ?_).congr hst htb hcg hpa hep⟩
    · rw [hwt] at h'; rcases hp1 with rfl | rfl <;> rcases h' with h' | h' <;> cases h'
    · rw [hws]; rcases hs1 with h' | h' <;> simp [h']
    · rw [hws]; rcases hs1 with h' | h' <;> simp [h']
  · refine h.encoder_ok.congr (by rw [hfr]) hpa hep ?_
    rw [hwt, hws]
    rcases hp1 with rfl | rfl <;> rcases hs1 with h' | h' <;> simp [h']

theorem tree_of_ready (h : s.Inv) (hs : s.phase = .ready ∨ s.phase = .enc ∨ s.phase = .dec) : TreeShape s := by
  refine h.tree_ok.built_after ?_
  rw [workPhase_running (by rcases hs with h' | h' | h' <;> simp [h'])]
  rcases hs with h' | h' | h' <;> simp [h']

theorem nnode_le (h : s.Inv) (ht : TreeShape s) : s.tb.nnode ≤ nodeMax := by
  have h1 := ht.nnode_eq
  have h2 := h.symbols_ok.nsym_le
  simp only [alpha, nodeMax] at *
  omega

theorem inv_decbeg (h : s.Inv) (hp : s.phase = .ready) (hb : decbegBody s = .done t) : t.Inv := by
  have ht := tree_of_ready h (.inl hp)
  have hok := h.decoder_ok
  have hroot := ht.root_eq
  have hnn := ht.nnode_eq
  have h1 := ht.some_symbol
  have hle := nnode_le h ht
  simp only [decbegBody, Performed.done.injEq] at hb
  subst hb
  refine inv_of_decoder (p := .dec) h (by simp [hp]) rfl (.inr rfl) (.inl hp) ?_
  refine ⟨by simp, hok.domem_wf, by simp, by simp, by simp, by simp, fun _ => ⟨rfl, rfl⟩, fun _ => by simp, fun _ => rfl,
    fun _ => ⟨?_, fun _ => rfl, fun h2 => ⟨(show (s.nodeAt s.tb.root).leaf = false from root_inner ht h2), rfl⟩⟩, ?_⟩
  · show s.tb.root < s.tb.nnode; omega
  · show s.tb.root < nodeMax; omega

theorem candidate_start (h : s.Inv) (hp : s.phase = .dec) : s.Candidate ⟨s.de.dcur, s.de.dead, []⟩ :=
  h.decoder_ok.candidate (by rw [workPhase_running (by simp [hp]), hp])

/-- The commit of a walk from DCUR keeps the decoder's memory and its count in order (R158). -/
theorem commit_spec (h : DecoderOk s) {v : Byte} {lo : Nat} {r : Walk} (hr : s.walk v lo = some r) :
    (∃ m, s.commit r = { s with de := { s.de with
        dcur := r.cur, dead := r.dead, domem := m, dolen := s.de.dolen + r.out.length } } ∧
      Mem.wf s.params.doDepth none m = true ∧ ∀ i, i < s.de.dolen + r.out.length → (Mem.find m i).isSome) ∧
    s.de.dolen + r.out.length ≤ s.params.doDepth := by
  have hroom := (walkBits_out hr (by simpa using h.dolen_le)).1
  obtain ⟨⟨m, h1⟩, h2, h3, h4⟩ := foldl_appendDomem r.out { s with de := { s.de with dcur := r.cur, dead := r.dead } } hroom
  refine ⟨⟨m, h1, ?_, ?_⟩, hroom⟩
  · have := h4 h.domem_wf
    rwa [h1] at this
  · intro i hi
    by_cases hi' : i < s.de.dolen
    · have := h2 i (.inl hi')
      rw [h1] at this
      rw [show Mem.find m i = Mem.find s.de.domem i from this]
      exact h.written i hi'
    · have := h3 (i - s.de.dolen) (by omega)
      rw [h1] at this
      rw [show s.de.dolen + (i - s.de.dolen) = i from by omega] at this
      rw [show Mem.find m i = _ from this]
      rfl

theorem inv_decb {b : Byte} (h : s.Inv) (hp : s.phase = .dec) (hb : decbBody b s = .done t) : t.Inv := by
  have hws : s.workPhase = .dec := by rw [workPhase_running (by simp [hp]), hp]
  have ht := tree_of_ready h (.inr (.inr hp))
  have hok := h.decoder_ok
  have hhold := hok.holdv_iff hws
  have hcand := hok.candidate hws
  unfold decbBody at hb
  split at hb
  · cases hb
  · next hcnt =>
    have hfit : s.de.dbytes + 1 ≤ s.params.lenMax := by have := hok.dbytes_fits; omega
    split at hb
    · next hh =>
      have h0 : s.de.dbytes = 0 := by
        by_contra h'
        rw [hok.hdrv_iff.2 (by omega)] at hh
        cases hh
      split at hb
      · cases hb
      · next hb7 =>
        rw [Performed.done.injEq] at hb
        subst hb
        refine inv_of_decoder (p := .dec) h (by simp [hp]) (by rw [← hp]; rfl) (.inr rfl) (.inr hp) ?_
        exact ⟨by simpa using hb7, hok.domem_wf, hok.dolen_le, hok.written, hfit, by simp [State.countByte],
          fun h' => absurd hws h', fun _ => by simpa [State.countByte, h0] using hhold, hok.running, hok.candidate,
          hok.dcur_node⟩
    · next hh =>
      have hh' : s.de.hdrv = true := by simpa using hh
      have h1 := hok.hdrv_iff.1 hh'
      split at hb
      · next hv =>
        split at hb
        · cases hb
        · next r hr =>
          rw [Performed.done.injEq] at hb
          obtain ⟨⟨m, hm, hmwf, hmwr⟩, hroom⟩ := commit_spec hok hr
          have hc := walkBits_candidate ht (candidate_start h hp) hr
          have hle := nnode_le h ht
          rw [hm] at hb
          subst hb
          refine inv_of_decoder (p := .dec) h (by simp [hp]) (by rw [← hp]; rfl) (.inr rfl) (.inr hp) ?_
          exact ⟨hok.dpad_le, hmwf, hroom, hmwr, hfit, by simp [State.countByte, State.holdByte, hh'], fun h' => absurd hws h',
            fun _ => by simp [State.countByte, State.holdByte]; omega, hok.running, fun _ => hc,
            lt_of_lt_of_le hc.1 hle⟩
      · rw [Performed.done.injEq] at hb
        subst hb
        refine inv_of_decoder (p := .dec) h (by simp [hp]) (by rw [← hp]; rfl) (.inr rfl) (.inr hp) ?_
        exact ⟨hok.dpad_le, hok.domem_wf, hok.dolen_le, hok.written, hfit, by simp [State.countByte, State.holdByte, hh'],
          fun h' => absurd hws h', fun _ => by simp [State.countByte, State.holdByte]; omega, hok.running, hok.candidate,
          hok.dcur_node⟩

theorem inv_decend (h : s.Inv) (hp : s.phase = .dec) (hb : decendBody s = .done t) : t.Inv := by
  have hws : s.workPhase = .dec := by rw [workPhase_running (by simp [hp]), hp]
  have ht := tree_of_ready h (.inr (.inr hp))
  have hok := h.decoder_ok
  have hroot := ht.root_eq
  have hnn := ht.nnode_eq
  have h1 := ht.some_symbol
  have hle := nnode_le h ht
  have hfin : ∀ r : Walk, s.finishDecode r = .done t →
      (∃ m, s.commit r = { s with de := { s.de with
          dcur := r.cur, dead := r.dead, domem := m, dolen := s.de.dolen + r.out.length } } ∧
        Mem.wf s.params.doDepth none m = true ∧ ∀ i, i < s.de.dolen + r.out.length → (Mem.find m i).isSome) →
      s.de.dolen + r.out.length ≤ s.params.doDepth → t.Inv := by
    intro r hf hcm hroom
    obtain ⟨m, hm, hmwf, hmwr⟩ := hcm
    unfold State.finishDecode at hf
    split at hf
    · cases hf
    · next hne =>
      have hdead : r.dead = false := by
        cases hd : r.dead
        · rfl
        · exact absurd (.inl hd) hne
      have hcur : r.cur = s.tb.root := by
        by_contra h'
        exact hne (.inr h')
      dsimp only at hf
      rw [Performed.done.injEq, hm] at hf
      subst hf
      refine inv_of_decoder (p := .ready) h (by simp [hp]) rfl (.inl rfl) (.inr hp) ?_
      refine ⟨hok.dpad_le, hmwf, hroom, hmwr, hok.dbytes_fits, hok.hdrv_iff, fun _ => ⟨rfl, hdead⟩, fun h' => ?_, fun h' => ?_,
        fun h' => ?_, ?_⟩
      · cases (show Phase.ready = Phase.dec from h')
      · cases (show Phase.ready = Phase.dec from h')
      · cases (show Phase.ready = Phase.dec from h')
      · show r.cur < nodeMax
        omega
  unfold decendBody at hb
  split at hb
  · cases hb
  · split at hb
    · split at hb
      · cases hb
      · refine hfin _ hb ⟨s.de.domem, rfl, hok.domem_wf, fun i hi => hok.written i (by simpa using hi)⟩
          (by simpa using hok.dolen_le)
    · split at hb
      · cases hb
      · next r hr =>
        obtain ⟨hcm, hroom⟩ := commit_spec hok hr
        exact hfin r hb hcm hroom

end Sys2Proof.Machine
end

