-- ==== Sys2Proof/Laws/Paths.lean ====
section
/-!
SUPPORT. Paths in the tree and the CodeBook (R124, R160): a path to a leaf is unique, and the codes of the CodeBook are
exactly the paths from ROOT to the leaves.
-/

namespace Sys2Proof.Machine

variable {s : State}

/-- The stored form gives back its numeral (R71). -/
theorem bitVal_codeString {n : Nat} {c : CodeBits} (h : c.toNat < 2 ^ n) : bitVal (codeString n c) = c.toNat := by
  apply Nat.eq_of_testBit_eq
  intro i
  by_cases hi : i < n
  · have := testBit_bitVal (codeString n c) (j := n - 1 - i) (by simp; omega)
    simp only [codeString_length, show n - 1 - (n - 1 - i) = i by omega] at this
    rw [this]
    simp only [codeString, List.getElem_map, List.getElem_range, show n - 1 - (n - 1 - i) = i by omega]
    rfl
  · have hp : 2 ^ n ≤ 2 ^ i := Nat.pow_le_pow_right (by omega) (by omega)
    have := bitVal_lt (codeString n c)
    rw [codeString_length] at this
    rw [Nat.testBit_lt_two_pow (by omega), Nat.testBit_lt_two_pow (by omega)]

theorem follow_append (s : State) (a b : BitString) (k : Nat) :
    s.follow k (a ++ b) = (s.follow k a).bind (fun j => s.follow j b) := by
  induction a generalizing k with
  | nil => rfl
  | cons x a ih =>
    simp only [List.cons_append, State.follow]
    split
    · rfl
    · exact ih _

/-- A path does not go on from a leaf. -/
theorem follow_leaf {k j : Nat} {q : BitString} (h : (s.nodeAt k).leaf = true) (hf : s.follow k q = some j) : q = [] := by
  cases q with
  | nil => rfl
  | cons x q => simp [State.follow, h] at hf

/-- A path leads to a node, at or below where it starts; a path that is not empty leads strictly below. -/
theorem follow_lt (ht : TreeShape s) {k j : Nat} {q : BitString} (hk : k < s.tb.nnode) (hf : s.follow k q = some j) :
    j ≤ k ∧ (q ≠ [] → j < k) := by
  induction q generalizing k with
  | nil => cases hf; exact ⟨le_rfl, fun h => absurd rfl h⟩
  | cons x q ih =>
    simp only [State.follow] at hf
    split at hf
    · cases hf
    · next hl =>
      have hn : s.st.nsym ≤ k := by
        by_contra h
        exact hl (by rw [ht.leaf_eq k (by omega)])
      have hc := ht.child_lt hk hn x
      have := ih (by omega) hf
      exact ⟨by omega, fun _ => by omega⟩

/-- A path to a leaf is among the leaves below its start. -/
theorem mem_below_of_follow (ht : TreeShape s) (fuel : Nat) {k j : Nat} {q : BitString} (hk : k < s.tb.nnode)
    (hfu : k < fuel) (hf : s.follow k q = some j) (hj : (s.nodeAt j).leaf = true) : (j, q) ∈ s.below fuel k := by
  induction fuel generalizing k q with
  | zero => omega
  | succ fuel ih =>
    cases q with
    | nil => cases hf; simp [State.below, hj]
    | cons x q =>
      simp only [State.follow] at hf
      split at hf
      · cases hf
      · next hl =>
        have hn : s.st.nsym ≤ k := by
          by_contra h
          exact hl (by rw [ht.leaf_eq k (by omega)])
        have hc := ht.child_lt hk hn x
        have := ih (k := (s.nodeAt k).child x) (by omega) (by omega) hf
        rw [State.below, if_neg hl, List.mem_append, List.mem_map, List.mem_map]
        cases x
        · exact .inl ⟨_, this, rfl⟩
        · exact .inr ⟨_, this, rfl⟩

/-- Each leaf is below ROOT once, so the path from ROOT to a leaf is unique (R106). -/
theorem path_unique (ht : TreeShape s) {j : Nat} {p q : BitString}
    (hp : s.follow s.tb.root p = some j) (hq : s.follow s.tb.root q = some j) (hj : (s.nodeAt j).leaf = true) :
    p = q := by
  have hroot := ht.root_eq
  have hnn := ht.nnode_eq
  have h1 := ht.some_symbol
  have hnd : ((s.below (s.tb.root + 1) s.tb.root).map Prod.fst).Nodup :=
    (leavesBelow_root ht).nodup_iff.2 List.nodup_range
  have ha := mem_below_of_follow ht (s.tb.root + 1) (by omega) (by omega) hp hj
  have hb := mem_below_of_follow ht (s.tb.root + 1) (by omega) (by omega) hq hj
  have := List.inj_on_of_nodup_map hnd ha hb rfl
  exact congrArg Prod.snd this

/-- The leaf of a symbol is one node (R108). -/
theorem leaf_of_sym (hs : SymbolTableOk s) (ht : TreeShape s) {j k : Nat} (hj : j < s.tb.nnode) (hk : k < s.tb.nnode)
    (hlj : (s.nodeAt j).leaf = true) (hlk : (s.nodeAt k).leaf = true) (h : (s.nodeAt j).sym = (s.nodeAt k).sym) :
    j = k := by
  have hj' := (ht.leaf_iff hj).1 hlj
  have hk' := (ht.leaf_iff hk).1 hlk
  rw [ht.leaf_eq j hj', ht.leaf_eq k hk'] at h
  have hnd := hs.order_nodup
  rw [symbols_eq_map hs] at hnd
  exact List.inj_on_of_nodup_map hnd (List.mem_range.2 hj') (List.mem_range.2 hk') h

/-- With two or more symbols, a path from ROOT to a leaf is the code of the leaf's symbol (R124). -/
theorem code_eq_path (hs : SymbolTableOk s) (ht : TreeShape s) (hc : CodeBookShape s) (h2 : 2 ≤ s.st.nsym) {k : Nat}
    {q : BitString} (hf : s.follow s.tb.root q = some k) (hl : (s.nodeAt k).leaf = true) :
    s.cvalidAt (s.nodeAt k).sym = true ∧ s.code (s.nodeAt k).sym = q := by
  have hroot := ht.root_eq
  have hnn := ht.nnode_eq
  have hk := (follow_lt ht (show s.tb.root < s.tb.nnode by omega) hf).1
  have hkn := (ht.leaf_iff (show k < s.tb.nnode by omega)).1 hl
  have hv : s.cvalidAt (s.nodeAt k).sym = true := by
    rw [hc.covered_iff, hs.counted_iff, symbols_eq_map hs, ht.leaf_eq k hkn]
    exact List.mem_map_of_mem (List.mem_range.2 hkn)
  obtain ⟨j, h1, h3, h4⟩ := hc.leaf_path h2 _ hv
  have hj := (follow_lt ht (show s.tb.root < s.tb.nnode by omega) h1).1
  obtain rfl := leaf_of_sym hs ht (by omega) (by omega) h3 hl h4
  exact ⟨hv, path_unique ht h1 hf h3⟩

/-- With two or more symbols, the codes that the traversal lists are those of the CodeBook, one per symbol (R121). -/
theorem codeList_perm (hs : SymbolTableOk s) (ht : TreeShape s) (hc : CodeBookShape s) (h2 : 2 ≤ s.st.nsym) :
    s.codeList.Perm (s.symbols.map fun y => (y, s.code y)) := by
  have h : s.codeList = (s.codeList.map Prod.fst).map fun y => (y, s.code y) := by
    rw [List.map_map]
    refine List.ext_getElem (by simp) fun i hi _ => ?_
    have hm := List.getElem_mem hi
    obtain ⟨k, hf, hl, hy, -⟩ := codeList_mem ht (y := s.codeList[i].1) (q := s.codeList[i].2) hm
    have := (code_eq_path hs ht hc h2 hf hl).2
    rw [hy] at this
    simp [this]
  rw [h]
  exact (codeList_symbols hs ht).map _

end Sys2Proof.Machine
end

