-- ==== Sys2Proof/Laws/Words.lean ====
section
/-!
SUPPORT. The two bytes of a command word (R60), and decoding by them (R63).
-/

namespace Sys2Proof

theorem op_append (a b : Byte) : CmdWord.op (a ++ b) = a := by
  unfold CmdWord.op
  apply BitVec.eq_of_getLsbD_eq
  intro i hi
  have h : ¬ 8 + i < 8 := by omega
  have := BitVec.getLsbD_append (x := a) (y := b) (i := 8 + i)
  rw [if_neg h, Nat.add_sub_cancel_left] at this
  rw [BitVec.getLsbD_extractLsb', decide_eq_true hi, Bool.true_and]
  exact this

theorem imm8_append (a b : Byte) : CmdWord.imm8 (a ++ b) = b := by
  unfold CmdWord.imm8
  apply BitVec.eq_of_getLsbD_eq
  intro i hi
  have := BitVec.getLsbD_append (x := a) (y := b) (i := i)
  rw [if_pos hi] at this
  rw [BitVec.getLsbD_extractLsb', decide_eq_true hi, Bool.true_and, Nat.zero_add]
  exact this

theorem op_append_imm8 (w : CmdWord) : CmdWord.op w ++ CmdWord.imm8 w = w := by
  apply BitVec.eq_of_getLsbD_eq
  intro i hi
  refine (BitVec.getLsbD_append (x := CmdWord.op w) (y := CmdWord.imm8 w) (i := i)).trans ?_
  unfold CmdWord.op CmdWord.imm8
  split
  · next h => rw [BitVec.getLsbD_extractLsb', decide_eq_true h, Bool.true_and, Nat.zero_add]
  · next h =>
    rw [BitVec.getLsbD_extractLsb', decide_eq_true (show i - 8 < 8 by omega), Bool.true_and,
      show 8 + (i - 8) = i by omega]

/-- Decoding of a word given by its two bytes (R63). -/
theorem decode_append (a b : Byte) : decode (a ++ b) =
    if a = 0x10 then .ok (.sym b)
    else if a = 0x21 then .ok (.enc b)
    else if a = 0x31 then .ok (.decb b)
    else match plainCommand a with
      | some i => if b = 0 then .ok i else .error .nonzeroOperand
      | none => .error .unassignedOpcode := by
  unfold decode
  rw [op_append, imm8_append] <;> rfl

/-- Every word is the two bytes it is made of. -/
theorem exists_bytes (w : CmdWord) : ∃ a b : Byte, w = a ++ b := ⟨_, _, (op_append_imm8 w).symm⟩

end Sys2Proof
end

