-- ==== Sys2Proof/Laws/PerInstr.lean ====
section
/-!
SUPPORT. The statements made for every command as syntax, one lemma per constructor.
-/

namespace Sys2Proof.Laws.Encoding

/-- The word that the encoder gives a command selects the row of the opcode map with the command's mnemonic, and carries
the command's operand in its low byte (R60, R62, R65). -/
def Statement (i : Instr) : Prop :=
  (∃ r ∈ opcodeMap, r.mnemonic = i.mnemonic ∧ r.selectedBy (encode i) = true) ∧ CmdWord.imm8 (encode i) = i.imm8

theorem nop : Statement .nop := ⟨⟨⟨"NOP", 0x0000, 0xFFFF⟩, by decide⟩, by decide⟩

theorem clr : Statement .clr := ⟨⟨⟨"CLR", 0x0100, 0xFFFF⟩, by decide⟩, by decide⟩

theorem sym (s : Byte) : Statement (.sym s) :=
  ⟨⟨⟨"SYM", 0x1000, 0xFF00⟩, by decide, rfl, by revert s; decide⟩, imm8_append _ _⟩

theorem build : Statement .build := ⟨⟨⟨"BUILD", 0x1100, 0xFFFF⟩, by decide⟩, by decide⟩

theorem gen : Statement .gen := ⟨⟨⟨"GEN", 0x1200, 0xFFFF⟩, by decide⟩, by decide⟩

theorem encbeg : Statement .encbeg := ⟨⟨⟨"ENCBEG", 0x2000, 0xFFFF⟩, by decide⟩, by decide⟩

theorem enc (s : Byte) : Statement (.enc s) :=
  ⟨⟨⟨"ENC", 0x2100, 0xFF00⟩, by decide, rfl, by revert s; decide⟩, imm8_append _ _⟩

theorem encend : Statement .encend := ⟨⟨⟨"ENCEND", 0x2200, 0xFFFF⟩, by decide⟩, by decide⟩

theorem decbeg : Statement .decbeg := ⟨⟨⟨"DECBEG", 0x3000, 0xFFFF⟩, by decide⟩, by decide⟩

theorem decb (b : Byte) : Statement (.decb b) :=
  ⟨⟨⟨"DECB", 0x3100, 0xFF00⟩, by decide, rfl, by revert b; decide⟩, imm8_append _ _⟩

theorem decend : Statement .decend := ⟨⟨⟨"DECEND", 0x3200, 0xFFFF⟩, by decide⟩, by decide⟩

end Sys2Proof.Laws.Encoding
end

