-- ==== Sys2Proof/Laws/Streams.lean ====
section
/-!
SUPPORT. Whole encodings and decodings (R140, R143, R166): the state between commands in phases ENC and DEC, as one
relation each, with one lemma per command.
-/

namespace Sys2Proof.Machine

variable {s t : State}

/-! ## Sequences of commands -/

theorem execAll_append (a b : List Instr) (s : State) :
    execAll (a ++ b) s =
      match execAll a s with
      | .next t => execAll b t
      | .fault r => .fault r
      | .refused r => .refused r := by
  induction a generalizing s with
  | nil => rfl
  | cons i a ih =>
    simp only [List.cons_append, execAll]
    cases exec i s with
    | next t => exact ih t
    | fault r => rfl
    | refused r => rfl

/-- A halted core ignores every command but CLR (R192). -/
theorem execAll_halted {l : List Instr} (hs : s.phase = .halt) (hl : ∀ i ∈ l, i ≠ .clr) : execAll l s = .next s := by
  induction l with
  | nil => rfl
  | cons i l ih =>
    rw [execAll, exec_halted hs (hl i List.mem_cons_self)]
    exact ih fun j hj => hl j (List.mem_cons_of_mem _ hj)

/-! ## Encoding -/

theorem codes_length (s : State) (l : List Byte) (y : Byte) :
    (s.codes (l ++ [y])).length = (s.codes l).length + s.clenAt y := by
  simp [State.codes]

/-- t is s after ENCBEG and the ENC commands of l (R143). -/
structure Encoding (s : State) (l : List Byte) (t : State) : Prop where
  frame : t = { s with en := t.en, phase := .enc }
  packed : Packed t 1 (s.codes l)
  enccnt_eq : t.en.enccnt = l.length
  pad_eq : t.en.pad = 0
  pkvalid_eq : t.en.pkvalid = false
  first : Mem.find t.en.pkmem 0 = some 0
  kept : ∀ i, i ≠ 0 → t.en.pklen ≤ i → Mem.find t.en.pkmem i = Mem.find s.en.pkmem i

theorem encbeg_encoding (hp : s.phase = .ready) (hd : 1 ≤ s.params.pkDepth) :
    ∃ t, exec .encbeg s = .next t ∧ Encoding s [] t := by
  refine ⟨_, exec_done (i := .encbeg) (by simp [Instr.legalIn, hp]) rfl, rfl,
    ⟨rfl, by simp [State.codes], by simp [State.codes], fun j hj => absurd hj (by simp [State.codes])⟩,
    rfl, rfl, rfl, ?_, fun i hi _ => ?_⟩
  · exact find_write_self (by omega) (by simp)
  · exact find_write_of_ne _ _ _ hi

/-- One ENC command with room for it (R136). -/
theorem enc_encoding {l : List Byte} {y : Byte} (h : Encoding s l t) (hy : s.cvalidAt y = true)
    (hcnt : l.length ≠ s.params.lenMax)
    (hroom : 1 + ((s.codes l).length + s.clenAt y) / 8 ≤ s.params.pkDepth) :
    ∃ u, exec (.enc y) t = .next u ∧ Encoding s (l ++ [y]) u := by
  obtain ⟨hfr, hpk, hc, hpad, hpv, hf, hk⟩ := h
  have hcode : t.code y = s.code y := by rw [hfr]; rfl
  have hclen : t.clenAt y = s.clenAt y := by rw [hfr]; rfl
  have hcv : t.cvalidAt y = true := by rw [hfr]; exact hy
  have hpar : t.params = s.params := by rw [hfr]
  have hph : t.phase = .enc := by rw [hfr]
  have hroom' : t.en.pklen + (t.en.nbits + t.clenAt y) / 8 = 1 + ((s.codes l).length + s.clenAt y) / 8 := by
    rw [hpk.pklen_eq, hpk.nbits_eq, hclen]; omega
  rcases encBody_cases y t with ⟨h1, -⟩ | ⟨-, h1, -⟩ | ⟨-, -, -, hb⟩
  · rw [hcv] at h1; cases h1
  · rw [hc, hpar, hroom'] at h1
    rcases h1 with h1 | h1
    · exact absurd h1 hcnt
    · omega
  · refine ⟨_, exec_done (i := .enc y) (by simp [Instr.legalIn, hph]) hb, ?_⟩
    obtain ⟨hp1, hp2⟩ := foldl_encBit_packed (t.code y) hpk (by rw [code_length, hclen, hpar]; exact hroom)
    have hcodes : s.codes l ++ t.code y = s.codes (l ++ [y]) := by simp [State.codes, hcode]
    rw [hcodes] at hp1
    rw [code_length, hclen] at hp2
    have hfr2 := foldl_encBit_frame (t.code y) t
    set v := (t.code y).foldl State.encBit t with hv
    refine ⟨?_, ⟨hp1.nbits_eq, hp1.pklen_eq, hp1.acc_eq, hp1.bytes_eq⟩, ?_, ?_, ?_, ?_, fun i hi hle => ?_⟩
    · rw [hfr2, hfr]
    · show t.en.enccnt + 1 = _
      rw [hc]; simp
    · show v.en.pad = 0
      rw [hfr2]; exact hpad
    · show v.en.pkvalid = false
      rw [hfr2]; exact hpv
    · exact (hp2 0 (.inl (by omega))).trans hf
    · have hle' : v.en.pklen ≤ i := hle
      have h1 := hp1.pklen_eq
      rw [codes_length] at h1
      have h2 := hpk.pklen_eq
      exact (hp2 i (.inr (by omega))).trans (hk i hi (by omega))

/-- ENCEND with room for a last byte, if one is needed (R138). -/
theorem encend_encoding {l : List Byte} (h : Encoding s l t) (hd : 1 ≤ s.params.pkDepth)
    (hroom : 1 + ((s.codes l).length + padding (s.codes l).length) / 8 ≤ s.params.pkDepth) :
    ∃ u, exec .encend t = .next u ∧ u = { s with en := u.en, phase := .ready } ∧
      u.en.pklen = 1 + ((s.codes l).length + padding (s.codes l).length) / 8 ∧
      u.en.acc = 0 ∧ u.en.nbits = 0 ∧ u.en.pad = padding (s.codes l).length ∧ u.en.pkvalid = true ∧
      u.en.enccnt = l.length ∧
      Mem.find u.en.pkmem 0 = some (BitVec.ofNat 8 (padding (s.codes l).length)) ∧
      (∀ j, j < ((s.codes l).length + padding (s.codes l).length) / 8 → Mem.find u.en.pkmem (1 + j) =
        some (packByte (((s.codes l ++ List.replicate (padding (s.codes l).length) false).drop (8 * j)).take 8))) ∧
      (∀ i, u.en.pklen ≤ i → Mem.find u.en.pkmem i = Mem.find s.en.pkmem i) := by
  obtain ⟨hfr, hpk, hc, hpad, hpv, hf, hk⟩ := h
  have hpar : t.params = s.params := by rw [hfr]
  have hph : t.phase = .enc := by rw [hfr]
  have hbytes := hpk.bytes_eq
  have hacc := hpk.acc_eq
  have hnb := hpk.nbits_eq
  have hpl := hpk.pklen_eq
  set b := s.codes l with hb
  have hleg : Instr.legalIn .encend t.phase = true := by simp [Instr.legalIn, hph]
  have hgroup : ∀ j, j < b.length / 8 → ∀ z : BitString, ((b ++ z).drop (8 * j)).take 8 = (b.drop (8 * j)).take 8 := by
    intro j hj z
    rw [List.drop_append_of_le_length (by omega), List.take_append_of_le_length (by rw [List.length_drop]; omega)]
  by_cases h0 : t.en.nbits > 0
  · have hp : padding b.length = 8 - t.en.nbits := by unfold padding; omega
    have hdiv : (b.length + padding b.length) / 8 = b.length / 8 + 1 := by rw [hp]; omega
    have hbody : encendBody t = .done ((t.appendPkmem (BitVec.ofNat 8 (t.en.acc.toNat * 2 ^ (8 - t.en.nbits)))).finishStream
        (8 - t.en.nbits)) := by
      unfold encendBody
      rw [if_pos h0, if_neg (by rw [hpar]; omega)]
    refine ⟨_, exec_done hleg hbody, ?_, ?_, rfl, rfl, hp.symm, rfl, hc, ?_, fun j hj => ?_, fun i hi => ?_⟩
    · conv_lhs => rw [hfr]
      simp only [State.finishStream, State.appendPkmem, State.writePkmem]
      rw [hfr]
    · show t.en.pklen + 1 = _
      omega
    · rw [hp]
      show Mem.find (Mem.write t.params.pkDepth none _ 0 _) 0 = _
      exact find_write_self (by rw [hpar]; omega) (by simp)
    · show Mem.find (Mem.write t.params.pkDepth none (Mem.write t.params.pkDepth none t.en.pkmem t.en.pklen _) 0 _) (1 + j) = _
      rw [find_write_of_ne _ _ _ (by omega)]
      rcases Nat.lt_or_ge j (b.length / 8) with hj' | hj'
      · rw [find_write_of_ne _ _ _ (by omega), hbytes j hj', hgroup j hj']
      · rw [show 1 + j = t.en.pklen by omega, find_write_self (by rw [hpar]; omega) (by simp)]
        have hje : j = b.length / 8 := by omega
        have hdl : (b.drop (8 * j)).length = t.en.nbits := by rw [List.length_drop]; omega
        rw [List.drop_append_of_le_length (by omega), List.take_of_length_le (by
          rw [List.length_append, hdl, List.length_replicate, hp]; omega), packByte, bitVal_append, List.length_replicate,
          hp, hacc, hje]
        have hz : ∀ n, bitVal (List.replicate n false) = 0 := by
          intro n
          induction n with
          | zero => rfl
          | succ n ih => rw [List.replicate_succ, bitVal_cons, ih]; simp
        rw [hz, Nat.add_zero]
    · have hi' : t.en.pklen + 1 ≤ i := hi
      show Mem.find (Mem.write t.params.pkDepth none (Mem.write t.params.pkDepth none t.en.pkmem t.en.pklen _) 0 _) i = _
      rw [find_write_of_ne _ _ _ (by omega), find_write_of_ne _ _ _ (by omega)]
      exact hk i (by omega) (by omega)
  · have hp : padding b.length = 0 := by unfold padding; omega
    have hbody : encendBody t = .done (t.finishStream 0) := by
      unfold encendBody
      rw [if_neg h0]
    rw [hp] at hroom ⊢
    refine ⟨_, exec_done hleg hbody, ?_, ?_, rfl, rfl, rfl, rfl, hc, ?_, fun j hj => ?_, fun i hi => ?_⟩
    · conv_lhs => rw [hfr]
      simp only [State.finishStream, State.writePkmem]
      rw [hfr]
    · exact hpl
    · show Mem.find (Mem.write t.params.pkDepth none _ 0 _) 0 = _
      exact find_write_self (by rw [hpar]; omega) (by simp)
    · show Mem.find (Mem.write t.params.pkDepth none t.en.pkmem 0 _) (1 + j) = _
      rw [find_write_of_ne _ _ _ (by omega), hbytes j (by omega), hgroup j (by omega)]
    · have hi' : t.en.pklen ≤ i := hi
      show Mem.find (Mem.write t.params.pkDepth none t.en.pkmem 0 _) i = _
      rw [find_write_of_ne _ _ _ (by omega)]
      exact hk i (by omega) hi'

/-! ## Bytes and bits (R44) -/

/-- The bits of a packed group of 8 are the group (R44). -/
theorem byteBits_packByte {g : BitString} (h : g.length = 8) : byteBits (packByte g) 0 = g := by
  refine List.ext_getElem (by simp [h]) fun j hj1 hj2 => ?_
  have := testBit_bitVal g hj2
  simp only [byteBits, List.getElem_map, List.getElem_range, packByte, BitVec.getLsbD_ofNat]
  rw [h] at this
  rw [show 7 - j = 8 - 1 - j by omega, this]
  simp only [byteBits, List.length_map, List.length_range] at hj1
  simp
  omega

theorem byteBits_eq_take (v : Byte) (lo : Nat) : byteBits v lo = (byteBits v 0).take (8 - lo) := by
  simp only [byteBits, ← List.map_take, List.take_range]
  congr 2
  omega

/-! ## Decoding -/

/-- The walk does not depend on where the output begins: symbols already committed count against the room as symbols
emitted in this walk do (R157, R158). -/
theorem walkBits_shift {u : State} (hn : ∀ k, t.nodeAt k = u.nodeAt k) (hr : t.tb.root = u.tb.root)
    (hd : t.params.doDepth = u.params.doDepth) (pre : List Byte) (hl : t.de.dolen = u.de.dolen + pre.length)
    (q : BitString) (cur : Nat) (dead : Bool) (out : List Byte) :
    u.walkBits q ⟨cur, dead, pre ++ out⟩ =
      (t.walkBits q ⟨cur, dead, out⟩).map fun r => { r with out := pre ++ r.out } := by
  induction q generalizing cur dead out with
  | nil => rfl
  | cons x q ih =>
    have hemit : ∀ y cur dead, u.emit y ⟨cur, dead, pre ++ out⟩ =
        (t.emit y ⟨cur, dead, out⟩).map fun r => { r with out := pre ++ r.out } := by
      intro y cur dead
      unfold State.emit
      simp only [List.length_append, hl, hd, ← Nat.add_assoc]
      split
      · rfl
      · simp
    have hbit : u.decBit ⟨cur, dead, pre ++ out⟩ x =
        (t.decBit ⟨cur, dead, out⟩ x).map fun r => { r with out := pre ++ r.out } := by
      unfold State.decBit
      simp only [hn, hr]
      split
      · rfl
      · split
        · split
          · rfl
          · exact hemit _ _ _
        · split
          · exact hemit _ _ _
          · rfl
    simp only [State.walkBits, hbit]
    cases h : t.decBit ⟨cur, dead, out⟩ x with
    | none => rfl
    | some r => exact ih r.cur r.dead r.out

/-- t is s after DECBEG, DECB of the first byte p and DECB of the code bytes cs followed by c, the last of which is held:
the walk of the others has given r (R166). -/
structure Decoding (s : State) (p : Byte) (cs : List Byte) (c : Byte) (r : Walk) (t : State) : Prop where
  frame : t = { s with de := t.de, phase := .dec }
  hdrv_eq : t.de.hdrv = true
  dpad_eq : t.de.dpad = p.toNat
  hold_eq : t.de.hold = c
  holdv_eq : t.de.holdv = true
  dovalid_eq : t.de.dovalid = false
  dbytes_eq : t.de.dbytes = cs.length + 2
  walked : s.decodeBits (cs.flatMap fun c => byteBits c 0) = some r
  cur_eq : t.de.dcur = r.cur
  dead_eq : t.de.dead = r.dead
  dolen_eq : t.de.dolen = r.out.length
  fits : t.de.dolen ≤ s.params.doDepth
  out_eq : ∀ j (h : j < r.out.length), Mem.find t.de.domem j = some r.out[j]

/-- DECBEG, DECB of a valid first byte, DECB of the first code byte (R155, R156). -/
theorem decoding_start (hp : s.phase = .ready) {p : Byte} (h7 : p.toNat ≤ 7) (c : Byte) (hm : 2 ≤ s.params.lenMax) :
    ∃ t, execAll [.decbeg, .decb p, .decb c] s = .next t ∧
      Decoding s p [] c { cur := s.tb.root, dead := false, out := [] } t := by
  let t1 : State := { s with
    de := { s.de with hdrv := false, dpad := 0, hold := 0, holdv := false, dcur := s.tb.root, dead := false, dolen := 0, dovalid := false, dbytes := 0 }
    phase := .dec }
  let t2 : State := State.countByte { t1 with de := { t1.de with dpad := p.toNat, hdrv := true } }
  have e1 : exec .decbeg s = .next t1 := exec_done (i := .decbeg) (by simp [Instr.legalIn, hp]) rfl
  have e2 : exec (.decb p) t1 = .next t2 := by
    refine exec_done (i := .decb p) (by simp [Instr.legalIn, t1]) ?_
    show decbBody p t1 = _
    unfold decbBody
    rw [if_neg (show ¬ t1.de.dbytes = t1.params.lenMax by show ¬ 0 = s.params.lenMax; omega), if_pos rfl,
      if_neg (by omega)]
  have e3 : exec (.decb c) t2 = .next (t2.holdByte c).countByte := by
    refine exec_done (i := .decb c) (by simp [Instr.legalIn, t2, t1, State.countByte]) ?_
    show decbBody c t2 = _
    unfold decbBody
    rw [if_neg (show ¬ t2.de.dbytes = t2.params.lenMax by show ¬ 0 + 1 = s.params.lenMax; omega),
      if_neg (by simp [t2, State.countByte]), if_neg (by simp [t2, t1, State.countByte])]
  refine ⟨(t2.holdByte c).countByte, ?_, ?_⟩
  · simp only [execAll, e1, e2, e3]
  · exact ⟨rfl, rfl, rfl, rfl, rfl, rfl, rfl, rfl, rfl, rfl, rfl, Nat.zero_le _, fun j h => absurd h (by simp)⟩

theorem decodeBits_append (s : State) (a b : BitString) :
    s.decodeBits (a ++ b) =
      (s.decodeBits a).bind (State.walkBits { s with de := { s.de with dolen := 0 } } b) := walkBits_append _ _ _ _

/-- The held byte of a decoding, walked from the registers, is the next stretch of the whole walk. -/
theorem Decoding.walk_eq {p : Byte} {cs : List Byte} {c : Byte} {r : Walk} (h : Decoding s p cs c r t) (lo : Nat) :
    s.decodeBits ((cs.flatMap fun c => byteBits c 0) ++ byteBits c lo) =
      (t.walk c lo).map fun q => { q with out := r.out ++ q.out } := by
  rw [decodeBits_append, h.walked, State.walk, h.cur_eq, h.dead_eq]
  have hn : ∀ k, t.nodeAt k = State.nodeAt { s with de := { s.de with dolen := 0 } } k := fun k => by rw [h.frame]; rfl
  have := walkBits_shift (t := t) (u := { s with de := { s.de with dolen := 0 } }) hn (by rw [h.frame])
    (by rw [h.frame]) r.out (by rw [h.dolen_eq]; simp) (byteBits c lo) r.cur r.dead []
  simpa using this

/-- The commit of the walk of the held byte: DOMEM holds the symbols emitted so far (R158). -/
theorem Decoding.commit {p : Byte} {cs : List Byte} {c : Byte} {r q : Walk} {lo : Nat} (h : Decoding s p cs c r t)
    (hq : t.walk c lo = some q) :
    (t.commit q).de.dolen = (r.out ++ q.out).length ∧ (t.commit q).de.dolen ≤ s.params.doDepth ∧
      ∀ j (hj : j < (r.out ++ q.out).length), Mem.find (t.commit q).de.domem j = some (r.out ++ q.out)[j] := by
  have hpar : t.params = s.params := by rw [h.frame]
  have hroom := (walkBits_out hq (by simpa [hpar] using h.fits)).1
  obtain ⟨⟨m, h1⟩, h2, h3, -⟩ := foldl_appendDomem q.out { t with de := { t.de with dcur := q.cur, dead := q.dead } } hroom
  have hc : t.commit q = q.out.foldl State.appendDomem { t with de := { t.de with dcur := q.cur, dead := q.dead } } := rfl
  have hd : (t.commit q).de.dolen = (r.out ++ q.out).length := by
    rw [hc, h1, List.length_append, ← h.dolen_eq]
  refine ⟨hd, ?_, fun j hj => ?_⟩
  · rw [hd, List.length_append, ← h.dolen_eq, ← hpar]; exact hroom
  · rw [hc]
    by_cases hj' : j < r.out.length
    · rw [h2 j (.inl (by show j < t.de.dolen; rw [h.dolen_eq]; exact hj')), List.getElem_append_left hj']
      exact h.out_eq j hj'
    · simp only [List.length_append] at hj
      have := h3 (j - r.out.length) (by omega)
      rw [show t.de.dolen = r.out.length from h.dolen_eq, show r.out.length + (j - r.out.length) = j by omega] at this
      rw [List.getElem_append_right (by omega)]
      exact this

/-- One more code byte: the held byte is walked (R156). Either the walk of all the bytes before it finds DOMEM full, and
the command faults, or the decoding goes on. -/
theorem decb_decoding {p : Byte} {cs : List Byte} {c : Byte} {r : Walk} (h : Decoding s p cs c r t) (c' : Byte)
    (hm : cs.length + 2 ≠ s.params.lenMax) :
    (s.decodeBits ((cs ++ [c]).flatMap fun c => byteBits c 0) = none ∧
      exec (.decb c') t = .next (t.raiseFault .capacity c')) ∨
    ∃ q u, s.decodeBits ((cs ++ [c]).flatMap fun c => byteBits c 0) = some q ∧ exec (.decb c') t = .next u ∧
      Decoding s p (cs ++ [c]) c' q u := by
  have hbits : ((cs ++ [c]).flatMap fun c => byteBits c 0) = (cs.flatMap fun c => byteBits c 0) ++ byteBits c 0 := by simp
  have hw := h.walk_eq 0
  rw [← hbits] at hw
  have hleg : Instr.legalIn (.decb c') t.phase = true := by rw [h.frame]; simp [Instr.legalIn]
  have hpar : t.params = s.params := by rw [h.frame]
  cases hq : t.walk c 0 with
  | none =>
    rw [hq] at hw
    refine .inl ⟨hw, exec_raise (i := .decb c') hleg ?_⟩
    simp only [commandBody, decbBody, h.dbytes_eq, h.hdrv_eq, h.holdv_eq, h.hold_eq, hpar, hq]
    rw [if_neg hm, if_neg (by simp), if_pos trivial]
  | some q =>
    rw [hq] at hw
    refine .inr ⟨_, ((t.commit q).holdByte c').countByte, hw, exec_done (i := .decb c') hleg ?_, ?_⟩
    · simp only [commandBody, decbBody, h.dbytes_eq, h.hdrv_eq, h.holdv_eq, h.hold_eq, hpar, hq]
      rw [if_neg hm, if_neg (by simp), if_pos trivial]
    · obtain ⟨h1, h2, h3⟩ := h.commit hq
      have hfr := commit_frame t q
      refine ⟨?_, ?_, ?_, rfl, rfl, ?_, ?_, hw, ?_, ?_, h1, h2, h3⟩
      · rw [hfr, h.frame]; rfl
      · rw [hfr]; exact h.hdrv_eq
      · rw [hfr]; exact h.dpad_eq
      · rw [hfr]; exact h.dovalid_eq
      · rw [hfr]; show t.de.dbytes + 1 = _; rw [h.dbytes_eq]; simp
      · rw [hfr]; rfl
      · rw [hfr]; rfl

/-! ## The walk of codes (R160, R165) -/

/-- The walk of a path to a leaf, with DOMEM full, is CAPACITY (R157). -/
theorem walkBits_follow_full (s : State) (hroot : (s.nodeAt s.tb.root).leaf = false) (q : BitString) {k j : Nat}
    (hk : (s.nodeAt k).leaf = false) (hf : s.follow k q = some j) (hj : (s.nodeAt j).leaf = true) (out : List Byte)
    (hroom : s.de.dolen + out.length = s.params.doDepth) : s.walkBits q ⟨k, false, out⟩ = none := by
  induction q generalizing k with
  | nil =>
    obtain rfl : k = j := by simpa [State.follow] using hf
    rw [hk] at hj; cases hj
  | cons x q ih =>
    simp only [State.follow, hk, Bool.false_eq_true, if_false] at hf
    simp only [State.walkBits, State.decBit, hroot, Bool.false_eq_true, if_false]
    by_cases hc : (s.nodeAt ((s.nodeAt k).child x)).leaf = true
    · simp [hc, State.emit, hroom]
    · rw [if_neg hc]
      exact ih (by simpa using hc) hf

/-- The walk of the code of a symbol from an empty candidate emits the symbol, or finds DOMEM full (R160, R165). -/
theorem walkBits_code (hs : SymbolTableOk s) (ht : TreeShape s) (hc : CodeBookShape s) {y : Byte}
    (hy : s.cvalidAt y = true) (out : List Byte) :
    s.walkBits (s.code y) ⟨s.tb.root, false, out⟩ =
      if s.de.dolen + out.length = s.params.doDepth then none else some ⟨s.tb.root, false, out ++ [y]⟩ := by
  have hn := ht.some_symbol
  by_cases h1 : s.st.nsym = 1
  · have hl := (root_leaf_iff ht).2 h1
    have hr : s.tb.root = 0 := by have := ht.root_eq; omega
    have hsym : (s.nodeAt s.tb.root).sym = y := by
      have h := (hs.counted_iff y).1 ((hc.covered_iff y).1 hy)
      rw [symbols_eq_map hs, h1] at h
      rw [hr, ht.leaf_eq 0 (by omega)]
      exact (List.mem_singleton.1 (show y ∈ [s.orderAt 0] from h)).symm
    rw [hc.one_symbol h1 y hy]
    simp only [State.walkBits, State.decBit, hl, State.emit, hsym]
    by_cases h : s.de.dolen + out.length = s.params.doDepth <;> simp [h]
  · obtain ⟨k, hf, hl, hsym⟩ := hc.leaf_path (by omega) y hy
    have hroot := root_inner ht (show 2 ≤ s.st.nsym by omega)
    split
    · next h => exact walkBits_follow_full s hroot _ hroot hf hl out h
    · next h =>
      rw [walkBits_follow s hroot _ hroot hf hl out h, hsym]

end Sys2Proof.Machine
end

