-- ==== Sys2Proof/Laws/Weights.lean ====
section
/-!
SUPPORT. Sums of counts and of weights (R14, R108): what the weight conservation of the tree and the widths of WEIGHT
rest on.
-/

namespace Sys2Proof.Machine

variable {s : State}

/-- A sum over indexes below N of a function that is 0 outside a list of distinct indexes is the sum over the list. -/
theorem sum_range_eq_sum_list (f : Nat → Nat) (l : List Nat) (N : Nat) (hl : l.Nodup) (hlt : ∀ i ∈ l, i < N)
    (hz : ∀ i, i < N → i ∉ l → f i = 0) : ((List.range N).map f).sum = (l.map f).sum := by
  have h1 : ((List.range N).filter (fun i => decide (i ∈ l))).Perm l := by
    refine (List.perm_ext_iff_of_nodup (List.nodup_range.filter _) hl).2 fun a => ?_
    simp only [List.mem_filter, List.mem_range, decide_eq_true_eq]
    exact ⟨fun h => h.2, fun h => ⟨hlt a h, h⟩⟩
  rw [← (h1.map f).sum_eq]
  have hz' : ∀ i ∈ List.range N, i ∉ l → f i = 0 := fun i hi => hz i (List.mem_range.1 hi)
  clear h1 hlt hz
  revert hz'
  induction List.range N with
  | nil => intro _; rfl
  | cons a r ih =>
    intro hz'
    have ih' := ih fun i hi => hz' i (List.mem_cons_of_mem _ hi)
    by_cases ha : a ∈ l
    · simp [ha, ih']
    · simp [ha, ih', hz' a List.mem_cons_self ha]

/-- TOTAL is the sum of the counts of the symbols in ORDER (R14). -/
theorem sum_counts_symbols (hs : SymbolTableOk s) : (s.symbols.map s.countAt).sum = s.st.total := by
  have h := sum_range_eq_sum_list (fun i => s.countAt (BitVec.ofNat 8 i)) (s.symbols.map BitVec.toNat) alpha
    (hs.order_nodup.map fun _ _ => BitVec.eq_of_toNat_eq) (fun i hi => by
      obtain ⟨y, -, rfl⟩ := List.mem_map.1 hi
      exact y.isLt) (fun i hi hn => by
      have : ¬ 1 ≤ s.countAt (BitVec.ofNat 8 i) := fun h => hn (List.mem_map.2
        ⟨_, (hs.counted_iff _).1 h, by simpa using Nat.mod_eq_of_lt hi⟩)
      show s.countAt (BitVec.ofNat 8 i) = 0
      omega)
  have hm : (s.symbols.map BitVec.toNat).map (fun i => s.countAt (BitVec.ofNat 8 i)) = s.symbols.map s.countAt := by
    rw [List.map_map]
    exact List.map_congr_left fun y _ => congrArg s.countAt (ofNat_toNat_byte y)
  rw [hm] at h
  exact (hs.total_eq.trans h).symm

theorem countAt_le_total (hs : SymbolTableOk s) (y : Byte) : s.countAt y ≤ s.st.total := by
  by_cases h : 1 ≤ s.countAt y
  · rw [← sum_counts_symbols hs]
    exact List.single_le_sum (fun _ _ => Nat.zero_le _) _ (List.mem_map_of_mem ((hs.counted_iff y).1 h))
  · omega

/-- Every node but ROOT is the child of a later node (R106). -/
theorem exists_parent (ht : TreeShape s) {j : Nat} (hj : j < s.tb.root) :
    ∃ k, s.st.nsym ≤ k ∧ k < s.tb.nnode ∧ (j = (s.nodeAt k).left ∨ j = (s.nodeAt k).right) := by
  have h1 := ht.some_symbol
  have hnn := ht.nnode_eq
  have hm : j ∈ s.children := ht.owned_once.mem_iff.2 (List.mem_range.2 hj)
  simp only [State.children, List.mem_flatMap, List.mem_range'_1] at hm
  obtain ⟨k, hk, hjk⟩ := hm
  exact ⟨k, hk.1, by omega, by simpa using hjk⟩

/-- The weights of the leaves sum to the weight of ROOT (R108). -/
theorem sum_leaves_eq_root (ht : TreeShape s) :
    ((List.range s.st.nsym).map fun i => (s.nodeAt i).weight).sum = (s.nodeAt s.tb.root).weight := by
  have h1 := ht.some_symbol
  have hnn := ht.nnode_eq
  have hroot := ht.root_eq
  set n := s.st.nsym with hn
  set f : Nat → Nat := fun i => (s.nodeAt i).weight with hf
  have hsum : ((List.range' n (n - 1)).map f).sum = ((List.range (2 * n - 2)).map f).sum := by
    rw [← hroot, ← (ht.owned_once.map f).sum_eq, State.children, ← hn]
    have : ∀ l : List Nat, (∀ k ∈ l, n ≤ k ∧ k < s.tb.nnode) →
        (l.map f).sum = ((l.flatMap fun k => [(s.nodeAt k).left, (s.nodeAt k).right]).map f).sum := by
      intro l
      induction l with
      | nil => intro _; rfl
      | cons k l ih =>
        intro hl
        have hk := hl k List.mem_cons_self
        have := (ht.inner k hk.1 hk.2).2.2.2.2
        have ih' := ih fun k hk => hl k (List.mem_cons_of_mem _ hk)
        simp only [List.map_cons, List.sum_cons, List.flatMap_cons, List.map_append, List.sum_append, List.map_nil,
          List.sum_nil, ih']
        simp only [hf] at this ⊢
        omega
    refine this _ fun k hk => ?_
    simp only [List.mem_range'_1] at hk
    exact ⟨hk.1, by omega⟩
  rcases Nat.lt_or_ge 1 n with h2 | h2
  · have e1 : List.range' n (n - 1) = List.range' n (n - 2) ++ [2 * n - 2] := by
      rw [show n - 1 = (n - 2) + 1 by omega, List.range'_concat]
      simp; omega
    have e2 : List.range (2 * n - 2) = List.range n ++ List.range' n (n - 2) := by
      rw [List.range_eq_range', List.range_eq_range', show 2 * n - 2 = n + (n - 2) by omega]
      simpa using (List.range'_append_1 (s := 0) (m := n) (n := n - 2)).symm
    rw [e1, e2] at hsum
    simp only [List.map_append, List.sum_append, List.map_cons, List.map_nil, List.sum_cons, List.sum_nil] at hsum
    rw [hroot]
    show _ = f (2 * n - 2)
    omega
  · have : n = 1 := by omega
    rw [hroot, this]
    simp [hf]

/-- No weight exceeds that of ROOT (R108). -/
theorem weight_le_root (ht : TreeShape s) {j : Nat} (hj : j < s.tb.nnode) :
    (s.nodeAt j).weight ≤ (s.nodeAt s.tb.root).weight := by
  have hnn := ht.nnode_eq
  have hroot := ht.root_eq
  have h1 := ht.some_symbol
  obtain ⟨d, hd⟩ : ∃ d, s.tb.root - j = d := ⟨_, rfl⟩
  induction d using Nat.strongRecOn generalizing j with
  | _ d ih =>
    rcases Nat.lt_or_ge j s.tb.root with h | h
    · obtain ⟨k, hk1, hk2, hk⟩ := exists_parent ht h
      have hin := ht.inner k hk1 hk2
      have hle := ih (s.tb.root - k) (by omega) hk2 rfl
      rcases hk with rfl | rfl <;> omega
    · rw [show j = s.tb.root by omega]

end Sys2Proof.Machine
end

