-- ==== Sys2Proof/Tests/Slice0.lean ====
section
/-!
SUPPORT. The model's own tests. Expected values come from spec/95_test_vectors.md (the vector is named in each comment)
and from R60 to R64; the last part shows, for every statement with hypotheses, states that meet them.
-/

namespace Sys2Proof.Machine.Test

/-! ## Helpers -/

/-- The state after reset with other values of the open parameters. -/
def configured (lenW pkDepth doDepth : Nat) : State :=
  { State.reset with params := { lenW := lenW, pkDepth := pkDepth, doDepth := doDepth } }

/-- The state after one word. -/
def after (w : CmdWord) (s : State) : State :=
  match executeWord w s with
  | .next t => t
  | _ => s

/-- A small state: what some words leave. -/
def built (s : State) (words : List CmdWord) : State := words.foldl (fun t w => after w t) s

/-- "aaabb" counted, in a small configuration: counters up to 15, two bytes of PKMEM, five of DOMEM. -/
def counted : State := built (configured 4 2 5) [0x1061, 0x1061, 0x1061, 0x1062, 0x1062]

def tree : State := after 0x1100 counted

def ready : State := after 0x1200 tree

/-- Phase ENC with the four bits 1110 pending. -/
def encoding : State := built ready [0x2000, 0x2161, 0x2161, 0x2161, 0x2162]

/-- Phase DEC with the padding byte 3 and the code byte 0xE0 received. -/
def decoding : State := built ready [0x3000, 0x3103, 0x31E0]

/-- The tree of one symbol, 'z' counted four times. -/
def single : State := built (configured 4 2 5) [0x107A, 0x107A, 0x107A, 0x107A, 0x1100]

/-- A halted core: BUILD of the empty table (vector F1). -/
def halted : State := after 0x1100 (configured 4 2 5)

/-- The fault record as the four numbers of R32, PHASE first. -/
def record (s : State) : Nat × Nat × Nat × Nat × Nat :=
  (s.phase.bits.toNat, s.fr.ecode.bits.toNat, s.fr.ephase.bits.toNat, s.fr.esym.toNat, s.fr.eoff)

/-! ## Well-formedness -/

/-- LEN_W = 0 is refused. -/
theorem test_wf_lenW : Params.wf { lenW := 0, pkDepth := 1, doDepth := 1 } = false := by decide

/-- PK_DEPTH = 0 is refused. -/
theorem test_wf_pkDepth : Params.wf { lenW := 1, pkDepth := 0, doDepth := 1 } = false := by decide

/-- DO_DEPTH = 0 is refused. -/
theorem test_wf_doDepth : Params.wf { lenW := 1, pkDepth := 1, doDepth := 0 } = false := by decide

/-- REF and the least configuration are accepted. -/
theorem test_wf_ref : Params.ref.wf = true ∧ Params.wf { lenW := 1, pkDepth := 1, doDepth := 1 } = true := by decide

/-! ## Decoding: one word of each command, its bits written out from R60 and R62 -/

theorem test_decode_nop : decode 0b00000000_00000000 = .ok .nop := by decide
theorem test_decode_clr : decode 0b00000001_00000000 = .ok .clr := by decide
theorem test_decode_sym : decode 0b00010000_01100001 = .ok (.sym 0b01100001) := by decide
theorem test_decode_build : decode 0b00010001_00000000 = .ok .build := by decide
theorem test_decode_gen : decode 0b00010010_00000000 = .ok .gen := by decide
theorem test_decode_encbeg : decode 0b00100000_00000000 = .ok .encbeg := by decide
theorem test_decode_enc : decode 0b00100001_11111110 = .ok (.enc 0b11111110) := by decide
theorem test_decode_encend : decode 0b00100010_00000000 = .ok .encend := by decide
theorem test_decode_decbeg : decode 0b00110000_00000000 = .ok .decbeg := by decide
theorem test_decode_decb : decode 0b00110001_10000001 = .ok (.decb 0b10000001) := by decide
theorem test_decode_decend : decode 0b00110010_00000000 = .ok .decend := by decide

/-- The two kinds of illegal word (R64). -/
theorem test_decode_illegal : decode 0x4000 = .error .unassignedOpcode ∧ decode 0x1101 = .error .nonzeroOperand := by
  decide

/-- The host's two entry points: the word is read whole, and the very next step runs it. -/
theorem test_fetch : decodeTableWord 16 0x1061 = some (.sym 0x61) ∧
    step (State.reset.withFetchWord 16 0x1061) = exec (.sym 0x61) State.reset := ⟨by decide, rfl⟩

/-- Assembler lines of programs P1 and P2 (R65). -/
theorem test_assemble : assembleLine "SYM 'a'        ; 1061" = some 0x1061 ∧ assembleLine "DECB 0xE0      ; 31E0" = some 0x31E0 ∧
    assembleLine "ENC 98" = some 0x2162 ∧ assembleLine "DECB 0xe0" = some 0x31E0 ∧ assembleLine "DECB 0xG0" = none ∧ assembleLine "BUILD" = some 0x1100 ∧ assembleLine "SYM 256" = none := by decide

/-! ## One step of each command -/

/-- X3, X4. -/
theorem test_nop : after 0x0000 ready = ready ∧ after 0x0000 encoding = encoding := by decide

/-- X5, and F19: CLR leaves HALT. -/
theorem test_clr : (after 0x0100 encoding).en = .reset ∧ (after 0x0100 encoding).st = .reset ∧
    record (after 0x0100 encoding) = (0, 0, 0, 0, 0) ∧ record (after 0x0100 halted) = (0, 0, 0, 0, 0) := by decide

/-- A4: the extreme symbol values are ordinary, ORDER keeps first occurrence. -/
theorem test_sym : let t := after 0x1000 (built (configured 4 2 5) [0x1000, 0x10FF])
    (t.countAt 0x00, t.countAt 0xFF, t.orderAt 0, t.orderAt 1, t.st.nsym, t.st.total) = (2, 1, 0x00, 0xFF, 2, 3) := by decide

/-- K1: the fourth SYM with LEN_W = 2. -/
theorem test_sym_full : let t := after 0x1061 (built (configured 2 1 1) [0x1061, 0x1061, 0x1061])
    record t = (7, 4, 0, 0x61, 3) ∧ t.st.total = 3 ∧ t.countAt 0x61 = 3 ∧ t.st.nsym = 1 := by decide

/-- B5, "abracadabra": ties between two leaves and between a leaf and an internal node. -/
theorem test_build :
    let t := after 0x1100 (built State.reset [0x1061, 0x1062, 0x1072, 0x1061, 0x1063, 0x1061, 0x1064, 0x1061, 0x1062, 0x1072, 0x1061])
    t.nodeAt 3 = ⟨true, 1, 0x63, 0, 0⟩ ∧ t.nodeAt 5 = ⟨false, 2, 0, 3, 4⟩ ∧ t.nodeAt 6 = ⟨false, 4, 0, 1, 2⟩ ∧
      t.nodeAt 7 = ⟨false, 6, 0, 5, 6⟩ ∧ t.nodeAt 8 = ⟨false, 11, 0, 0, 7⟩ ∧ t.tb.root = 8 ∧ t.tb.nnode = 9 := by decide

/-- F1. -/
theorem test_build_empty : record halted = (7, 1, 0, 0, 0) ∧ halted.tb = .reset := by decide

/-- G3, "abcc": codes "0", "10", "11" by the path. -/
theorem test_gen : let t := after 0x1200 (built State.reset [0x1061, 0x1062, 0x1063, 0x1063, 0x1100])
    (t.code 0x63, t.code 0x61, t.code 0x62, t.cg.maxlen, t.cvalidAt 0x64) =
      ([false], [true, false], [true, true], 2, false) := by decide

/-- G2: the single leaf. -/
theorem test_gen_single : let t := after 0x1200 single
    (t.clenAt 0x7A, t.cbitsAt 0x7A, t.cg.maxlen, t.phase) = (1, 0, 1, .ready) := by decide

/-- E14. -/
theorem test_encbeg : let t := after 0x2000 (built ready [0x2000, 0x2161, 0x2161, 0x2161, 0x2162, 0x2162, 0x2200])
    (t.en.pklen, t.pkmemAt 0, t.pkmemAt 1, t.en.pad, t.en.pkvalid, t.en.enccnt, t.phase) =
      (1, 0x00, 0xE0, 0, false, 0, .enc) := by decide

/-- E1, the fifth ENC. -/
theorem test_enc : let t := after 0x2162 encoding
    (t.en.nbits, t.en.acc, t.en.enccnt, t.en.pklen) = (5, 0x1C, 5, 1) := by decide

/-- F2: an unknown symbol, after one symbol. -/
theorem test_enc_unknown : let t := after 0x2163 (built ready [0x2000, 0x2161])
    record t = (7, 2, 3, 0x63, 1) ∧ t.en.nbits = 1 ∧ t.en.acc = 0x01 ∧ t.err = 0x631A := by decide

/-- E1, ENCEND. -/
theorem test_encend : let t := after 0x2200 (after 0x2162 encoding)
    (t.packedStream, t.en.pad, t.en.pkvalid, t.en.enccnt, t.en.nbits, t.phase) = ([0x03, 0xE0], 3, true, 5, 0, .ready) := by
  decide

/-- K4: no room for the padded byte. -/
theorem test_encend_full : let t := after 0x2200 (built (configured 4 1 1) [0x1061, 0x1062, 0x1100, 0x1200, 0x2000, 0x2161])
    record t = (7, 4, 3, 0, 1) ∧ (t.en.pklen, t.en.nbits, t.en.pkvalid) = (1, 1, false) := by decide

/-- R155's example, on the tree of "aaabb": DCUR is ROOT. -/
theorem test_decbeg : let t := after 0x3000 ready
    (t.de.dcur, t.de.hdrv, t.de.holdv, t.de.dolen, t.de.dovalid, t.de.dbytes, t.phase) =
      (2, false, false, 0, false, 0, .dec) := by decide

/-- U4: a walk that ends inside a code, after `319D` of "mississippi". -/
theorem test_decb :
    let t := after 0x319D (built State.reset [0x106D, 0x1069, 0x1073, 0x1073, 0x1069, 0x1073, 0x1073, 0x1069, 0x1070, 0x1070,
      0x1069, 0x1100, 0x1200, 0x3000, 0x3103, 0x3199])
    (t.decoded, t.de.dcur, t.de.hold, t.de.dbytes) = ([0x6D, 0x69, 0x73, 0x73], 5, 0x9D, 3) := by decide

/-- F6: a first byte above 7. -/
theorem test_decb_padding : let t := after 0x3108 (after 0x3000 ready)
    record t = (7, 3, 4, 0x08, 0) ∧ t.de.hdrv = false ∧ t.de.dbytes = 0 := by decide

/-- U1, DECEND: the filler bits are dropped. -/
theorem test_decend : let t := after 0x3200 decoding
    (t.decoded, t.de.dovalid, t.de.holdv, t.de.dcur, t.de.hold, t.phase) =
      ([0x61, 0x61, 0x61, 0x62, 0x62], true, false, 2, 0xE0, .ready) := by decide

/-- F5: the walk's dead candidate is not committed. -/
theorem test_decend_dead : let t := after 0x3200 (built single [0x1200, 0x3000, 0x3104, 0x3180])
    record t = (7, 3, 4, 0, 2) ∧ (t.de.hold, t.de.holdv, t.de.dead, t.de.dolen) = (0x80, true, false, 0) := by decide

/-- The end of P1: STATUS reads 0x0D83A; and the NODE images of B1 in REF. -/
theorem test_read_port :
    let s := built State.reset [0x1061, 0x1061, 0x1061, 0x1062, 0x1062, 0x1100]
    s.readEntry 3 0 = 0x40000000D840000 ∧ s.readEntry 3 2 = 0x14000200 ∧ s.readEntry 3 511 = 0 ∧
      (built s [0x1200, 0x2000, 0x2161, 0x2161, 0x2161, 0x2162, 0x2162, 0x2200, 0x3000, 0x3103, 0x31E0, 0x3200]).readEntry 0 0
        = 0x0D83A := by decide

/-- R7: RA_W of REF is 16, and 9 where the depths are small; an index on `rd_addr` has no more bits (R41). -/
theorem test_read_address : Params.ref.raW = 16 ∧ ready.params.raW = 9 ∧ (ready.selectRead 3 511).port.rdAddr = 511 ∧
    (ready.selectRead 3 512).port.rdAddr = 0 := by decide

/-! ## Good states -/

theorem configured_inv {l p d : Nat} (h : Params.wf { lenW := l, pkDepth := p, doDepth := d } = true) :
    (configured l p d).Inv := inv_reset_like h rfl rfl rfl rfl rfl rfl rfl (Nat.two_pow_pos _)

theorem start_inv : (configured 4 2 5).Inv := configured_inv (by decide)

theorem counted_inv : counted.Inv := by
  have h1 : (built (configured 4 2 5) [0x1061]).Inv := inv_sym start_inv rfl (by decide : symBody 0x61 _ = _)
  have h2 : (built (configured 4 2 5) [0x1061, 0x1061]).Inv := inv_sym h1 rfl (by decide : symBody 0x61 _ = _)
  have h3 : (built (configured 4 2 5) [0x1061, 0x1061, 0x1061]).Inv := inv_sym h2 rfl (by decide : symBody 0x61 _ = _)
  have h4 : (built (configured 4 2 5) [0x1061, 0x1061, 0x1061, 0x1062]).Inv := inv_sym h3 rfl (by decide : symBody 0x62 _ = _)
  exact inv_sym h4 rfl (by decide : symBody 0x62 _ = _)

theorem tree_inv : tree.Inv := inv_build counted_inv rfl (by decide)

theorem ready_inv : ready.Inv := inv_gen tree_inv rfl (by decide)

theorem decoding_inv : decoding.Inv := by
  have h1 : (after 0x3000 ready).Inv := inv_decbeg ready_inv rfl (by decide)
  have h2 : (built ready [0x3000, 0x3103]).Inv := inv_decb h1 rfl (by decide : decbBody 0x03 _ = _)
  exact inv_decb h2 rfl (by decide : decbBody 0xE0 _ = _)

theorem single_inv : single.Inv := by
  have h1 : (built (configured 4 2 5) [0x107A]).Inv := inv_sym start_inv rfl (by decide : symBody 0x7A _ = _)
  have h2 : (built (configured 4 2 5) [0x107A, 0x107A]).Inv := inv_sym h1 rfl (by decide : symBody 0x7A _ = _)
  have h3 : (built (configured 4 2 5) [0x107A, 0x107A, 0x107A]).Inv := inv_sym h2 rfl (by decide : symBody 0x7A _ = _)
  have h4 : (built (configured 4 2 5) [0x107A, 0x107A, 0x107A, 0x107A]).Inv := inv_sym h3 rfl (by decide : symBody 0x7A _ = _)
  exact inv_build h4 rfl (by decide)

theorem halted_inv : halted.Inv := inv_raiseFault start_inv (by decide) (c := .emptyInput) (by decide) 0

/-! ## Witnesses: for each statement with hypotheses, states and operands that meet them -/

theorem witness_DecodeAndEncodeAgree : Instr.wf (.decb 0xFF) = true ∧ decode 0x31FF = .ok (.decb 0xFF) := by decide

theorem witness_DecodeFollowsOpcodeMap : decode 0x2100 = .ok (.enc 0x00) ∧ (⟨"ENC", 0x2100, 0xFF00⟩ : OpcodeRow) ∈ opcodeMap ∧
    OpcodeRow.selectedBy ⟨"ENC", 0x2100, 0xFF00⟩ 0x2100 = true := by decide

/-- Both ends of each range of unassigned opcodes, and each kind of non-zero operand, running and halted. -/
theorem witness_IllegalWordsFault :
    (∀ w ∈ ([0x0200, 0x0FFF, 0x1300, 0x1FFF, 0x2300, 0x2FFF, 0x3300, 0xFFFF, 0x0001, 0x01FF, 0x1101, 0x1201, 0x2001, 0x2201,
      0x3001, 0x3201] : List CmdWord), ∃ e, decode w = .error e) ∧ counted.phase ≠ .halt ∧ halted.phase = .halt := by
  refine ⟨?_, by decide, by decide⟩
  intro w hw
  cases h : decode w with
  | error e => exact ⟨e, rfl⟩
  | ok i => exact absurd h (by revert w; simp only [List.forall_mem_cons]; simp [decode, plainCommand, CmdWord.op, CmdWord.imm8])

theorem witness_StepRunsDecodedCommand :
    (counted.withFetchWord 16 0x1100).port.inputs = .command 0x1100 :: [] ∧ decode 0x1100 = .ok .build := by decide

theorem witness_StepTakesOneHostAction : ∃ t, step (counted.withFetchWord 16 0x1100) = .next t := ⟨_, rfl⟩

/-- The same read twice, of the last entry of a space. -/
theorem witness_ReadHasNoSideEffect :
    ({ ready with port := { ready.port with inputs := [.read 3 510, .read 3 510] } } : State).port.inputs =
      .read 3 510 :: [.read 3 510] ∧ 510 < ready.entries 3 := ⟨rfl, by decide⟩

theorem witness_ResetPinAgreesWithClr :
    ({ encoding with port := { encoding.port with inputs := [.reset] } } : State).port.inputs = .reset :: [] := rfl

theorem witness_HaltedCoreIgnoresWords : halted.phase = .halt ∧ (0x0101 : CmdWord) ≠ 0x0100 ∧
    511 < 2 ^ halted.params.raW := by decide

theorem witness_FaultEntryRecordsCause : counted.phase = .count ∧ tree.phase = .tree ∧ ready.phase = .ready ∧
    encoding.phase = .enc ∧ decoding.phase = .dec := by decide

theorem witness_FaultsArePrecise : encoding.phase ≠ .halt ∧ executeWord 0x2163 encoding = .next (after 0x2163 encoding) ∧
    (after 0x2163 encoding).phase = .halt := ⟨by decide, rfl, by decide⟩

theorem witness_OutOfPhaseIsSequence : (tree.phase ≠ .halt ∧ tree.phase ≠ .count ∧ tree.phase ≠ .ready ∧ tree.phase ≠ .enc ∧
    tree.phase ≠ .dec) ∧ (counted.phase ≠ .halt ∧ counted.phase ≠ .tree) := by decide

/-- A command that faults and a command that completes. -/
theorem witness_PhaseFollowsTable : exec .gen counted = .next (after 0x1200 counted) ∧ counted.phase ≠ .halt ∧
    exec .build counted = .next tree ∧ tree.phase = .tree := ⟨rfl, by decide, rfl, by decide⟩

/-- SEQUENCE, EMPTY_INPUT, UNKNOWN_SYMBOL. -/
theorem witness_FaultCodesHaveTheirCauses :
    (exec (.enc 0x63) counted = .next (after 0x2163 counted) ∧ (after 0x2163 counted).fr.ecode = .sequence) ∧
    (exec .build (configured 4 2 5) = .next halted ∧ halted.fr.ecode = .emptyInput) ∧
    (exec (.enc 0x63) encoding = .next (after 0x2163 encoding) ∧ (after 0x2163 encoding).fr.ecode = .unknownSymbol) := by
  refine ⟨⟨rfl, ?_⟩, ⟨rfl, ?_⟩, rfl, ?_⟩ <;> decide

/-- K1, K2, K7, K4, K3, K10 and K9, one for each line of R184's table, and a command that raises nothing. -/
theorem witness_CapacityListIsComplete :
    (∀ e ∈ ([(configured 2 1 1, [0x1061, 0x1061, 0x1061], 0x1061),
        (configured 2 2 9, [0x1061, 0x1062, 0x1100, 0x1200, 0x2000, 0x2161, 0x2161, 0x2161], 0x2161),
        (configured 4 1 9, [0x1061, 0x1062, 0x1100, 0x1200, 0x2000, 0x2161, 0x2161, 0x2161, 0x2161, 0x2161, 0x2161, 0x2161], 0x2161),
        (configured 4 1 9, [0x1061, 0x1062, 0x1100, 0x1200, 0x2000, 0x2161], 0x2200),
        (configured 2 2 9, [0x1061, 0x1062, 0x1100, 0x1200, 0x3000, 0x3100, 0x3100, 0x3100], 0x3100),
        (configured 4 2 3, [0x1061, 0x1062, 0x1100, 0x1200, 0x3000, 0x3100, 0x310F], 0x3100),
        (configured 4 2 3, [0x1061, 0x1062, 0x1100, 0x1200, 0x3000, 0x3100, 0x310F], 0x3200)] :
        List (State × List CmdWord × CmdWord)),
      (built e.1 e.2.1).phase ≠ .halt ∧ (after e.2.2 (built e.1 e.2.1)).fr.ecode = .capacity) ∧
    exec .nop counted = .next counted ∧ counted.phase ≠ .halt := ⟨by decide, rfl, by decide⟩

/-- F6, F7, F3 and F5, one for each situation of R161, and the same for a candidate left by committed bytes. -/
theorem witness_CorruptStreamListIsComplete :
    (∀ e ∈ ([(ready, [0x3000], 0x3108), (ready, [0x3000], 0x3200), (ready, [0x3000, 0x3103], 0x3200),
        (single, [0x1200, 0x3000, 0x3104, 0x3180], 0x3200)] : List (State × List CmdWord × CmdWord)),
      (built e.1 e.2.1).phase = .dec ∧ (after e.2.2 (built e.1 e.2.1)).fr.ecode = .corruptStream) ∧
    exec (.decb 0x08) (after 0x3000 ready) = .next (after 0x3108 (after 0x3000 ready)) := ⟨by decide, rfl⟩

theorem witness_FaultOutputFallsOnlyByClear : (halted.withFetchWord 16 0x0100).Inv ∧
    step (halted.withFetchWord 16 0x0100) = .next (halted.withFetchWord 16 0x0100 |>.takeInput []).clear ∧
    (halted.withFetchWord 16 0x0100).faultOut = true ∧ (halted.withFetchWord 16 0x0100 |>.takeInput []).clear.faultOut = false :=
  ⟨inv_presentWord halted_inv _, rfl, by decide, by decide⟩

/-- A running core, in and out of the phases of the last two clauses. -/
theorem witness_CommandsWriteTheirOwnUnit : exec (.sym 0x61) counted = .next (after 0x1061 counted) ∧ Instr.sym 0x61 ≠ .clr ∧
    exec .gen tree = .next ready ∧ tree.phase ≠ .count ∧ exec .encbeg ready = .next (after 0x2000 ready) ∧ ready.phase ≠ .tree :=
  ⟨rfl, by decide, rfl, by decide, rfl, by decide⟩

/-- PKVALID and DOVALID set and cleared, HDRV, HOLDV and DEAD set. -/
theorem witness_FlagsHaveTheirWriters :
    (after 0x2200 encoding).en.pkvalid ≠ encoding.en.pkvalid ∧
    (after 0x2000 (after 0x2200 encoding)).en.pkvalid ≠ (after 0x2200 encoding).en.pkvalid ∧
    (after 0x3200 decoding).de.dovalid ≠ decoding.de.dovalid ∧ (after 0x3200 decoding).de.holdv ≠ decoding.de.holdv ∧
    (after 0x3000 (after 0x3200 decoding)).de.dovalid ≠ (after 0x3200 decoding).de.dovalid ∧
    (after 0x3000 (after 0x3200 decoding)).de.hdrv ≠ (after 0x3200 decoding).de.hdrv ∧
    (after 0x3103 (after 0x3000 ready)).de.hdrv ≠ (after 0x3000 ready).de.hdrv ∧
    (after 0x31E0 (built ready [0x3000, 0x3103])).de.holdv ≠ (built ready [0x3000, 0x3103]).de.holdv ∧
    (after 0x3100 (built single [0x1200, 0x3000, 0x3100, 0x3140])).de.dead ≠
      (built single [0x1200, 0x3000, 0x3100, 0x3140]).de.dead := by decide

/-- A symbol counted before and one that was not; a full counter; another phase. -/
theorem witness_SymCountsOneSymbol : SymbolTableOk counted ∧ counted.phase = .count ∧
    counted.st.total ≠ 2 ^ counted.params.lenW - 1 ∧ counted.countAt 0x61 ≠ 0 ∧ counted.countAt 0x63 = 0 ∧
    (let full := built (configured 2 1 1) [0x1061, 0x1061, 0x1061]
     full.phase = .count ∧ full.st.total = 2 ^ full.params.lenW - 1) ∧ tree.phase ≠ .count ∧ tree.phase ≠ .halt := by
  refine ⟨counted_inv.symbols_ok, ?_⟩
  decide

theorem witness_StepKeepsSymbolTable : SymbolTableOk (counted.withFetchWord 16 0x1063) ∧
    ∃ t, step (counted.withFetchWord 16 0x1063) = .next t :=
  ⟨(inv_presentWord counted_inv _).symbols_ok, _, rfl⟩

/-- The longest input that TOTAL can count, and the empty one. -/
theorem witness_SymbolTableOfInput : (configured 2 1 1).phase = .count ∧ (configured 2 1 1).st = .reset ∧
    ([0x61, 0x62, 0x61] : List Byte).length ≤ 2 ^ (configured 2 1 1).params.lenW - 1 ∧
    ([] : List Byte).length ≤ 2 ^ (configured 2 1 1).params.lenW - 1 := by decide

theorem witness_BuildOfEmptyInputFaults : SymbolTableOk (configured 4 2 5) ∧ (configured 4 2 5).phase = .count ∧
    (configured 4 2 5).st.nsym = 0 := ⟨start_inv.symbols_ok, by decide, by decide⟩

theorem witness_SortIsTheUniqueArrangement : (1 : Nat) ≠ 0 ∧ tree.keyLt 1 0 = true ∧ tree.keyLt 0 2 = true ∧
    ([1, 0] : List Nat).Perm (List.range 2) ∧ tree.Sorted [1, 0] :=
  ⟨by decide, by decide, by decide, by decide, by unfold State.Sorted; decide⟩

theorem witness_BuildMakesTheTree : counted.Inv ∧ counted.phase = .count ∧ 1 ≤ counted.st.nsym :=
  ⟨counted_inv, by decide, by decide⟩

theorem witness_BuildMergesTheTwoLowest : counted.Inv ∧ counted.phase = .count ∧ 1 ≤ counted.st.nsym ∧
    exec .build counted = .next tree := ⟨counted_inv, by decide, by decide, rfl⟩

theorem witness_TreeConservesWeight : tree.Inv ∧ tree.workPhase ≠ .count ∧ 0 < tree.tb.nnode ∧
    (tree.nodeAt 0).leaf = true ∧ (tree.nodeAt 2).leaf = false := by
  refine ⟨tree_inv, ?_⟩
  decide

/-- The same table in a core whose unwritten entries and parameters differ. -/
theorem witness_SameTableSameTreeAndCodeBook :
    let other : State := { counted with epoch := 1, params := { lenW := 5, pkDepth := 1, doDepth := 1 } }
    counted.phase = .count ∧ other.phase = .count ∧ 1 ≤ counted.st.nsym ∧ other ≠ counted ∧
      (∀ y, counted.countAt y = other.countAt y) ∧ counted.st.nsym = other.st.nsym ∧
      ∀ i, i < counted.st.nsym → counted.orderAt i = other.orderAt i := by
  refine ⟨by decide, by decide, by decide, by decide, fun _ => rfl, rfl, by decide⟩

theorem witness_GenDerivesTheCodeBook : tree.Inv ∧ tree.phase = .tree ∧ 2 ≤ tree.st.nsym ∧ ready.cvalidAt 0x61 = true ∧
    ready.cvalidAt 0x63 = false := by
  refine ⟨tree_inv, ?_⟩
  decide

theorem witness_GenAgreesWithStackTraversal : tree.Inv ∧ tree.phase = .tree ∧ 2 ≤ tree.st.nsym :=
  ⟨tree_inv, by decide, by decide⟩

theorem witness_SingleLeafGetsCodeZero : single.Inv ∧ single.phase = .tree ∧ (single.nodeAt single.tb.root).leaf = true :=
  ⟨single_inv, by decide, by decide⟩

theorem witness_CodeBookIsPrefixFree : ready.Inv ∧ ready.workPhase ≠ .count ∧ ready.workPhase ≠ .tree ∧
    ready.cvalidAt 0x61 = true ∧ ready.cvalidAt 0x62 = true ∧ (0x61 : Byte) ≠ 0x62 := by
  refine ⟨ready_inv, ?_⟩
  decide

/-- One symbol and two. -/
theorem witness_CodeLengthsFillTheTree : (after 0x1200 single).Inv ∧ (after 0x1200 single).workPhase = .ready ∧
    (after 0x1200 single).st.nsym = 1 ∧ (after 0x1200 single).cvalidAt 0x7A = true ∧ ready.Inv ∧ ready.workPhase = .ready ∧
    2 ≤ ready.st.nsym :=
  ⟨inv_gen single_inv rfl (by decide), by decide, by decide, by decide, ready_inv, by decide, by decide⟩

theorem witness_EncbegStartsStream : 1 ≤ ready.params.pkDepth ∧ ready.phase = .ready ∧ encoding.phase ≠ .ready ∧
    encoding.phase ≠ .halt := by decide

/-- A code that leaves the byte open, and one that fills both the byte and the buffer. -/
theorem witness_EncAppendsTheCode :
    ∀ s ∈ [encoding, built ready [0x2000, 0x2161, 0x2161, 0x2161, 0x2162, 0x2162, 0x2162, 0x2162]],
      s.phase = .enc ∧ s.en.nbits ≤ 7 ∧ s.en.acc.toNat < 2 ^ s.en.nbits ∧ s.cvalidAt 0x61 = true ∧
        s.en.enccnt ≠ 2 ^ s.params.lenW - 1 ∧ s.en.pklen + (s.en.nbits + s.clenAt 0x61) / 8 ≤ s.params.pkDepth := by decide

/-- An unknown symbol; a full counter; a full buffer. -/
theorem witness_EncFaultsBeforeAnyBit : encoding.phase = .enc ∧ encoding.cvalidAt 0x63 = false ∧
    (let full := built (configured 2 2 9) [0x1061, 0x1062, 0x1100, 0x1200, 0x2000, 0x2161, 0x2161, 0x2161]
     full.phase = .enc ∧ full.cvalidAt 0x61 = true ∧ full.en.enccnt = 2 ^ full.params.lenW - 1) ∧
    (let full := built (configured 4 1 9) [0x1061, 0x1062, 0x1100, 0x1200, 0x2000, 0x2161, 0x2161, 0x2161, 0x2161, 0x2161, 0x2161, 0x2161]
     full.phase = .enc ∧ full.cvalidAt 0x61 = true ∧ full.en.pklen + (full.en.nbits + full.clenAt 0x61) / 8 > full.params.pkDepth) := by
  decide

/-- Pending bits and room for one byte, exactly; no pending bit; pending bits and no room; another phase. -/
theorem witness_EncendPadsStream :
    (∀ s ∈ [encoding, after 0x2000 ready, built (configured 4 1 1) [0x1061, 0x1062, 0x1100, 0x1200, 0x2000, 0x2161], ready],
      s.en.nbits ≤ 7 ∧ 1 ≤ s.params.pkDepth) ∧
    (encoding.phase = .enc ∧ 1 ≤ encoding.en.pklen ∧ encoding.en.nbits > 0 ∧ encoding.en.pklen + 1 = encoding.params.pkDepth) ∧
    ((after 0x2000 ready).phase = .enc ∧ 1 ≤ (after 0x2000 ready).en.pklen ∧ (after 0x2000 ready).en.nbits = 0) ∧
    (let full := built (configured 4 1 1) [0x1061, 0x1062, 0x1100, 0x1200, 0x2000, 0x2161]
     full.phase = .enc ∧ 1 ≤ full.en.pklen ∧ full.en.nbits > 0 ∧ full.en.pklen + 1 > full.params.pkDepth) ∧
    (let idle := after 0x2200 encoding
     idle.phase ≠ .enc ∧ idle.phase ≠ .halt ∧ 1 ≤ idle.en.pklen ∧ idle.en.nbits ≤ 7) := by decide

theorem witness_PaddingIsTheLeast : (13 + 3) % 8 = 0 ∧ (16 + 0) % 8 = 0 := by decide

/-- The longest text the counter allows in two bytes of PKMEM, and the empty text. -/
theorem witness_EncodeProducesThePackedStream :
    ∀ l ∈ ([[0x61, 0x61, 0x61, 0x62, 0x62, 0x61, 0x61, 0x61], []] : List (List Byte)),
      ready.phase = .ready ∧ (∀ y ∈ l, ready.cvalidAt y = true) ∧ l.length ≤ 2 ^ ready.params.lenW - 1 ∧
        1 + ((ready.codes l).length + padding (ready.codes l).length) / 8 ≤ ready.params.pkDepth := by decide

theorem witness_DecbegStartsDecoding : ready.phase = .ready ∧ decoding.phase ≠ .ready ∧ decoding.phase ≠ .halt := by decide

/-- The greatest padding byte and the least that is none. -/
theorem witness_DecbTakesThePaddingByte : (after 0x3000 ready).phase = .dec ∧
    (after 0x3000 ready).de.dbytes ≠ 2 ^ (after 0x3000 ready).params.lenW - 1 ∧ (after 0x3000 ready).de.hdrv = false ∧
    (0x07 : Byte).toNat ≤ 7 ∧ (0x08 : Byte).toNat > 7 := by decide

/-- No held byte; a held byte whose walk fits; one whose walk does not fit DOMEM; a full byte counter. -/
theorem witness_DecbWalksTheHeldByte :
    (∀ s ∈ [built ready [0x3000, 0x3103], decoding], s.phase = .dec ∧ s.de.hdrv = true ∧ s.de.dolen ≤ s.params.doDepth ∧
      s.de.dbytes ≠ 2 ^ s.params.lenW - 1) ∧
    (built ready [0x3000, 0x3103]).de.holdv = false ∧
    (let s := built (configured 4 2 9) [0x1061, 0x1062, 0x1100, 0x1200, 0x3000, 0x3100, 0x310F]
     s.phase = .dec ∧ s.de.hdrv = true ∧ s.de.dolen ≤ s.params.doDepth ∧ s.de.holdv = true ∧ (s.walk s.de.hold 0).isSome) ∧
    decoding.de.holdv = true ∧ decoding.walk decoding.de.hold 0 = none ∧
    (let s := built (configured 2 2 9) [0x1061, 0x1062, 0x1100, 0x1200, 0x3000, 0x3100, 0x3100, 0x3100]
     s.phase = .dec ∧ s.de.hdrv = true ∧ s.de.dolen ≤ s.params.doDepth ∧ s.de.dbytes = 2 ^ s.params.lenW - 1) := by decide

/-- A held byte that ends at an empty candidate, DOMEM exactly filled; and the one-byte stream. -/
theorem witness_DecendEndsDecoding :
    (decoding.phase = .dec ∧ decoding.de.hdrv = true ∧ decoding.de.dolen ≤ decoding.params.doDepth ∧ decoding.de.holdv = true ∧
      decoding.walk decoding.de.hold decoding.de.dpad =
        some { cur := decoding.tb.root, dead := false, out := [0x61, 0x61, 0x61, 0x62, 0x62] }) ∧
    (let s := built ready [0x3000, 0x3100]
     s.phase = .dec ∧ s.de.hdrv = true ∧ s.de.dolen ≤ s.params.doDepth ∧ s.de.holdv = false ∧ s.de.dpad = 0 ∧
      s.de.dead = false ∧ s.de.dcur = s.tb.root) := by decide

/-- "abcc" in phase READY: an inner candidate, a bit that completes a code and a bit that does not. -/
theorem witness_WalkMatchesCandidates :
    (decoding.Inv ∧ decoding.workPhase ≠ .count ∧ decoding.workPhase ≠ .tree ∧ 2 ≤ decoding.st.nsym ∧
      decoding.follow decoding.tb.root [] = some decoding.tb.root ∧ (decoding.nodeAt decoding.tb.root).leaf = false ∧
      decoding.de.dolen + ([] : List Byte).length < decoding.params.doDepth ∧ decoding.cvalidAt 0x61 = true ∧
      decoding.code 0x61 = [] ++ [true]) ∧
    (let s := built State.reset [0x1061, 0x1062, 0x1063, 0x1063, 0x1100, 0x1200]
     s.follow s.tb.root [true] = some 3 ∧ (s.nodeAt 3).leaf = false ∧ s.code 0x63 ≠ [] ++ [true] ∧ s.code 0x61 ≠ [] ++ [true] ∧
      s.code 0x62 ≠ [] ++ [true]) := by
  refine ⟨⟨decoding_inv, ?_⟩, ?_⟩ <;> decide

/-- Two bytes, with the greatest padding; and as many as the byte counter allows. The walk ends at an empty candidate, inside
a code, and with DOMEM full. -/
theorem witness_DecodeWalksTheWholeStream :
    (ready.phase = .ready ∧ (0x07 : Byte).toNat ≤ 7 ∧ 1 ≤ ([0x80] : List Byte).length ∧
      ([0x80] : List Byte).length + 1 ≤ 2 ^ ready.params.lenW - 1) ∧
    ready.decodeBits (streamBits 7 [0x80]) = some { cur := ready.tb.root, dead := false, out := [0x61] } ∧
    ready.decodeBits (streamBits 0 [0x80]) = none ∧
    (let s := built State.reset [0x1061, 0x1062, 0x1063, 0x1063, 0x1100, 0x1200]
     s.phase = .ready ∧ s.decodeBits (streamBits 7 [0x80]) = some { cur := 3, dead := false, out := [] }) ∧
    (List.replicate 14 (0x00 : Byte)).length + 1 = 2 ^ ready.params.lenW - 1 := by decide

/-- As many copies as DOMEM holds. -/
theorem witness_DegenerateWalkCountsZeros : (single.nodeAt single.tb.root).leaf = true ∧ 5 ≤ single.params.doDepth := by decide

/-- A text that comes back, and one that meets CAPACITY. -/
theorem witness_RoundTripGivesTheInput : ready.Inv ∧ ready.phase = .ready ∧
    (∀ y ∈ ([0x61, 0x62, 0x62] : List Byte), ready.cvalidAt y = true) ∧
    (built ready [0x2000, 0x2161, 0x2162, 0x2162, 0x2200, 0x3000, 0x3105, 0x3180, 0x3200]).phase ≠ .halt ∧
    (built ready [0x2000, 0x2161, 0x2162, 0x2162, 0x2162, 0x2162, 0x2162, 0x2200, 0x3000, 0x3102, 0x3180, 0x3200]).phase = .halt := by
  refine ⟨ready_inv, ?_⟩
  decide

/-- "aaabb", which fills DOMEM and PKMEM exactly. -/
theorem witness_RoundTripFromTheStart : (configured 4 2 5).Inv ∧ (configured 4 2 5).phase = .count ∧
    (configured 4 2 5).st = .reset ∧ ([0x61, 0x61, 0x61, 0x62, 0x62] : List Byte) ≠ [] ∧
    ([0x61, 0x61, 0x61, 0x62, 0x62] : List Byte).length ≤ 2 ^ (configured 4 2 5).params.lenW - 1 ∧
    ([0x61, 0x61, 0x61, 0x62, 0x62] : List Byte).length ≤ (configured 4 2 5).params.doDepth ∧
    1 + ((ready.codes [0x61, 0x61, 0x61, 0x62, 0x62]).length + 7) / 8 ≤ (configured 4 2 5).params.pkDepth ∧
    1 + ((ready.codes [0x61, 0x61, 0x61, 0x62, 0x62]).length + 7) / 8 ≤ 2 ^ (configured 4 2 5).params.lenW - 1 := by
  refine ⟨start_inv, ?_⟩
  decide

/-- The first index outside each space. -/
theorem witness_ReadsOutsideAreZero : 15 ≤ 0x0F ∧ ready.params.pkDepth ≤ 2 ∧ ready.params.doDepth ≤ 5 ∧
    decoding.readEntry 0 14 = 2 ∧ decoding.readEntry 0 15 = 0 := by decide

theorem witness_CsrReadsGiveTheRegisters : decoding.Inv := decoding_inv

/-- The last entry of each space, written and not. -/
theorem witness_MemoryReadsGiveTheEntries : ready.Inv ∧ 255 < 256 ∧ 510 < nodeMax ∧ ready.cvalidAt 0x61 = true ∧
    ready.cvalidAt 0xFF = false ∧ 1 < ready.params.pkDepth ∧ 4 < ready.params.doDepth := by
  refine ⟨ready_inv, ?_⟩
  decide

theorem witness_StepKeepsTheInvariants : (decoding.withFetchWord 16 0x3200).Inv ∧
    ∃ t, step (decoding.withFetchWord 16 0x3200) = .next t := ⟨inv_presentWord decoding_inv _, _, rfl⟩

theorem witness_EveryStepCompletes : (tree.withFetchWord 16 0x1200).Inv := inv_presentWord tree_inv _

theorem witness_EveryValueFitsItsWidth : decoding.Inv := decoding_inv

end Sys2Proof.Machine.Test
end

section
/-!
PROOFS. The statements about the state of 10_state.md: the invariants of every unit, the writers of the status flags, and
the registers on the read port.

What one step keeps is shown once (`KeptByParts.of_step`): a property that each part of a step keeps, a step keeps.
-/

namespace Sys2Proof.Machine

variable {s t : State} {i : Instr} {c : ECode}

/-! ## What a completed command writes -/

/-- The state `s` with what a completed command may write taken from `t`: its own unit, and the PHASE it leaves (R54, R83).
CLR writes everything but the parameters and the host's side of the ports (R82). -/
def commandFrame (s t : State) : Instr → State
  | .nop => s
  | .clr => s.clear
  | .sym _ => { s with st := t.st }
  | .build => { s with tb := t.tb, phase := .tree }
  | .gen => { s with cg := t.cg, phase := .ready }
  | .encbeg => { s with en := t.en, phase := .enc }
  | .enc _ => { s with en := t.en }
  | .encend => { s with en := t.en, phase := .ready }
  | .decbeg => { s with de := t.de, phase := .dec }
  | .decb _ => { s with de := t.de }
  | .decend => { s with de := t.de, phase := .ready }

theorem commandBody_frame (hb : commandBody i s = .done t) : t = commandFrame s t i := by
  cases i with
  | nop => exact (Performed.done.inj hb).symm
  | clr => exact (Performed.done.inj hb).symm
  | sym y => exact symBody_frame hb
  | build => exact (buildBody_frame hb).1
  | gen => exact genBody_frame hb
  | encbeg => exact (encbegBody_frame hb).1
  | enc y => exact (encBody_frame hb).1
  | encend => exact (encendBody_frame hb).1
  | decbeg => exact (decbegBody_frame hb).1
  | decb b => exact (decbBody_frame hb).1
  | decend => exact (decendBody_frame hb).1

/-- Every command keeps the parameters, CLR included (log 2). -/
theorem commandBody_params (hb : commandBody i s = .done t) : t.params = s.params := by
  have hf := commandBody_frame hb
  cases i <;> exact (congrArg State.params hf :)

/-- The SymbolTable is written by SYM, CLR apart (R54). -/
theorem commandBody_st (hb : commandBody i s = .done t) (hc : i ≠ .clr) (hsym : ∀ y, i ≠ .sym y) : t.st = s.st := by
  have hf := commandBody_frame hb
  cases i with
  | clr => exact absurd rfl hc
  | sym y => exact absurd rfl (hsym y)
  | _ => exact (congrArg State.st hf :)

/-- The encoder is written by its own three commands, CLR apart (R54). -/
theorem commandBody_en (hb : commandBody i s = .done t) (hc : i ≠ .clr) (hbeg : i ≠ .encbeg) (henc : ∀ y, i ≠ .enc y)
    (hend : i ≠ .encend) : t.en = s.en := by
  have hf := commandBody_frame hb
  cases i with
  | clr => exact absurd rfl hc
  | encbeg => exact absurd rfl hbeg
  | enc y => exact absurd rfl (henc y)
  | encend => exact absurd rfl hend
  | _ => exact (congrArg State.en hf :)

/-- The decoder is written by its own three commands, CLR apart (R54). -/
theorem commandBody_de (hb : commandBody i s = .done t) (hc : i ≠ .clr) (hbeg : i ≠ .decbeg) (hdec : ∀ b, i ≠ .decb b)
    (hend : i ≠ .decend) : t.de = s.de := by
  have hf := commandBody_frame hb
  cases i with
  | clr => exact absurd rfl hc
  | decbeg => exact absurd rfl hbeg
  | decb b => exact absurd rfl (hdec b)
  | decend => exact absurd rfl hend
  | _ => exact (congrArg State.de hf :)

/-! ## What every step keeps -/

/-- The only command performed in HALT is CLR (R192). -/
theorem legalIn_halt (hl : Instr.legalIn i .halt = true) : i = .clr := by
  cases i with
  | clr => rfl
  | _ => cases hl

/-- A command that raises a fault of its own was not halted (R194): CLR raises none. -/
theorem running_of_raise (hl : Instr.legalIn i s.phase = true) (hb : commandBody i s = .raise c) : s.phase ≠ .halt := by
  intro hp
  obtain rfl := legalIn_halt (hp ▸ hl)
  cases hb

/-- A property of states that each part of a step keeps: the host's side of the ports, reset and CLR, fault entry, and
each of the other commands when it completes. -/
structure KeptByParts (P : State → Prop) : Prop where
  takeInput : ∀ {s : State} (rest : List HostInput), P s → P (s.takeInput rest)
  selectRead : ∀ {s : State} (space : BitVec 3) (addr : Nat), P s → P (s.selectRead space addr)
  clear : ∀ {s : State}, P s → P s.clear
  raiseFault : ∀ {s : State} {c : ECode} (low : Byte), P s → s.phase ≠ .halt → c ≠ .noFault → P (s.raiseFault c low)
  completes : ∀ {i : Instr} {s t : State}, P s → i ≠ .clr → Instr.legalIn i s.phase = true →
    commandBody i s = .done t → P t

namespace KeptByParts

variable {P : State → Prop}

/-- Every command keeps it, in every phase, whether it completes or faults. -/
theorem of_exec (hP : KeptByParts P) (hs : P s) (h : exec i s = .next t) : P t := by
  rcases exec_next h with ⟨-, -, rfl⟩ | ⟨hl, hb⟩ | ⟨hl, c, hb, rfl⟩ | ⟨hrun, -, rfl⟩
  · exact hs
  · by_cases hc : i = .clr
    · subst hc
      exact Performed.done.inj hb ▸ hP.clear hs
    · exact hP.completes hs hc hl hb
  · exact hP.raiseFault _ hs (running_of_raise hl hb) (commandBody_raise hb).1
  · exact hP.raiseFault _ hs hrun (by simp)

/-- A rejected word keeps it (R64, R188). -/
theorem of_rejectWord (hP : KeptByParts P) (hs : P s) (w : CmdWord) : P (s.rejectWord w) := by
  unfold State.rejectWord
  split
  · exact hs
  · next hrun => exact hP.raiseFault _ hs hrun (by simp)

/-- Every step keeps it, whatever the host does (R223). -/
theorem of_step (hP : KeptByParts P) (hs : P s) (h : step s = .next t) : P t := by
  rcases step_next h with ⟨-, rfl⟩ | ⟨w, rest, -, hw⟩ | ⟨space, addr, rest, -, rfl⟩ | ⟨rest, -, rfl⟩
  · exact hs
  · rcases executeWord_next hw with ⟨i, -, hi⟩ | ⟨e, -, rfl⟩
    · exact hP.of_exec (hP.takeInput rest hs) hi
    · exact hP.of_rejectWord (hP.takeInput rest hs) w
  · exact hP.selectRead space addr (hP.takeInput rest hs)
  · exact hP.clear (hP.takeInput rest hs)

end KeptByParts

/-! ## The invariants -/

/-- A command that completes keeps the invariants: each in the phase in which it is performed (R83). -/
theorem inv_completes (h : s.Inv) (hl : Instr.legalIn i s.phase = true) (hb : commandBody i s = .done t) : t.Inv := by
  have hp := phase_of_legalIn hl
  cases i with
  | nop => exact Performed.done.inj hb ▸ h
  | clr => exact Performed.done.inj hb ▸ inv_clear h
  | sym y => exact inv_sym h hp hb
  | build => exact inv_build h hp hb
  | gen => exact inv_gen h hp hb
  | encbeg => exact inv_encbeg h hp hb
  | enc y => exact inv_enc h hp hb
  | encend => exact inv_encend h hp hb
  | decbeg => exact inv_decbeg h hp hb
  | decb b => exact inv_decb h hp hb
  | decend => exact inv_decend h hp hb

theorem inv_keptByParts : KeptByParts State.Inv where
  takeInput rest h := inv_takeInput h rest
  selectRead space addr h := inv_selectRead h space addr
  clear h := inv_clear h
  raiseFault low h hrun hc := inv_raiseFault h hrun hc low
  completes h _ hl hb := inv_completes h hl hb

/-- Settles O57: each part of a step keeps the invariants, the commands by the case split of
`inv_completes`. -/
theorem stepKeepsTheInvariants : Obligations.StepKeepsTheInvariants :=
  fun _ _ hs h => inv_keptByParts.of_step hs h

/-- Settles O56: at reset every unit is at its reset value, in the phase COUNT. -/
theorem resetSatisfiesTheInvariants : Obligations.ResetSatisfiesTheInvariants :=
  inv_reset_like (by decide) rfl rfl rfl rfl rfl rfl rfl (Nat.two_pow_pos _)

/-- Settles O9: the reset state is written out in the model, and no entry of COUNT and CVALID is listed. -/
theorem resetStateIsTheSpecs : Obligations.ResetStateIsTheSpecs := by
  refine ⟨fun y => rfl, fun y => rfl, ?_⟩
  decide

/-! ## The SymbolTable alone -/

/-- The empty table is consistent (R38). -/
theorem symbolTableOk_reset (hst : s.st = .reset) : SymbolTableOk s := by
  have hcount : ∀ y, s.countAt y = 0 := fun y => by rw [State.countAt, hst]; rfl
  have hsym : s.symbols = [] := by rw [State.symbols, hst]; rfl
  exact {
    count_wf := by rw [hst]; rfl
    nsym_le := by rw [hst]; exact Nat.zero_le _
    order_listed := by rw [hst]; rfl
    order_nodup := by rw [hsym]; exact List.nodup_nil
    counted_iff := by simp [hcount, hsym]
    total_eq := by simp [State.countSum, hcount, hst, SymbolTable.reset]
    total_fits := by rw [hst]; exact Nat.zero_le _ }

theorem symbolTableOk_completes (h : SymbolTableOk s) (hc : i ≠ .clr) (hb : commandBody i s = .done t) :
    SymbolTableOk t := by
  by_cases hsym : ∃ y, i = .sym y
  · obtain ⟨y, rfl⟩ := hsym
    exact symBody_symbolTableOk h hb
  · exact h.congr (commandBody_st hb hc fun y hy => hsym ⟨y, hy⟩) (commandBody_params hb)

theorem symbolTableOk_keptByParts : KeptByParts SymbolTableOk where
  takeInput _ h := h.congr rfl rfl
  selectRead _ _ h := h.congr rfl rfl
  clear _ := symbolTableOk_reset rfl
  raiseFault _ h _ _ := h.congr rfl rfl
  completes h hc _ hb := symbolTableOk_completes h hc hb

/-- Settles O25: SYM alone writes the SymbolTable and keeps it consistent, CLR and reset empty it. -/
theorem stepKeepsSymbolTable : Obligations.StepKeepsSymbolTable :=
  fun _ _ hs h => symbolTableOk_keptByParts.of_step hs h

/-! ## The status flags -/

/-- PKVALID is lowered by ENCBEG and raised by ENCEND (R24, R35). -/
def EncoderFlagByRule (i : Instr) (s t : State) : Prop :=
  t.en.pkvalid ≠ s.en.pkvalid → (i = .encbeg ∧ t.en.pkvalid = false) ∨ (i = .encend ∧ t.en.pkvalid = true)

/-- The decoder's flags change by the commands of their rules and to the values given there (R26 to R29, R35). -/
structure DecoderFlagsByRule (i : Instr) (s t : State) : Prop where
  dovalid : t.de.dovalid ≠ s.de.dovalid →
    (i = .decbeg ∧ t.de.dovalid = false) ∨ (i = .decend ∧ t.de.dovalid = true)
  hdrv : t.de.hdrv ≠ s.de.hdrv → (i = .decbeg ∧ t.de.hdrv = false) ∨ ∃ b, i = .decb b ∧ t.de.hdrv = true
  holdv : t.de.holdv ≠ s.de.holdv →
    ((i = .decbeg ∨ i = .decend) ∧ t.de.holdv = false) ∨ ∃ b, i = .decb b ∧ t.de.holdv = true
  dead : t.de.dead ≠ s.de.dead →
    (i = .decbeg ∨ i = .decend) ∧ t.de.dead = false ∨ ∃ b, i = .decb b ∧ t.de.dead = true

theorem EncoderFlagByRule.of_eq (h : t.en.pkvalid = s.en.pkvalid) : EncoderFlagByRule i s t := fun hne => absurd h hne

theorem DecoderFlagsByRule.of_eq (h : t.de = s.de) : DecoderFlagsByRule i s t := by
  constructor <;> exact fun hne => absurd (by rw [h]) hne

theorem decbegBody_flags (h : decbegBody s = .done t) :
    t.de.dovalid = false ∧ t.de.hdrv = false ∧ t.de.holdv = false ∧ t.de.dead = false := by
  rw [decbegBody, Performed.done.injEq] at h
  rw [← h]
  exact ⟨rfl, rfl, rfl, rfl⟩

theorem encoderFlagByRule_completes (hc : i ≠ .clr) (hb : commandBody i s = .done t) : EncoderFlagByRule i s t := by
  cases i with
  | encbeg => exact fun _ => .inl ⟨rfl, (encbegBody_frame hb).2⟩
  | enc y =>
    obtain ⟨-, hpk, -⟩ := encBody_frame hb
    exact .of_eq hpk
  | encend => exact fun _ => .inr ⟨rfl, (encendBody_frame hb).2⟩
  | _ => exact .of_eq (by rw [commandBody_en hb hc (by simp) (by simp) (by simp)])

theorem decoderFlagsByRule_completes (hc : i ≠ .clr) (hb : commandBody i s = .done t) : DecoderFlagsByRule i s t := by
  cases i with
  | decbeg =>
    obtain ⟨hdo, hhd, hho, hde⟩ := decbegBody_flags hb
    exact ⟨fun _ => .inl ⟨rfl, hdo⟩, fun _ => .inl ⟨rfl, hhd⟩, fun _ => .inl ⟨.inl rfl, hho⟩,
      fun _ => .inl ⟨.inl rfl, hde⟩⟩
  | decb b =>
    obtain ⟨-, hdo, hhd, hho, hde, -⟩ := decbBody_frame hb
    exact ⟨fun hne => absurd hdo hne, fun _ => .inr ⟨b, rfl, hhd⟩, fun hne => .inr ⟨b, rfl, hho hne⟩,
      fun hne => .inr ⟨b, rfl, hde hne⟩⟩
  | decend =>
    obtain ⟨-, hdo, hho, hde, hhd⟩ := decendBody_frame hb
    exact ⟨fun _ => .inr ⟨rfl, hdo⟩, fun hne => absurd hhd hne, fun _ => .inl ⟨.inr rfl, hho⟩,
      fun _ => .inl ⟨.inr rfl, hde⟩⟩
  | _ => exact .of_eq (commandBody_de hb hc (by simp) (by simp) (by simp))

theorem flagsByRule_exec (hc : i ≠ .clr) (h : exec i s = .next t) : EncoderFlagByRule i s t ∧ DecoderFlagsByRule i s t := by
  rcases exec_next h with ⟨-, -, rfl⟩ | ⟨-, hb⟩ | ⟨-, c, -, rfl⟩ | ⟨-, -, rfl⟩
  · exact ⟨.of_eq rfl, .of_eq rfl⟩
  · exact ⟨encoderFlagByRule_completes hc hb, decoderFlagsByRule_completes hc hb⟩
  · exact ⟨.of_eq rfl, .of_eq rfl⟩
  · exact ⟨.of_eq rfl, .of_eq rfl⟩

/-- Settles O23: fault entry writes no flag, and each completed command writes those of its rule. -/
theorem flagsHaveTheirWriters : Obligations.FlagsHaveTheirWriters := by
  intro i s t h hc
  obtain ⟨hpk, hdo, hhd, hho, hde⟩ := flagsByRule_exec hc h
  exact ⟨hpk, hdo, hhd, hho, hde⟩

/-! ## The registers fit their fields -/

theorem lt_two_pow_lenW {p : Params} {v : Nat} (h : v ≤ p.lenMax) : v < 2 ^ p.lenW := by
  have := Nat.two_pow_pos p.lenW
  unfold Params.lenMax at h
  omega

/-- A cursor of a memory of d entries, d itself included, fits "ceil(log2(d + 1))" bits (R7). -/
theorem lt_two_pow_ceilLog2 {v d : Nat} (h : v ≤ d) : v < 2 ^ ceilLog2 (d + 1) := by
  unfold ceilLog2
  split
  · omega
  · rw [Nat.add_sub_cancel]
    exact lt_of_le_of_lt h Nat.lt_log2_self

theorem root_le_nnode_le (h : s.Inv) : s.tb.root ≤ s.tb.nnode ∧ s.tb.nnode ≤ 511 := by
  by_cases hw : s.workPhase = .count
  · rw [h.tree_ok.none_before hw]
    decide
  · have ht := h.tree_ok.built_after hw
    refine ⟨?_, nnode_le h ht⟩
    rw [ht.root_eq, ht.nnode_eq]
    omega

/-- MAXLEN is the length of a code, and a code has at most NSYM - 1 bits, or one (R21, R126). -/
theorem maxlen_lt (h : s.Inv) : s.cg.maxlen < 256 := by
  by_cases hw : s.workPhase = .count ∨ s.workPhase = .tree
  · rw [h.code_ok.none_before hw]
    decide
  · rw [not_or] at hw
    have hcb := h.code_ok.derived_after hw.1 hw.2
    obtain ⟨y, hy, hlen⟩ := hcb.maxlen_reached
    obtain ⟨-, hle⟩ := hcb.clen_range y hy
    have hn : s.st.nsym ≤ 256 := h.symbols_ok.nsym_le
    omega

/-! ## Reading the registers -/

theorem toNat_append_eq_add {m n : Nat} (a : BitVec m) (b : BitVec n) :
    (a ++ b).toNat = 2 ^ n * a.toNat + b.toNat := by
  rw [BitVec.toNat_append, ← Nat.shiftLeft_add_eq_or_of_lt b.isLt, Nat.shiftLeft_eq, Nat.mul_comm]

/-- STATUS as the sum of its fields at their bit positions (R37). -/
theorem status_toNat (hnbits : s.en.nbits ≤ 7) (hpad : s.en.pad ≤ 7) (hdpad : s.de.dpad ≤ 7) :
    s.status.toNat = s.phase.bits.toNat + 2 ^ 3 * s.en.pkvalid.toNat + 2 ^ 4 * s.de.dovalid.toNat +
      2 ^ 5 * s.de.hdrv.toNat + 2 ^ 6 * s.de.holdv.toNat + 2 ^ 7 * s.de.dead.toNat + 2 ^ 8 * s.en.nbits +
      2 ^ 11 * s.en.pad + 2 ^ 14 * s.de.dpad := by
  simp only [State.status, toNat_append_eq_add, BitVec.toNat_ofNat, BitVec.toNat_ofBool]
  omega

/-- ERR as the sum of its fields at their bit positions (R37). -/
theorem err_toNat (s : State) :
    s.err.toNat = s.fr.ecode.bits.toNat + 2 ^ 3 * s.fr.ephase.bits.toNat + 2 ^ 8 * s.fr.esym.toNat := by
  have hzero : (0 : BitVec 2).toNat = 0 := rfl
  simp only [State.err, toNat_append_eq_add, hzero]
  omega

/-- A register that fits its field reads as its value (R37). -/
theorem regField_of_lt {w v : Nat} (h : v < 2 ^ w) : regField w v = v := Nat.mod_eq_of_lt h

/-- Space 0 answers the register of the number (R43). -/
theorem readEntry_csr {n : Nat} (h : n < 15) : s.readEntry 0 n = s.readCsr n := if_pos h

/-- Settles O54: under the invariants every register fits its field, so that the read port cuts nothing off. -/
theorem csrReadsGiveTheRegisters : Obligations.CsrReadsGiveTheRegisters := by
  intro s h
  obtain ⟨hroot, hnnode⟩ := root_le_nnode_le h
  have hnsym : s.st.nsym ≤ 256 := h.symbols_ok.nsym_le
  have hdcur : s.de.dcur < 511 := h.decoder_ok.dcur_node
  simp (disch := decide) only [readEntry_csr]
  refine ⟨?status, ?err, ?eoff, ?nsym, ?total, ?nnode, ?root, ?maxlen, ?pklen, ?dolen, ?enccnt, ?dbytes, rfl, rfl, ?dcur⟩
  case status => exact status_toNat h.encoder_ok.nbits_le h.encoder_ok.pad_le h.decoder_ok.dpad_le
  case err => exact err_toNat s
  case eoff => exact regField_of_lt (lt_two_pow_lenW h.fault_ok.eoff_fits)
  case nsym => exact regField_of_lt (by omega)
  case total => exact regField_of_lt (lt_two_pow_lenW h.symbols_ok.total_fits)
  case nnode => exact regField_of_lt (by omega)
  case root => exact regField_of_lt (by omega)
  case maxlen => exact regField_of_lt (maxlen_lt h)
  case pklen => exact regField_of_lt (lt_two_pow_ceilLog2 h.encoder_ok.pklen_le)
  case dolen => exact regField_of_lt (lt_two_pow_ceilLog2 h.decoder_ok.dolen_le)
  case enccnt => exact regField_of_lt (lt_two_pow_lenW h.encoder_ok.enccnt_fits)
  case dbytes => exact regField_of_lt (lt_two_pow_lenW h.decoder_ok.dbytes_fits)
  case dcur => exact regField_of_lt (by omega)

end Sys2Proof.Machine
end

section
/-!
PROOFS. The statements about the ports of 20_memory.md: the command port, the read port with its address spaces, and the
units that a command writes.
-/

namespace Sys2Proof.Machine

variable {s t : State} {i : Instr} {space : BitVec 3} {a : Nat}

/-! ## What a command leaves unchanged -/

/-- No command writes the host's side of the ports, CLR included (logs 1 and 6). -/
theorem commandBody_port (hb : commandBody i s = .done t) : t.port = s.port := by
  have hf := commandBody_frame hb
  cases i <;> exact (congrArg State.port hf :)

/-- No command but CLR begins an epoch of the free values (log 3). -/
theorem commandBody_epoch (hb : commandBody i s = .done t) (hc : i ≠ .clr) : t.epoch = s.epoch := by
  have hf := commandBody_frame hb
  cases i with
  | clr => exact absurd rfl hc
  | _ => exact (congrArg State.epoch hf :)

/-- The tree builder is written by BUILD, CLR apart (R54). -/
theorem commandBody_tb (hb : commandBody i s = .done t) (hc : i ≠ .clr) (hbuild : i ≠ .build) : t.tb = s.tb := by
  have hf := commandBody_frame hb
  cases i with
  | clr => exact absurd rfl hc
  | build => exact absurd rfl hbuild
  | _ => exact (congrArg State.tb hf :)

/-- The code-table generator is written by GEN, CLR apart (R54). -/
theorem commandBody_cg (hb : commandBody i s = .done t) (hc : i ≠ .clr) (hgen : i ≠ .gen) : t.cg = s.cg := by
  have hf := commandBody_frame hb
  cases i with
  | clr => exact absurd rfl hc
  | gen => exact absurd rfl hgen
  | _ => exact (congrArg State.cg hf :)

/-- A command completes, or it changes nothing but the fault record and PHASE (R191, R192). -/
theorem exec_completes_or_keeps (h : exec i s = .next t) :
    (Instr.legalIn i s.phase = true ∧ commandBody i s = .done t) ∨ t = { s with fr := t.fr, phase := t.phase } := by
  rcases exec_next h with ⟨-, -, rfl⟩ | hdone | ⟨-, c, -, rfl⟩ | ⟨-, -, rfl⟩
  · exact .inr rfl
  · exact .inl hdone
  · exact .inr rfl
  · exact .inr rfl

/-- The SymbolTable and the tree are written in phase COUNT only, CLR apart (R84). -/
theorem commandBody_st_tb_of_phase (hb : commandBody i s = .done t) (hl : Instr.legalIn i s.phase = true)
    (hc : i ≠ .clr) (hp : s.phase ≠ .count) : t.st = s.st ∧ t.tb = s.tb :=
  ⟨commandBody_st hb hc fun _ hi => hp (phase_of_legalIn (hi ▸ hl)),
    commandBody_tb hb hc fun hi => hp (phase_of_legalIn (hi ▸ hl))⟩

/-- The CodeBook is written in phase TREE only, CLR apart (R84). -/
theorem commandBody_cg_of_phase (hb : commandBody i s = .done t) (hl : Instr.legalIn i s.phase = true)
    (hc : i ≠ .clr) (hp : s.phase ≠ .tree) : t.cg = s.cg :=
  commandBody_cg hb hc fun hi => hp (phase_of_legalIn (hi ▸ hl))

/-- Settles O22: a completed command writes its own unit, in the phase in which it is legal, and every other end of a
command writes no unit. -/
theorem commandsWriteTheirOwnUnit : Obligations.CommandsWriteTheirOwnUnit := by
  intro i s t h hc
  rcases exec_completes_or_keeps h with ⟨hl, hb⟩ | hkeeps
  · exact ⟨commandBody_params hb, commandBody_epoch hb hc, commandBody_port hb, commandBody_st hb hc,
      commandBody_tb hb hc, commandBody_cg hb hc, commandBody_en hb hc, commandBody_de hb hc,
      commandBody_st_tb_of_phase hb hl hc, commandBody_cg_of_phase hb hl hc⟩
  · rw [hkeeps]
    simp

/-! ## One step takes one action of the host -/

/-- Every command leaves the parameters and the host's side of the ports as they are (logs 1, 2 and 6). -/
theorem exec_params_port (h : exec i s = .next t) : t.params = s.params ∧ t.port = s.port := by
  rcases exec_completes_or_keeps h with ⟨-, hb⟩ | hkeeps
  · exact ⟨commandBody_params hb, commandBody_port hb⟩
  · exact ⟨(congrArg State.params hkeeps :), (congrArg State.port hkeeps :)⟩

theorem rejectWord_params_port (s : State) (w : CmdWord) :
    (s.rejectWord w).params = s.params ∧ (s.rejectWord w).port = s.port := by
  unfold State.rejectWord
  split <;> exact ⟨rfl, rfl⟩

theorem executeWord_params_port {w : CmdWord} (h : executeWord w s = .next t) :
    t.params = s.params ∧ t.port = s.port := by
  rcases executeWord_next h with ⟨i, -, hi⟩ | ⟨e, -, rfl⟩
  · exact exec_params_port hi
  · exact rejectWord_params_port s w

/-- Settles O7: the step removes the action it takes, and what that action does leaves the rest of the list alone. -/
theorem stepTakesOneHostAction : Obligations.StepTakesOneHostAction := by
  intro s t h
  rcases step_next h with ⟨hin, rfl⟩ | ⟨w, rest, hin, hw⟩ | ⟨space, addr, rest, hin, rfl⟩ | ⟨rest, hin, rfl⟩
  · simp [hin]
  · obtain ⟨hparams, hport⟩ := executeWord_params_port hw
    rw [hport, hparams, hin]
    exact ⟨rfl, rfl⟩
  · rw [hin]
    exact ⟨rfl, rfl⟩
  · rw [hin]
    exact ⟨rfl, rfl⟩

theorem step_command {w : CmdWord} {rest : List HostInput} (hin : s.port.inputs = .command w :: rest) :
    step s = executeWord w (s.takeInput rest) := by
  rw [step, hin]

theorem step_read {rest : List HostInput} (hin : s.port.inputs = .read space a :: rest) :
    step s = .next ((s.takeInput rest).selectRead space a) := by
  rw [step, hin]

theorem executeWord_of_decode {w : CmdWord} (hd : decode w = .ok i) (s : State) : executeWord w s = exec i s := by
  rw [executeWord, hd]

/-- Settles O6: the step executes the word it takes, and the word is the command it decodes to. -/
theorem stepRunsDecodedCommand : Obligations.StepRunsDecodedCommand := by
  intro s w rest i hin hd
  rw [step_command hin, executeWord_of_decode hd]
  rfl

/-! ## The read port -/

theorem readEntry_of_lt (h : a < s.entries space) : s.readEntry space a = s.entry space a := if_pos h

theorem readEntry_of_le (h : s.entries space ≤ a) : s.readEntry space a = 0 := if_neg (Nat.not_lt.2 h)

/-- Settles O53: each bound is the entry count of its space (R43), and space 7 has no entry. -/
theorem readsOutsideAreZero : Obligations.ReadsOutsideAreZero := fun _ _ =>
  ⟨fun h => readEntry_of_le h, fun h => ⟨readEntry_of_le h, readEntry_of_le h⟩, fun h => readEntry_of_le h,
    fun h => readEntry_of_le h, fun h => readEntry_of_le h, fun h => readEntry_of_le h, readEntry_of_le (Nat.zero_le _)⟩

/-- The read port shows the entry that the pins select, cut to RD_W bits (R42). -/
theorem rdData_toNat (s : State) :
    s.rdData.toNat = s.readEntry s.port.rdSpace s.port.rdAddr % 2 ^ s.params.rdW := BitVec.toNat_ofNat _ _

/-- A memory of n entries has its indexes in "ceil(log2(n))" bits (R7). -/
theorem le_two_pow_ceilLog2 (n : Nat) : n ≤ 2 ^ ceilLog2 n := by
  cases n with
  | zero => exact Nat.zero_le _
  | succ d => exact lt_two_pow_ceilLog2 (le_refl d)

/-- RA_W bits address every entry of every space (R7, R43). -/
theorem entries_le_two_pow_raW (s : State) (space : BitVec 3) : s.entries space ≤ 2 ^ s.params.raW := by
  have hfixed : 2 ^ 9 ≤ 2 ^ s.params.raW := Nat.pow_le_pow_right (by decide) (le_max_left _ _)
  have hpk : s.params.pkDepth ≤ 2 ^ s.params.raW := (le_two_pow_ceilLog2 _).trans
    (Nat.pow_le_pow_right (by decide) ((le_max_left _ _).trans (le_max_right _ _)))
  have hdo : s.params.doDepth ≤ 2 ^ s.params.raW := (le_two_pow_ceilLog2 _).trans
    (Nat.pow_le_pow_right (by decide) ((le_max_right _ _).trans (le_max_right _ _)))
  unfold State.entries
  split
  case h_6 => exact hpk
  case h_7 => exact hdo
  all_goals exact le_trans (by decide) hfixed

/-- Settles O8: a read writes the pins alone, so the read port answers from the registers and memories the read found, and
a second read of the same entry finds the pins as it would leave them. -/
theorem readHasNoSideEffect : Obligations.ReadHasNoSideEffect := by
  intro s space addr rest hin
  have hdata : ((s.takeInput rest).selectRead space addr).rdData.toNat =
      s.readEntry space (addr % 2 ^ s.params.raW) % 2 ^ s.params.rdW := rdData_toNat _
  refine ⟨(s.takeInput rest).selectRead space addr, step_read hin, rfl, hdata, fun haddr => ?_, fun more hrest => ?_⟩
  · rwa [Nat.mod_eq_of_lt (haddr.trans_le (entries_le_two_pow_raW s space))] at hdata
  · exact step_read (s := (s.takeInput rest).selectRead space addr) hrest

/-! ## The memories on the read port -/

theorem mem_of_find {α : Type} {m : Mem α} {v : α} (h : Mem.find m a = some v) : (a, v) ∈ m := by
  induction m with
  | nil => cases h
  | cons e m ih =>
    obtain ⟨b, w⟩ := e
    rw [find_cons] at h
    split at h
    · next hab =>
      obtain rfl := Option.some.inj h
      exact hab ▸ List.mem_cons_self
    · exact List.mem_cons_of_mem _ (ih h)

/-- A canonical memory lists no entry equal to what an unlisted index reads as. -/
theorem find_ne_unlisted {α : Type} [DecidableEq α] {size : Nat} {unlisted : Option α} {m : Mem α} {v : α}
    (hm : Mem.wf size unlisted m = true) (hf : Mem.find m a = some v) : unlisted ≠ some v := by
  simp only [Mem.wf, Bool.and_eq_true, List.all_eq_true, decide_eq_true_eq] at hm
  exact (hm.2 _ (mem_of_find hf)).2

/-- The numbers of a node fit their fields in the layout of R45. -/
structure Node.FitsLayout (lenW : Nat) (n : Node) : Prop where
  weight_lt : n.weight < 2 ^ lenW
  left_lt : n.left < 2 ^ 9
  right_lt : n.right < 2 ^ 9

/-- A NODE entry as the sum of its fields at their bit positions (R45). -/
theorem Node.FitsLayout.pack_toNat {lenW : Nat} {n : Node} (h : n.FitsLayout lenW) :
    (n.pack lenW).toNat = n.right + 2 ^ 9 * n.left + 2 ^ 18 * n.sym.toNat + 2 ^ 26 * n.weight +
      2 ^ (lenW + 26) * n.leaf.toNat := by
  simp only [Node.pack, toNat_append_eq_add, BitVec.toNat_ofNat, BitVec.toNat_ofBool, Nat.mod_eq_of_lt h.weight_lt,
    Nat.mod_eq_of_lt h.left_lt, Nat.mod_eq_of_lt h.right_lt]
  ring

/-- A free value is cut to the fields of the layout (log 3). -/
theorem unpack_fitsLayout (lenW bits : Nat) : (Node.unpack lenW bits).FitsLayout lenW where
  weight_lt := Nat.mod_lt _ (Nat.two_pow_pos _)
  left_lt := Nat.mod_lt _ (by decide)
  right_lt := Nat.mod_lt _ (by decide)

/-- ROOT carries the weight of the whole input (R108). -/
theorem root_weight_eq_total (hs : SymbolTableOk s) (ht : TreeShape s) : (s.nodeAt s.tb.root).weight = s.st.total := by
  calc (s.nodeAt s.tb.root).weight
      = ((List.range s.st.nsym).map fun i => (s.nodeAt i).weight).sum := (sum_leaves_eq_root ht).symm
    _ = ((List.range s.st.nsym).map fun i => s.countAt (s.orderAt i)).sum :=
        congrArg List.sum (List.map_congr_left fun i hi => by rw [ht.leaf_eq i (List.mem_range.1 hi)])
    _ = (s.symbols.map s.countAt).sum := by rw [symbols_eq_map hs, List.map_map]; rfl
    _ = s.st.total := sum_counts_symbols hs

/-- The nodes of the tree fit their fields: no weight exceeds TOTAL, and a child is below its parent (R106, R108). -/
theorem treeNode_fitsLayout (h : s.Inv) (ht : TreeShape s) {k : Nat} (hk : k < s.tb.nnode) :
    (s.nodeAt k).FitsLayout s.params.lenW := by
  have hle : s.tb.nnode ≤ 511 := nnode_le h ht
  have hweight : (s.nodeAt k).weight < 2 ^ s.params.lenW := lt_two_pow_lenW <|
    (weight_le_root ht hk).trans ((root_weight_eq_total h.symbols_ok ht).trans_le h.symbols_ok.total_fits)
  by_cases hleaf : k < s.st.nsym
  · have hk := ht.leaf_eq k hleaf
    exact ⟨hweight, by rw [hk]; exact Nat.two_pow_pos 9, by rw [hk]; exact Nat.two_pow_pos 9⟩
  · obtain ⟨-, -, hleft, hright, -⟩ := ht.inner k (Nat.not_lt.1 hleaf) hk
    exact ⟨hweight, by omega, by omega⟩

/-- Every NODE entry fits its fields: a written one is a node of the tree (R84), an unwritten one a free value. -/
theorem nodeAt_fitsLayout (h : s.Inv) (k : Nat) : (s.nodeAt k).FitsLayout s.params.lenW := by
  cases hf : Mem.find s.tb.node k with
  | none =>
    rw [State.nodeAt, hf]
    exact unpack_fitsLayout _ _
  | some n =>
    have hbuilt : s.workPhase ≠ .count := fun hw => by
      rw [h.tree_ok.none_before hw] at hf
      cases hf
    have ht := h.tree_ok.built_after hbuilt
    exact treeNode_fitsLayout h ht ((find_isSome_of_listed ht.listed k).1 (by rw [hf]; rfl))

/-- A symbol with a listed CLEN belongs to the CodeBook of GEN, which lists CLEN and CVALID together (R19, R84). -/
theorem codeBook_of_listed (h : CodeBookOk s) {y : Byte} {n : Nat} (hf : Mem.find s.cg.clen y.toNat = some n) :
    CodeBookShape s ∧ s.cvalidAt y = true := by
  by_cases hw : s.workPhase = .count ∨ s.workPhase = .tree
  · rw [h.none_before hw] at hf
    cases hf
  · rw [not_or] at hw
    have hshape := h.derived_after hw.1 hw.2
    have hlisted : (Mem.find s.cg.cvalid y.toNat).isSome := by
      rw [find_isSome_iff, ← hshape.clen_listed, ← find_isSome_iff, hf]
      rfl
    obtain ⟨v, hv⟩ := Option.isSome_iff_exists.1 hlisted
    have hne := find_ne_unlisted h.cvalid_wf hv
    refine ⟨hshape, ?_⟩
    rw [State.cvalidAt, hv, Option.getD_some]
    simpa using hne

/-- Every CLEN fits 8 bits: a written one is the length of a code (R126), an unwritten one a free value. -/
theorem clenAt_lt (h : s.Inv) (y : Byte) : s.clenAt y < 2 ^ 8 := by
  cases hf : Mem.find s.cg.clen y.toNat with
  | none =>
    rw [State.clenAt, hf]
    exact Nat.mod_lt _ (by decide)
  | some n =>
    obtain ⟨hshape, hvalid⟩ := codeBook_of_listed h.code_ok hf
    obtain ⟨-, hlen⟩ := hshape.clen_range y hvalid
    have hn : s.st.nsym ≤ 256 := h.symbols_ok.nsym_le
    omega

/-- A CODE entry as the sum of its fields at their bit positions (R45). -/
theorem codeEntry_toNat {y : Byte} (h : s.clenAt y < 2 ^ 8) :
    (s.codeEntry y).toNat = (s.cbitsAt y).toNat + 2 ^ 255 * s.clenAt y + 2 ^ 263 * (s.cvalidAt y).toNat := by
  simp only [State.codeEntry, toNat_append_eq_add, BitVec.toNat_ofNat, BitVec.toNat_ofBool, Nat.mod_eq_of_lt h]
  omega

theorem countAt_lt (h : s.Inv) (y : Byte) : s.countAt y < 2 ^ s.params.lenW :=
  lt_two_pow_lenW ((countAt_le_total h.symbols_ok y).trans h.symbols_ok.total_fits)

theorem readEntry_count (s : State) (y : Byte) : s.readEntry 1 y.toNat = regField s.params.lenW (s.countAt y) := by
  rw [readEntry_of_lt (show y.toNat < s.entries 1 from y.isLt)]
  exact congrArg (fun z => regField s.params.lenW (s.countAt z)) (ofNat_toNat_byte y)

theorem readEntry_code (s : State) (y : Byte) : s.readEntry 4 y.toNat = (s.codeEntry y).toNat := by
  rw [readEntry_of_lt (show y.toNat < s.entries 4 from y.isLt)]
  exact congrArg (fun z => (s.codeEntry z).toNat) (ofNat_toNat_byte y)

/-- Settles O55: under the invariants every field of an entry, written or not, fits its place in the layout. -/
theorem memoryReadsGiveTheEntries : Obligations.MemoryReadsGiveTheEntries := by
  intro s h
  refine ⟨fun y => ?count, fun i hi => readEntry_of_lt hi, fun k hk => ?node, fun y => ?code,
    fun i hi => readEntry_of_lt hi, fun i hi => readEntry_of_lt hi⟩
  case count => exact (readEntry_count s y).trans (regField_of_lt (countAt_lt h y))
  case node => exact (readEntry_of_lt hk).trans (nodeAt_fitsLayout h k).pack_toNat
  case code => exact (readEntry_code s y).trans (codeEntry_toNat (clenAt_lt h y))

end Sys2Proof.Machine
end

section
/-!
PROOFS. The statements about the command words of 30_encoding.md.

A word decodes to a command exactly when it is the word of that command (`decode_eq_ok_iff`); the rows of the opcode map
and the count rest on this. The illegal words are told by the two bytes of the word (`exists_error_iff_op`).
-/

namespace Sys2Proof.Machine

variable {s : State} {w : CmdWord} {i : Instr}

/-! ## Decoding and encoding -/

/-- Every command is read back from its word (R60 to R63). -/
theorem decode_encode (i : Instr) : decode (encode i) = .ok i := by
  rw [encode, decode_append]
  cases i <;> rfl

/-- A word is the word of the command that has its two bytes (R60). -/
theorem encode_eq_of_bytes (hop : CmdWord.op w = i.opcode) (himm : CmdWord.imm8 w = i.imm8) : encode i = w := by
  rw [encode, ← hop, ← himm, op_append_imm8]

theorem encode_of_decode (h : decode w = .ok i) : encode i = w := by
  obtain ⟨himm, hop⟩ := imm8_of_decode h
  exact encode_eq_of_bytes hop himm

theorem decode_eq_ok_iff : decode w = .ok i ↔ encode i = w :=
  ⟨encode_of_decode, fun h => h ▸ decode_encode i⟩

theorem encode_injective : Function.Injective encode := fun i _ h =>
  Except.ok.inj ((decode_encode i).symm.trans (decode_eq_ok_iff.2 h.symm))

/-- Every operand is legal (R61). -/
theorem instr_wf (i : Instr) : i.wf = true := by
  cases i <;> rfl

/-- Settles O2: a command is two bytes, from which decoding reads it back. -/
theorem decodeAndEncodeAgree : Obligations.DecodeAndEncodeAgree :=
  ⟨fun i _ => decode_encode i, fun _ i h => ⟨instr_wf i, encode_of_decode h⟩⟩

/-- Settles O1: each word is the word of its command; the last two are no command's. -/
theorem sampleWordsDecode : Obligations.SampleWordsDecode :=
  ⟨decode_encode .nop, decode_encode .clr, decode_encode (.sym 0x61), decode_encode .build, decode_encode .gen,
    decode_encode .encbeg, decode_encode (.enc 0x62), decode_encode .encend, decode_encode .decbeg,
    decode_encode (.decb 0x6E), decode_encode .decend, rfl, rfl⟩

/-! ## The opcode map -/

/-- The row of a command without an operand selects one word, its pattern (R62). -/
theorem eq_pattern_of_selectedBy {name : String} {p : CmdWord} (h : OpcodeRow.selectedBy ⟨name, p, 0xFFFF⟩ w = true) :
    p = w := by
  have hand : w &&& BitVec.allOnes 16 = p := beq_iff_eq.1 h
  rwa [BitVec.and_allOnes, eq_comm] at hand

/-- The row of a command with an operand fixes the high byte and leaves the operand free (R62). -/
theorem op_eq_of_selectedBy {name : String} {p : CmdWord} {op : Byte}
    (h : OpcodeRow.selectedBy ⟨name, p, 0xFF00⟩ w = true) (hp : CmdWord.op p = op) : CmdWord.op w = op := by
  have hand : w &&& 0xFF00 = p := beq_iff_eq.1 h
  calc CmdWord.op w = CmdWord.op w &&& CmdWord.op 0xFF00 := BitVec.and_allOnes.symm
    _ = CmdWord.op (w &&& 0xFF00) := BitVec.extractLsb'_and.symm
    _ = op := by rw [hand, hp]

/-- A word that selects a row of the opcode map is the word of a command of that row (R62). -/
theorem exists_encode_of_selectedBy {r : OpcodeRow} (hr : r ∈ opcodeMap) (h : r.selectedBy w = true) :
    ∃ i, encode i = w ∧ i.mnemonic = r.mnemonic := by
  simp only [opcodeMap, List.mem_cons, List.not_mem_nil, or_false] at hr
  rcases hr with rfl | rfl | rfl | rfl | rfl | rfl | rfl | rfl | rfl | rfl | rfl
  · exact ⟨.nop, eq_pattern_of_selectedBy h, rfl⟩
  · exact ⟨.clr, eq_pattern_of_selectedBy h, rfl⟩
  · exact ⟨.sym (CmdWord.imm8 w), encode_eq_of_bytes (op_eq_of_selectedBy h rfl) rfl, rfl⟩
  · exact ⟨.build, eq_pattern_of_selectedBy h, rfl⟩
  · exact ⟨.gen, eq_pattern_of_selectedBy h, rfl⟩
  · exact ⟨.encbeg, eq_pattern_of_selectedBy h, rfl⟩
  · exact ⟨.enc (CmdWord.imm8 w), encode_eq_of_bytes (op_eq_of_selectedBy h rfl) rfl, rfl⟩
  · exact ⟨.encend, eq_pattern_of_selectedBy h, rfl⟩
  · exact ⟨.decbeg, eq_pattern_of_selectedBy h, rfl⟩
  · exact ⟨.decb (CmdWord.imm8 w), encode_eq_of_bytes (op_eq_of_selectedBy h rfl) rfl, rfl⟩
  · exact ⟨.decend, eq_pattern_of_selectedBy h, rfl⟩

/-- The word of a command selects the command's row (R62). -/
theorem encode_selects_row (i : Instr) : Laws.Encoding.Statement i :=
  match i with
  | .nop => Laws.Encoding.nop
  | .clr => Laws.Encoding.clr
  | .sym y => Laws.Encoding.sym y
  | .build => Laws.Encoding.build
  | .gen => Laws.Encoding.gen
  | .encbeg => Laws.Encoding.encbeg
  | .enc y => Laws.Encoding.enc y
  | .encend => Laws.Encoding.encend
  | .decbeg => Laws.Encoding.decbeg
  | .decb b => Laws.Encoding.decb b
  | .decend => Laws.Encoding.decend

/-- No two rows of the opcode map share a mnemonic (R62). -/
theorem row_eq_of_mnemonic_eq : ∀ q ∈ opcodeMap, ∀ r ∈ opcodeMap, q.mnemonic = r.mnemonic → q = r := by decide

/-- Settles O3: a selected row makes the word the word of a command of that row, and a word is the word of one command
only. -/
theorem decodeFollowsOpcodeMap : Obligations.DecodeFollowsOpcodeMap := by
  intro w
  constructor
  · intro i h
    obtain rfl := encode_of_decode h
    obtain ⟨⟨r, hr, hname, hsel⟩, -⟩ := encode_selects_row i
    refine ⟨r, hr, hsel, hname, fun q hq hqsel => ?_⟩
    obtain ⟨j, hj, hjname⟩ := exists_encode_of_selectedBy hq hqsel
    obtain rfl := encode_injective hj
    exact row_eq_of_mnemonic_eq q hq r hr (hjname.symm.trans hname.symm)
  · intro r hr hsel
    obtain ⟨i, hi, hname⟩ := exists_encode_of_selectedBy hr hsel
    exact ⟨i, decode_eq_ok_iff.2 hi, hname⟩

/-! ## Counting the words -/

/-- The commands without an operand, in the order of the opcode map (R62). -/
def plainCommands : List Instr := [.nop, .clr, .build, .gen, .encbeg, .encend, .decbeg, .decend]

/-- Every command, once: the eight without an operand, then three for each byte (R63). -/
def commands : List Instr :=
  plainCommands ++ (FinEnum.toList Byte).map .sym ++ (FinEnum.toList Byte).map .enc ++ (FinEnum.toList Byte).map .decb

theorem mem_commands (i : Instr) : i ∈ commands := by
  cases i <;> simp [commands, plainCommands]

theorem commands_nodup : commands.Nodup := by
  have hbytes {f : Byte → Instr} (hf : Function.Injective f) : ((FinEnum.toList Byte).map f).Nodup :=
    FinEnum.nodup_toList.map hf
  have hsym := hbytes fun _ _ => Instr.sym.inj
  have henc := hbytes fun _ _ => Instr.enc.inj
  have hdecb := hbytes fun _ _ => Instr.decb.inj
  have hplain : plainCommands.Nodup := by decide
  refine ((hplain.append hsym ?_).append henc ?_).append hdecb ?_ <;>
    simp [plainCommands, List.Disjoint, or_imp, forall_and]

theorem commands_length : commands.length = 3 * 256 + 8 := by
  simp [commands, plainCommands, FinEnum.toList]

/-- The words that are commands. -/
def commandWords : Finset CmdWord := (commands.map encode).toFinset

theorem mem_commandWords : w ∈ commandWords ↔ ∃ i, decode w = .ok i := by
  simp [commandWords, mem_commands, decode_eq_ok_iff]

theorem card_commandWords : commandWords.card = 3 * 256 + 8 := by
  rw [commandWords, List.toFinset_card_of_nodup (commands_nodup.map encode_injective), List.length_map, commands_length]

/-- A word that is no command is rejected, with one of the reasons of R64: decoding is total (R63). -/
theorem exists_error_iff : (∃ e, decode w = .error e) ↔ ¬ ∃ i, decode w = .ok i := by
  cases decode w <;> simp

theorem card_cmdWord : Fintype.card CmdWord = 65536 := FinEnum.card_eq_fintypeCard.symm

/-- Settles O4: distinct commands have distinct words, so there are as many of these as commands, and the illegal words
are the rest of the 65536. -/
theorem commandWordsAreCounted : Obligations.CommandWordsAreCounted := by
  refine ⟨commandWords.toList, commandWordsᶜ.toList, Finset.nodup_toList _, Finset.nodup_toList _, ?_, ?_, ?_, ?_⟩
  · rw [Finset.length_toList, card_commandWords]
  · rw [Finset.length_toList, Finset.card_compl, card_commandWords, card_cmdWord]
  · exact fun w => Finset.mem_toList.trans mem_commandWords
  · intro w
    rw [Finset.mem_toList, Finset.mem_compl, mem_commandWords, exists_error_iff]

/-! ## The illegal words -/

/-- A word is illegal when its opcode takes no operand, and it is unassigned or the operand byte is not zero (R64). -/
theorem exists_error_iff_op : (∃ e, decode w = .error e) ↔
    CmdWord.op w ≠ 0x10 ∧ CmdWord.op w ≠ 0x21 ∧ CmdWord.op w ≠ 0x31 ∧
      (plainCommand (CmdWord.op w) = none ∨ CmdWord.imm8 w ≠ 0) := by
  unfold decode
  dsimp only
  split
  · next hop => exact iff_of_false (by simp) fun ⟨hne, _⟩ => hne hop
  next hsym =>
  split
  · next hop => exact iff_of_false (by simp) fun ⟨_, hne, _⟩ => hne hop
  next henc =>
  split
  · next hop => exact iff_of_false (by simp) fun ⟨_, _, hne, _⟩ => hne hop
  next hdecb =>
  split
  · next hplain =>
    split
    · next himm => simp [hplain, himm]
    · next himm => exact iff_of_true ⟨_, rfl⟩ ⟨hsym, henc, hdecb, .inr himm⟩
  · next hplain => exact iff_of_true ⟨_, rfl⟩ ⟨hsym, henc, hdecb, .inl hplain⟩

/-- The opcodes of the commands without an operand (R62). -/
theorem plainCommand_eq_none_iff {op : Byte} : plainCommand op = none ↔
    op ≠ 0x00 ∧ op ≠ 0x01 ∧ op ≠ 0x11 ∧ op ≠ 0x12 ∧ op ≠ 0x20 ∧ op ≠ 0x22 ∧ op ≠ 0x30 ∧ op ≠ 0x32 := by
  simp only [plainCommand, ite_eq_iff, reduceCtorEq, and_false, false_or, and_true, ne_eq]

theorem executeWord_of_error {e : Illegal} (hd : decode w = .error e) (s : State) :
    executeWord w s = .next (s.rejectWord w) := by
  rw [executeWord, hd]

theorem rejectWord_running (hrun : s.phase ≠ .halt) (w : CmdWord) :
    s.rejectWord w = s.raiseFault .illegalCmd (CmdWord.imm8 w) := if_neg hrun

theorem rejectWord_halted (hhalt : s.phase = .halt) (w : CmdWord) : s.rejectWord w = s := if_pos hhalt

/-- Settles O5: the ranges of R64 are the opcodes outside the table, and an illegal word is rejected before any command
is performed. -/
theorem illegalWordsFault : Obligations.IllegalWordsFault := by
  intro w s op illegal
  have hillegal : illegal ↔ ∃ e, decode w = .error e := by
    rw [exists_error_iff_op, plainCommand_eq_none_iff]
    simp only [illegal, op, ne_eq, ← BitVec.toNat_inj, BitVec.reduceToNat]
    omega
  refine ⟨hillegal, fun hw hrun => ?_, fun hw hhalt => ?_⟩
  · obtain ⟨e, he⟩ := hillegal.1 hw
    rw [executeWord_of_error he, rejectWord_running hrun]
    rfl
  · obtain ⟨e, he⟩ := hillegal.1 hw
    rw [executeWord_of_error he, rejectWord_halted hhalt]

end Sys2Proof.Machine
end

section
/-!
PROOFS. The statements about control of 40_control.md: the phase table of R83, the widths of R86, and the commands CLR and
NOP.
-/

namespace Sys2Proof.Machine

variable {s t : State} {i : Instr}

/-! ## The phase table -/

/-- A command that completes leaves PHASE as the column "After" of R83 says: its pseudocode assigns PHASE, or the phase it
is legal in is the phase it leaves. -/
theorem commandBody_phase (hl : Instr.legalIn i s.phase = true) (hb : commandBody i s = .done t) :
    t.phase = Instr.phaseAfter i s.phase := by
  have hframe : t.phase = (commandFrame s t i).phase := congrArg State.phase (commandBody_frame hb)
  have hp := phase_of_legalIn hl
  cases i with
  | sym y => exact hframe.trans hp
  | enc y => exact hframe.trans hp
  | decb b => exact hframe.trans hp
  | _ => exact hframe

/-- Settles O17: a command that completes was legal and leaves its phase of the table; every other end of a command that
finds a running core is fault entry. -/
theorem phaseFollowsTable : Obligations.PhaseFollowsTable := by
  intro i s t h hrun
  rcases exec_next h with ⟨hhalt, -⟩ | ⟨hl, hb⟩ | ⟨-, c, hb, rfl⟩ | ⟨-, -, rfl⟩
  · exact absurd hhalt hrun
  · exact .inr ⟨commandBody_phase hl hb, phase_of_legalIn hl⟩
  · exact .inl ⟨rfl, (commandBody_raise hb).1⟩
  · exact .inl ⟨rfl, ECode.noConfusion⟩

/-! ## The widths -/

/-- ROOT is the last node of the tree, and 0 without a tree (R106). -/
theorem root_lt_nodeMax (h : s.Inv) : s.tb.root < nodeMax := by
  by_cases hw : s.workPhase = .count
  · rw [h.tree_ok.none_before hw]
    decide
  · have hroot := (h.tree_ok.built_after hw).root_eq
    have hnsym : s.st.nsym ≤ 256 := h.symbols_ok.nsym_le
    rw [hroot]
    exact (by omega : 2 * s.st.nsym - 2 < 511)

/-- Nodes exist only once BUILD has made the tree (R84). -/
theorem treeShape_of_lt_nnode (h : s.Inv) {k : Nat} (hk : k < s.tb.nnode) : TreeShape s := by
  refine h.tree_ok.built_after fun hw => ?_
  rw [h.tree_ok.none_before hw] at hk
  exact absurd hk (Nat.not_lt_zero k)

/-- The links of a leaf are 0, and those of an internal node are below its own index (R101, R106). -/
theorem links_lt_nodeMax (h : s.Inv) (ht : TreeShape s) {k : Nat} (hk : k < s.tb.nnode) :
    (s.nodeAt k).left < nodeMax ∧ (s.nodeAt k).right < nodeMax := by
  by_cases hleaf : k < s.st.nsym
  · rw [ht.leaf_eq k hleaf]
    exact ⟨Nat.succ_pos 510, Nat.succ_pos 510⟩
  · obtain ⟨-, -, hleft, hright, -⟩ := ht.inner k (Nat.not_lt.1 hleaf) hk
    have hkmax : k < nodeMax := hk.trans_le (nnode_le h ht)
    exact ⟨hleft.trans hkmax, hright.trans hkmax⟩

/-- Settles O59: each unit's invariant bounds its own registers; the weights are bounded by TOTAL, and the lengths of codes
by NSYM. -/
theorem everyValueFitsItsWidth : Obligations.EveryValueFitsItsWidth := fun _ h =>
  { counts := countAt_lt h
    nsym := h.symbols_ok.nsym_le
    total := lt_two_pow_lenW h.symbols_ok.total_fits
    nodes := fun _ hk =>
      have ht := treeShape_of_lt_nnode h hk
      ⟨(treeNode_fitsLayout h ht hk).weight_lt, links_lt_nodeMax h ht hk⟩
    nnode := (root_le_nnode_le h).2
    root := root_lt_nodeMax h
    clens := fun y _ => clenAt_lt h y
    maxlen := maxlen_lt h
    encoder := ⟨Nat.lt_succ_of_le h.encoder_ok.nbits_le, Nat.lt_succ_of_le h.encoder_ok.pad_le, h.encoder_ok.pklen_le,
      lt_two_pow_lenW h.encoder_ok.enccnt_fits⟩
    decoder := ⟨Nat.lt_succ_of_le h.decoder_ok.dpad_le, h.decoder_ok.dcur_node, h.decoder_ok.dolen_le,
      lt_two_pow_lenW h.decoder_ok.dbytes_fits⟩
    eoff := lt_two_pow_lenW h.fault_ok.eoff_fits
    rdAddr := h.rdAddr_fits }

/-! ## CLR and NOP -/

/-- CLR completes in every phase, HALT included (R82). -/
theorem exec_clr (s : State) : exec .clr s = .next s.clear := exec_done rfl rfl

/-- NOP completes in every phase of a running core, and a halted core ignores it (R81, R192). -/
theorem exec_nop (s : State) : exec .nop s = .next s := by
  by_cases hhalt : s.phase = .halt
  · exact exec_halted hhalt (by simp)
  · exact exec_done (bne_iff_ne.2 hhalt) rfl

/-- Settles O10: 0x0100 is the word of CLR, and the state CLR leaves has the reset value in every unit. -/
theorem clrReturnsToStart : Obligations.ClrReturnsToStart := by
  intro s
  refine ⟨s.clear, (executeWord_of_decode (decode_encode .clr) s).trans (exec_clr s), exec_clr s, fun y => ⟨rfl, rfl⟩, ?_⟩
  simp [SymbolTable.reset, TreeUnit.reset, CodeUnit.reset, EncoderUnit.reset, DecoderUnit.reset, FaultRecord.reset]

/-- Settles O12: 0x0000 is the word of NOP. -/
theorem nopChangesNothing : Obligations.NopChangesNothing := fun s =>
  ⟨exec_nop s, (executeWord_of_decode (decode_encode .nop) s).trans (exec_nop s)⟩

end Sys2Proof.Machine
end

section
/-!
PROOFS. The statements about the symbol table counter of 41_symbol_table.md: what one SYM does (R90), and the SymbolTable
of a whole input (R91).
-/

namespace Sys2Proof.Machine

variable {s t : State} {y : Byte}

/-! ## One SYM -/

/-- SYM completes unless TOTAL is full (R90). -/
theorem symBody_completes (y : Byte) (hroom : s.st.total ≠ s.params.lenMax) : ∃ t, symBody y s = .done t :=
  ⟨_, if_neg hroom⟩

theorem symBody_full (y : Byte) (hfull : s.st.total = s.params.lenMax) : symBody y s = .raise .capacity := if_pos hfull

theorem exec_sym_done (hp : s.phase = .count) (hb : symBody y s = .done t) : exec (.sym y) s = .next t :=
  exec_done (i := .sym y) (beq_iff_eq.2 hp) hb

/-- A symbol seen for the first time is appended to ORDER, where its index is below 256 (R12, R90). -/
theorem symBody_orderAt_new (hs : SymbolTableOk s) (hnew : s.countAt y = 0) (h : symBody y s = .done t) :
    t.st.nsym = s.st.nsym + 1 ∧ t.orderAt s.st.nsym = y ∧ ∀ i, i ≠ s.st.nsym → t.orderAt i = s.orderAt i := by
  obtain ⟨-, rfl⟩ := symBody_done h
  have hlt := nsym_lt_of_new hs hnew
  have hself : Mem.find (Mem.write alpha none s.st.order s.st.nsym y) s.st.nsym = some y :=
    find_write_self hlt (Option.some_ne_none y).symm
  simp only [State.orderAt, if_pos hnew, hself, Option.getD_some, true_and]
  exact fun i hi => by rw [find_write_of_ne _ _ _ hi]

/-- A symbol seen before leaves ORDER and NSYM alone (R90). -/
theorem symBody_orderAt_old (hold : s.countAt y ≠ 0) (h : symBody y s = .done t) :
    t.st.nsym = s.st.nsym ∧ ∀ i, t.orderAt i = s.orderAt i := by
  obtain ⟨-, rfl⟩ := symBody_done h
  simp [State.orderAt, hold]

theorem symBody_total (h : symBody y s = .done t) : t.st.total = s.st.total + 1 := by
  rw [(symBody_done h).2]

/-- Settles O24: COUNT, TOTAL, ORDER and NSYM after a completed SYM, and its two faults. -/
theorem symCountsOneSymbol : Obligations.SymCountsOneSymbol := by
  intro y s hs
  refine ⟨fun hp hroom => ?_, fun hp hfull => ?_, fun hp hrun => ?_⟩
  · obtain ⟨t, hb⟩ := symBody_completes y hroom
    have hcount := symBody_countAt hb
    exact ⟨t, exec_sym_done hp hb, symBody_frame hb, by rw [hcount, if_pos rfl],
      fun z hz => by rw [hcount, if_neg hz], symBody_total hb, fun hnew => symBody_orderAt_new hs hnew hb,
      fun hold => symBody_orderAt_old hold hb⟩
  · exact exec_raise (beq_iff_eq.2 hp) (symBody_full y hfull)
  · exact exec_sequence hrun (beq_eq_false_iff_ne.2 hp)

/-! ## A whole input -/

/-- The symbols in order of first occurrence after a completed SYM (R91). -/
theorem symBody_symbols (hs : SymbolTableOk s) (h : symBody y s = .done t) :
    t.symbols = if s.countAt y = 0 then s.symbols ++ [y] else s.symbols := by
  obtain ⟨-, rfl⟩ := symBody_done h
  by_cases hy : s.countAt y = 0
  · simp [State.symbols, hy, write_append hs.order_listed (nsym_lt_of_new hs hy)]
  · simp [State.symbols, hy]

theorem eraseDups_concat (x : List Byte) (y : Byte) :
    (x ++ [y]).eraseDups = if y ∈ x then x.eraseDups else x.eraseDups ++ [y] := by
  by_cases hy : y ∈ x
  · simp [List.eraseDups_append, List.removeAll, hy]
  · simp [List.eraseDups_append, List.removeAll, hy, List.eraseDups_cons]

/-- The SymbolTable of the state is the one of an input: occurrences, first occurrences in order, length (R91). -/
structure TableOf (x : List Byte) (s : State) : Prop where
  ok : SymbolTableOk s
  counts : ∀ y, s.countAt y = x.count y
  symbols_eq : s.symbols = x.eraseDups
  total_eq : s.st.total = x.length

theorem tableOf_nil (hst : s.st = .reset) : TableOf [] s where
  ok := symbolTableOk_reset hst
  counts _ := by rw [State.countAt, hst]; rfl
  symbols_eq := by rw [State.symbols, hst]; rfl
  total_eq := by rw [hst]; rfl

/-- A completed SYM takes the table of an input to the table of that input with one more symbol. -/
theorem TableOf.concat {x : List Byte} (hx : TableOf x s) (h : symBody y s = .done t) : TableOf (x ++ [y]) t where
  ok := symBody_symbolTableOk hx.ok h
  counts z := by
    rw [symBody_countAt h, hx.counts, hx.counts, List.count_append, List.count_singleton]
    by_cases hz : z = y
    · simp [hz]
    · simp [hz, Ne.symm hz]
  symbols_eq := by
    rw [symBody_symbols hx.ok h, hx.counts, hx.symbols_eq, eraseDups_concat]
    by_cases hy : y ∈ x
    · rw [if_pos hy, if_neg (List.count_pos_iff.2 hy).ne']
    · rw [if_neg hy, if_pos (List.count_eq_zero.2 hy)]
  total_eq := by rw [symBody_total h, hx.total_eq, List.length_append, List.length_singleton]

/-- Counting the rest of an input, when its beginning has been counted and TOTAL has room for all of it. -/
theorem execAll_sym {p x : List Byte} (hp : TableOf p s) (hph : s.phase = .count)
    (hlen : p.length + x.length ≤ s.params.lenMax) :
    ∃ t, execAll (x.map .sym) s = .next t ∧ t = { s with st := t.st } ∧ TableOf (p ++ x) t := by
  induction x generalizing p s with
  | nil => exact ⟨s, rfl, rfl, (List.append_nil p).symm ▸ hp⟩
  | cons y x ih =>
    rw [List.length_cons] at hlen
    have hroom : s.st.total ≠ s.params.lenMax := by rw [hp.total_eq]; omega
    obtain ⟨u, hb⟩ := symBody_completes y hroom
    have hu := symBody_frame hb
    have hph' : u.phase = .count := by rw [hu]; exact hph
    have hlen' : (p ++ [y]).length + x.length ≤ u.params.lenMax := by
      rw [List.length_append, List.length_singleton, hu]
      show p.length + 1 + x.length ≤ s.params.lenMax
      omega
    obtain ⟨t, hall, ht, htable⟩ := ih (hp.concat hb) hph' hlen'
    refine ⟨t, ?_, ?_, List.append_cons p y x ▸ htable⟩
    · rw [List.map_cons, execAll, exec_sym_done hph hb]
      exact hall
    · rw [hu] at ht
      exact ht

/-- Settles O26: the empty table is the table of the empty input, and each SYM appends one symbol to the input counted. -/
theorem symbolTableOfInput : Obligations.SymbolTableOfInput := by
  intro x s hph hst hlen
  obtain ⟨t, hall, hframe, htable⟩ := execAll_sym (tableOf_nil hst) hph ((Nat.zero_add x.length).trans_le hlen)
  rw [List.nil_append] at htable
  refine ⟨t, hall, hframe, htable.counts, htable.symbols_eq, ?_, htable.total_eq⟩
  rw [← symbols_length htable.ok, htable.symbols_eq]

end Sys2Proof.Machine
end

section
/-!
PROOFS. The statements about the tree builder of 42_tree_builder.md: the sorted arrangement (R102, R103), the tree of
BUILD (R100 to R106) with its weights (R108), and that the SymbolTable alone determines it (R109).

For R109, "the two lowest keys among the nodes not yet joined" names two nodes (`TwoLowest.unique`). So a tree built by
such merges is known from its leaves on, node after node, and GEN reads nothing but that tree.
-/

namespace Sys2Proof.Machine

variable {s t v : State} {k : Nat}

/-! ## Sort -/

theorem keyLt_asymm {j k : Nat} (h : s.keyLt j k = true) : ¬ s.keyLt k j = true := fun h' =>
  keyLt_irrefl j (keyLt_trans h h')

/-- Keys are pairwise distinct, so a list has one arrangement with ascending keys (R102). -/
theorem State.Sorted.eq_of_perm {w w' : List Nat} (hw : s.Sorted w) (hw' : s.Sorted w') (hperm : w.Perm w') : w = w' :=
  hperm.eq_of_pairwise (fun _ _ _ _ hab hba => absurd hba (keyLt_asymm hab)) hw hw'

/-- Settles O28: the key is a strict total order, so the sorted list that repeated Insert gives is the only one. -/
theorem sortIsTheUniqueArrangement : Obligations.SortIsTheUniqueArrangement := by
  intro s
  refine ⟨keyLt_iff s, fun a => Bool.eq_false_iff.2 (keyLt_irrefl a),
    fun a b hne => or_iff_not_imp_left.2 (keyLt_total hne), fun a b c => keyLt_trans, fun n => ?_⟩
  obtain ⟨hsorted, hperm⟩ := sortKeys_spec s (List.nodup_range (n := n))
  exact ⟨hperm, hsorted, fun w hw hws => hws.eq_of_perm hsorted (hw.trans hperm.symm)⟩

/-! ## The tree of BUILD -/

/-- Before BUILD there is no tree (R84). -/
theorem tb_reset_of_count (h : s.Inv) (hp : s.phase = .count) : s.tb = .reset :=
  h.tree_ok.none_before (by rw [workPhase_running (by simp [hp]), hp])

/-- BUILD of a non-empty SymbolTable, as a command: it completes, writes the tree and PHASE only, and leaves the shape of
R106 made by the merges of R104. -/
theorem exec_build_done (h : s.Inv) (hp : s.phase = .count) (hn : 1 ≤ s.st.nsym) :
    ∃ t, exec .build s = .next t ∧ t = { s with tb := t.tb, phase := .tree } ∧ t.tb.work = [] ∧ TreeShape t ∧
      t.GreedyMerges := by
  obtain ⟨t, hb, ht⟩ := buildBody_spec h.symbols_ok.nsym_le (tb_reset_of_count h hp) hn
  exact ⟨t, exec_done (i := .build) (beq_iff_eq.2 hp) hb, ht⟩

theorem find_eq_none_of_listed {α : Type} {m : Mem α} {n : Nat} (hlist : m.map Prod.fst = List.range n) (hk : n ≤ k) :
    Mem.find m k = none := by
  rw [← Option.not_isSome_iff_eq_none, find_isSome_of_listed hlist]
  exact Nat.not_lt.2 hk

/-- An entry of NODE beyond the listed ones is a free value (R36; log 3). -/
theorem nodeAt_of_le_listed {n : Nat} (hlist : s.tb.node.map Prod.fst = List.range n) (hk : n ≤ k) :
    s.nodeAt k = Node.unpack s.params.lenW (Config.freeEntry s.epoch spaceNode k) := by
  rw [State.nodeAt, find_eq_none_of_listed hlist hk, Option.getD_none]

/-- Settles O29: the merge loop's invariant gives the shape of R106, and the entries beyond NNODE stay unwritten. -/
theorem buildMakesTheTree : Obligations.BuildMakesTheTree := by
  intro s h hp hn
  obtain ⟨t, hexec, hframe, hwork, ht, -⟩ := exec_build_done h hp hn
  have hst : t.st = s.st := (congrArg State.st hframe :)
  have hparams : t.params = s.params := (congrArg State.params hframe :)
  have hepoch : t.epoch = s.epoch := (congrArg State.epoch hframe :)
  have hempty : s.tb.node.map Prod.fst = List.range 0 := by
    rw [tb_reset_of_count h hp]
    rfl
  refine ⟨t, hexec, hframe, hwork, hst ▸ ht.nnode_eq, hst ▸ ht.root_eq, fun i hi => ?_, fun k hnk hk => ?_,
    ht.owned_once, fun k hk => ?_⟩
  · exact (ht.leaf_eq i (hst ▸ hi)).trans (congrFun (leafFor_congr hst hepoch) i)
  · obtain ⟨hleaf, hsym, hleft, hright, -⟩ := ht.inner k (hst ▸ hnk) hk
    exact ⟨hleaf, hsym, hleft, hright⟩
  · rw [nodeAt_of_le_listed ht.listed hk, nodeAt_of_le_listed hempty (Nat.zero_le k), hparams, hepoch]

/-- Settles O30: the merge loop's invariant says it of every merge. -/
theorem buildMergesTheTwoLowest : Obligations.BuildMergesTheTwoLowest := by
  intro s t h hp hn hexec
  obtain ⟨t', hexec', -, -, -, hgreedy⟩ := exec_build_done h hp hn
  obtain rfl : t' = t := Host.Outcome.next.inj (hexec'.symm.trans hexec)
  exact hgreedy

/-! ## The children of one node -/

theorem TreeShape.nsym_le_of_inner (ht : TreeShape s) (hk : k < s.tb.nnode) (hl : (s.nodeAt k).leaf = false) :
    s.st.nsym ≤ k := by
  rw [← Nat.not_lt, ← ht.leaf_iff hk, hl]
  exact Bool.false_ne_true

/-- The children of the first internal nodes are pairwise distinct: every node is a child at most once (R106). -/
theorem TreeShape.childrenUpTo_nodup (ht : TreeShape s) {m : Nat} (hm : m ≤ s.tb.nnode) :
    (s.childrenUpTo s.st.nsym m).Nodup := by
  have hnn := ht.nnode_eq
  have hall : s.children.Nodup := ht.owned_once.nodup_iff.2 List.nodup_range
  exact hall.sublist ((List.range'_sublist_right.2 (by omega)).flatMap _)

/-- The children of an internal node are two different nodes, and no earlier merge took them (R104, R106). -/
theorem TreeShape.children_fresh (ht : TreeShape s) (hn : s.st.nsym ≤ k) (hk : k < s.tb.nnode) :
    (s.nodeAt k).left ≠ (s.nodeAt k).right ∧ (s.nodeAt k).left ∉ s.childrenUpTo s.st.nsym k ∧
      (s.nodeAt k).right ∉ s.childrenUpTo s.st.nsym k := by
  have hnodup := ht.childrenUpTo_nodup (m := k + 1) hk
  rw [childrenUpTo_succ s hn] at hnodup
  obtain ⟨-, hpair, hdisj⟩ := List.nodup_append.1 hnodup
  exact ⟨by simpa using hpair, fun hm => hdisj _ hm _ (by simp) rfl, fun hm => hdisj _ hm _ (by simp) rfl⟩

/-! ## The weights -/

theorem orderAt_mem_symbols (hs : SymbolTableOk s) (hk : k < s.st.nsym) : s.orderAt k ∈ s.symbols :=
  List.mem_of_getElem? (orderAt_of_listed hs hk)

/-- A leaf's symbol was counted, and an internal node weighs at least as much as its left child (R108). -/
theorem one_le_weight (hs : SymbolTableOk s) (ht : TreeShape s) (hk : k < s.tb.nnode) : 1 ≤ (s.nodeAt k).weight := by
  induction k using Nat.strongRecOn with
  | ind k ih =>
    rcases Nat.lt_or_ge k s.st.nsym with hleaf | hn
    · rw [ht.leaf_eq k hleaf]
      exact (hs.counted_iff _).2 (orderAt_mem_symbols hs hleaf)
    · obtain ⟨-, -, hleft, -, hweight⟩ := ht.inner k hn hk
      have hpos := ih _ hleft (hleft.trans hk)
      omega

theorem leaf_weight_eq_count (ht : TreeShape s) (hk : k < s.tb.nnode) (hl : (s.nodeAt k).leaf = true) :
    (s.nodeAt k).weight = s.countAt (s.nodeAt k).sym := by
  rw [ht.leaf_eq k ((ht.leaf_iff hk).1 hl)]

theorem counted_iff_leaf (hs : SymbolTableOk s) (ht : TreeShape s) (y : Byte) :
    1 ≤ s.countAt y ↔ ∃ k, k < s.tb.nnode ∧ (s.nodeAt k).leaf = true ∧ (s.nodeAt k).sym = y := by
  have hnn := ht.nnode_eq
  rw [hs.counted_iff, symbols_eq_map hs, List.mem_map]
  constructor
  · rintro ⟨k, hk, rfl⟩
    have hk' := List.mem_range.1 hk
    exact ⟨k, by omega, by rw [ht.leaf_eq k hk'], by rw [ht.leaf_eq k hk']⟩
  · rintro ⟨k, hk, hl, rfl⟩
    have hk' := (ht.leaf_iff hk).1 hl
    exact ⟨k, List.mem_range.2 hk', by rw [ht.leaf_eq k hk']⟩

/-- Settles O31: past COUNT a good state has the shape of R106; the sum over all leaves is TOTAL, and each weight lies
between the leaves' and ROOT's. -/
theorem treeConservesWeight : Obligations.TreeConservesWeight := by
  intro s h hw
  have hs := h.symbols_ok
  have ht := h.tree_ok.built_after hw
  have hroot := root_weight_eq_total hs ht
  refine ⟨fun k hk hl => ?_, hroot, fun k hk => leaf_weight_eq_count ht hk,
    fun k hk => ⟨one_le_weight hs ht hk, (weight_le_root ht hk).trans_eq hroot⟩, counted_iff_leaf hs ht,
    fun j k hj hk => leaf_of_sym hs ht hj hk⟩
  have hn := ht.nsym_le_of_inner hk hl
  obtain ⟨-, -, hleft, hright, hweight⟩ := ht.inner k hn hk
  exact ⟨hleft, hright, (ht.children_fresh hn hk).1, hweight⟩

/-! ## The leaves determine the tree -/

/-- Node j exists when node k is made, and no earlier merge took it (R104). -/
def State.FreeAt (s : State) (k j : Nat) : Prop := j < k ∧ j ∉ s.childrenUpTo s.st.nsym k

/-- `lo` and `hi` are the free nodes of lowest and second lowest key when node k is made (R104). -/
structure TwoLowest (s : State) (k lo hi : Nat) : Prop where
  lo_free : s.FreeAt k lo
  hi_free : s.FreeAt k hi
  lo_lt_hi : s.keyLt lo hi = true
  hi_lt : ∀ j, s.FreeAt k j → j ≠ lo → j ≠ hi → s.keyLt hi j = true

theorem twoLowest_children (ht : TreeShape s) (hg : s.GreedyMerges) (hn : s.st.nsym ≤ k) (hk : k < s.tb.nnode) :
    TwoLowest s k (s.nodeAt k).left (s.nodeAt k).right := by
  obtain ⟨-, -, hleft, hright, -⟩ := ht.inner k hn hk
  obtain ⟨-, hleftFree, hrightFree⟩ := ht.children_fresh hn hk
  obtain ⟨hlt, hrest⟩ := hg k hn hk
  exact ⟨⟨hleft, hleftFree⟩, ⟨hright, hrightFree⟩, hlt, fun j hj => hrest j hj.1 hj.2⟩

namespace TwoLowest

variable {lo hi lo' hi' : Nat}

/-- Every free node but `lo` has a greater key than `lo`. -/
theorem lo_lt (h : TwoLowest s k lo hi) {j : Nat} (hj : s.FreeAt k j) (hne : j ≠ lo) : s.keyLt lo j = true := by
  by_cases hhi : j = hi
  · exact hhi ▸ h.lo_lt_hi
  · exact keyLt_trans h.lo_lt_hi (h.hi_lt j hj hne hhi)

/-- Two pairs of lowest keys are the same pair: of two different nodes, each would be below the other. -/
theorem unique (h : TwoLowest s k lo hi) (h' : TwoLowest s k lo' hi') : lo = lo' ∧ hi = hi' := by
  obtain rfl : lo = lo' := by
    by_contra hne
    exact keyLt_asymm (h.lo_lt h'.lo_free (Ne.symm hne)) (h'.lo_lt h.lo_free hne)
  refine ⟨rfl, ?_⟩
  have hhi : hi ≠ lo := fun heq => keyLt_irrefl lo (heq ▸ h.lo_lt_hi)
  have hhi' : hi' ≠ lo := fun heq => keyLt_irrefl lo (heq ▸ h'.lo_lt_hi)
  by_contra hne
  exact keyLt_asymm (h.hi_lt hi' h'.hi_free hhi' (Ne.symm hne)) (h'.hi_lt hi h.hi_free hhi hne)

/-- Which two keys are lowest depends on the nodes below k only. -/
theorem congr (h : TwoLowest s k lo hi) (hnsym : t.st.nsym = s.st.nsym) (hat : ∀ j, j < k → t.nodeAt j = s.nodeAt j) :
    TwoLowest t k lo hi := by
  have hfree : ∀ j, t.FreeAt k j ↔ s.FreeAt k j := fun j => by
    rw [State.FreeAt, State.FreeAt, hnsym, childrenUpTo_congr fun i _ hik => hat i hik]
  have hkey : ∀ i j, i < k → j < k → t.keyLt i j = s.keyLt i j := fun i j hik hjk =>
    keyLt_congr (hat i hik) (hat j hjk)
  have hlo := h.lo_free.1
  have hhi := h.hi_free.1
  exact {
    lo_free := (hfree lo).2 h.lo_free
    hi_free := (hfree hi).2 h.hi_free
    lo_lt_hi := (hkey lo hi hlo hhi).trans h.lo_lt_hi
    hi_lt := fun j hj hjlo hjhi => (hkey hi j hhi hj.1).trans (h.hi_lt j ((hfree j).1 hj) hjlo hjhi) }

end TwoLowest

/-- The node that a merge of `lo` and `hi` makes (R104). -/
def State.joined (s : State) (lo hi : Nat) : Node :=
  { leaf := false, weight := (s.nodeAt lo).weight + (s.nodeAt hi).weight, sym := 0, left := lo, right := hi }

theorem TreeShape.nodeAt_inner (ht : TreeShape s) (hn : s.st.nsym ≤ k) (hk : k < s.tb.nnode) :
    s.nodeAt k = s.joined (s.nodeAt k).left (s.nodeAt k).right := by
  obtain ⟨hleaf, hsym, -, -, hweight⟩ := ht.inner k hn hk
  rw [State.joined, ← hweight, ← hleaf, ← hsym]

/-- Two trees made by greedy merges from the same leaves have the same nodes (R109). -/
theorem nodeAt_eq_of_greedy (ht : TreeShape t) (hv : TreeShape v) (htg : t.GreedyMerges) (hvg : v.GreedyMerges)
    (hnsym : t.st.nsym = v.st.nsym) (hleaf : ∀ i, i < t.st.nsym → t.leafFor i = v.leafFor i) (hk : k < t.tb.nnode) :
    t.nodeAt k = v.nodeAt k := by
  induction k using Nat.strongRecOn with
  | ind k ih =>
    rcases Nat.lt_or_ge k t.st.nsym with hlt | hn
    · exact (ht.leaf_eq k hlt).trans ((hleaf k hlt).trans (hv.leaf_eq k (hnsym ▸ hlt)).symm)
    · have hat : ∀ j, j < k → t.nodeAt j = v.nodeAt j := fun j hj => ih j hj (hj.trans hk)
      have hn' : v.st.nsym ≤ k := hnsym ▸ hn
      have hk' : k < v.tb.nnode := by rw [hv.nnode_eq, ← hnsym, ← ht.nnode_eq]; exact hk
      have hlow := twoLowest_children hv hvg hn' hk'
      obtain ⟨hleft, hright⟩ := (twoLowest_children ht htg hn hk).unique (hlow.congr hnsym hat)
      rw [ht.nodeAt_inner hn hk, hv.nodeAt_inner hn' hk', hleft, hright, State.joined, State.joined,
        hat _ hlow.lo_free.1, hat _ hlow.hi_free.1]

/-- A memory with the entries 0, ..., n-1 listed is known from what they read as. -/
theorem mem_eq_of_listed {α : Type} {m m' : Mem α} {n : Nat} (hm : m.map Prod.fst = List.range n)
    (hm' : m'.map Prod.fst = List.range n) (hfind : ∀ i, i < n → Mem.find m i = Mem.find m' i) : m = m' := by
  have hsnd : m.map Prod.snd = m'.map Prod.snd := by
    refine List.ext_getElem? fun i => ?_
    rw [← find_of_listed hm, ← find_of_listed hm']
    rcases Nat.lt_or_ge i n with hi | hi
    · exact hfind i hi
    · rw [find_eq_none_of_listed hm hi, find_eq_none_of_listed hm' hi]
  exact (List.zip_of_prod hm hsnd).trans (List.zip_of_prod hm' rfl).symm

/-- A listed entry of NODE is what it reads as. -/
theorem find_node_of_listed {n : Nat} (hlist : s.tb.node.map Prod.fst = List.range n) (hk : k < n) :
    Mem.find s.tb.node k = some (s.nodeAt k) := by
  obtain ⟨nd, hnd⟩ := Option.isSome_iff_exists.1 ((find_isSome_of_listed hlist k).2 hk)
  rw [State.nodeAt, hnd, Option.getD_some]

/-- The whole of the tree builder is the same, the list of entries included (R109). -/
theorem tb_eq_of_greedy (ht : TreeShape t) (hv : TreeShape v) (htg : t.GreedyMerges) (hvg : v.GreedyMerges)
    (htw : t.tb.work = []) (hvw : v.tb.work = []) (hnsym : t.st.nsym = v.st.nsym)
    (hleaf : ∀ i, i < t.st.nsym → t.leafFor i = v.leafFor i) : t.tb = v.tb := by
  have hnnode : t.tb.nnode = v.tb.nnode := by rw [ht.nnode_eq, hv.nnode_eq, hnsym]
  have hroot : t.tb.root = v.tb.root := by rw [ht.root_eq, hv.root_eq, hnsym]
  have hlist : v.tb.node.map Prod.fst = List.range t.tb.nnode := hnnode ▸ hv.listed
  have hnode : t.tb.node = v.tb.node := mem_eq_of_listed ht.listed hlist fun i hi => by
    rw [find_node_of_listed ht.listed hi, find_node_of_listed hlist hi,
      nodeAt_eq_of_greedy ht hv htg hvg hnsym hleaf hi]
  calc t.tb = ⟨t.tb.node, t.tb.nnode, t.tb.root, t.tb.work⟩ := rfl
    _ = ⟨v.tb.node, v.tb.nnode, v.tb.root, v.tb.work⟩ := by rw [hnode, hnnode, hroot, htw, hvw]
    _ = v.tb := rfl

/-! ## The tree determines the CodeBook -/

/-- The nodes of a tree are listed entries, so they do not depend on free values (log 3). -/
theorem nodeAt_eq_of_tb (ht : TreeShape t) (htb : t.tb = v.tb) (hk : k < t.tb.nnode) : t.nodeAt k = v.nodeAt k := by
  have hfind := find_node_of_listed ht.listed hk
  have hlist : v.tb.node.map Prod.fst = List.range t.tb.nnode := htb ▸ ht.listed
  rw [htb] at hfind
  exact Option.some.inj (hfind.symm.trans (find_node_of_listed hlist hk))

/-- The leaves below a node are those of the tree. -/
theorem below_eq_of_tb (ht : TreeShape t) (htb : t.tb = v.tb) (fuel : Nat) (hk : k < t.tb.nnode) :
    t.below fuel k = v.below fuel k := by
  induction fuel generalizing k with
  | zero => rfl
  | succ fuel ih =>
    rw [State.below, State.below, ← nodeAt_eq_of_tb ht htb hk]
    by_cases hl : (t.nodeAt k).leaf = true
    · rw [if_pos hl, if_pos hl]
    · obtain ⟨-, -, hleft, hright, -⟩ := ht.inner k (ht.nsym_le_of_inner hk (Bool.eq_false_iff.2 hl)) hk
      rw [if_neg hl, if_neg hl, ih (hleft.trans hk), ih (hright.trans hk)]

/-- The codes that GEN records, in the order of the traversal (R121, R122). -/
def State.genCodes (s : State) : List (Byte × BitString) :=
  if s.st.nsym = 1 then [((s.nodeAt s.tb.root).sym, [false])] else s.codeList

theorem TreeShape.root_lt_nnode (ht : TreeShape s) : s.tb.root < s.tb.nnode := by
  have hpos := ht.some_symbol
  rw [ht.root_eq, ht.nnode_eq]
  omega

/-- GEN records the same codes from the same tree, whatever the two states hold beside it (R109). -/
theorem genCodes_eq_of_tb (ht : TreeShape t) (htb : t.tb = v.tb) (hnsym : t.st.nsym = v.st.nsym) :
    t.genCodes = v.genCodes := by
  have hroot := ht.root_lt_nnode
  have hcodes : t.codeList = v.codeList := by
    rw [State.codeList, State.codeList, ← htb, ← below_eq_of_tb ht htb 512 hroot]
    refine List.map_congr_left fun e he => ?_
    have hle := (below_length ht 512 hroot (j := e.1) (q := e.2) he).2
    have hnnode := ht.nnode_eq
    rw [nodeAt_eq_of_tb ht htb (by omega)]
  rw [State.genCodes, State.genCodes, hcodes, hnsym, nodeAt_eq_of_tb ht htb hroot, htb]

theorem recordCode_cg_congr (hcg : t.cg = v.cg) (e : Byte × BitString) : (t.recordCode e).cg = (v.recordCode e).cg := by
  simp only [State.recordCode, State.writeCode, hcg]

/-- Recording codes reads and writes the code table only. -/
theorem recordCodeBook_cg_congr (hcg : t.cg = v.cg) (l : List (Byte × BitString)) :
    (t.recordCodeBook l).cg = (v.recordCodeBook l).cg := by
  have hfold : (l.foldl State.recordCode t).cg = (l.foldl State.recordCode v).cg := by
    induction l generalizing t v with
    | nil => exact hcg
    | cons e l ih => exact ih (recordCode_cg_congr hcg e)
  simp only [State.recordCodeBook, hfold]

/-- GEN after BUILD, as a command: it completes from an empty CodeBook (R84, R120). -/
theorem exec_gen_done (h : s.Inv) (hp : s.phase = .tree) :
    s.cg = .reset ∧ exec .gen s = .next (s.recordCodeBook s.genCodes) := by
  have hw : s.workPhase = .tree := by rw [workPhase_running (by simp [hp]), hp]
  have ht := h.tree_ok.built_after (by simp [hw])
  exact ⟨h.code_ok.none_before (.inr hw), exec_done (i := .gen) (beq_iff_eq.2 hp) (genBody_done h.symbols_ok ht)⟩

/-- Settles O32: the leaves are the same, so the trees are; the trees are the same, so the codes that GEN records are. -/
theorem sameTableSameTreeAndCodeBook : Obligations.SameTableSameTreeAndCodeBook := by
  intro s u hs hu hsp hup hn hcount hnsym horder
  obtain ⟨t, hbt, hft, hwt, ht, hgt⟩ := exec_build_done hs hsp hn
  obtain ⟨v, hbv, hfv, hwv, hv, hgv⟩ := exec_build_done hu hup (hnsym ▸ hn)
  have hst : t.st = s.st := (congrArg State.st hft :)
  have hsv : v.st = u.st := (congrArg State.st hfv :)
  have hnsym' : t.st.nsym = v.st.nsym := by rw [hst, hsv, hnsym]
  have hleaf : ∀ i, i < t.st.nsym → t.leafFor i = v.leafFor i := fun i hi => by
    rw [leafFor_congr hst (congrArg State.epoch hft :), leafFor_congr hsv (congrArg State.epoch hfv :), State.leafFor,
      State.leafFor, horder i (hst ▸ hi), hcount]
  have htb : t.tb = v.tb := tb_eq_of_greedy ht hv hgt hgv hwt hwv hnsym' hleaf
  obtain ⟨hct, hgent⟩ := exec_gen_done (inv_keptByParts.of_exec hs hbt) (congrArg State.phase hft :)
  obtain ⟨hcv, hgenv⟩ := exec_gen_done (inv_keptByParts.of_exec hu hbv) (congrArg State.phase hfv :)
  refine ⟨t, v, _, _, hbt, hbv, htb, hgent, hgenv, ?_⟩
  rw [genCodes_eq_of_tb ht htb hnsym']
  exact recordCodeBook_cg_congr (hct.trans hcv.symm) _

end Sys2Proof.Machine
end

section
/-!
PROOFS. The statements about the code-table generator of 43_codebook.md: what GEN leaves (R120 to R124), the traversal
with the explicit stack (R121), and what every CodeBook guarantees (R125, R126).

For R121, the recursion and the loop are tied by `traverse_leafPaths`: with a node on top of the stack, the loop first
records the leaves below that node, left subtree before right, and then goes on with the rest of the stack.
-/

namespace Sys2Proof.Machine

variable {s t : State} {y z : Byte}

/-! ## What GEN records -/

/-- An entry of the CodeBook after GEN: one that was there before, or one of a recorded code (R120). -/
theorem recordCodeBook_cvalidAt (s : State) (l : List (Byte × BitString)) (y : Byte) :
    (s.recordCodeBook l).cvalidAt y = (s.cvalidAt y || decide (y ∈ l.map Prod.fst)) :=
  foldl_recordCode_cvalidAt l s y

/-- GEN does not write the entry of a symbol it records no code for (R120). -/
theorem recordCodeBook_code_of_notMem (s : State) {l : List (Byte × BitString)} (h : y ∉ l.map Prod.fst) :
    (s.recordCodeBook l).clenAt y = s.clenAt y ∧ (s.recordCodeBook l).cbitsAt y = s.cbitsAt y :=
  foldl_recordCode_of_notMem l s h

/-- GEN in phase TREE leaves the CodeBook of R122 to R126 and the codes of the traversal recorded. -/
theorem exec_gen_codeBook (h : s.Inv) (hp : s.phase = .tree) :
    exec .gen s = .next (s.recordCodeBook s.genCodes) ∧ CodeBookShape (s.recordCodeBook s.genCodes) := by
  have ht : TreeShape s := h.tree_ok.built_after (by simp [workPhase_running, hp])
  obtain ⟨hcg, hexec⟩ := exec_gen_done h hp
  obtain ⟨-, hshape, -⟩ := genBody_codeBook h.symbols_ok ht hcg (genBody_done h.symbols_ok ht)
  exact ⟨hexec, hshape⟩

/-- The stored bits of a code are its numeral (R71). -/
theorem CodeBookShape.cbits_eq (hc : CodeBookShape s) (hy : s.cvalidAt y = true) :
    s.cbitsAt y = BitVec.ofNat 255 (bitVal (s.code y)) := by
  rw [State.code, bitVal_codeString (hc.cbits_fits y hy), BitVec.ofNat_toNat, BitVec.setWidth_eq]

/-- Settles O33: GEN records the codes of the traversal, which are a CodeBook; the tree and the counts that the CodeBook
speaks of are those before it. -/
theorem genDerivesTheCodeBook : Obligations.GenDerivesTheCodeBook := by
  intro s h hp
  obtain ⟨hexec, hshape⟩ := exec_gen_codeBook h hp
  have hframe := recordCodeBook_frame s s.genCodes
  have hst : (s.recordCodeBook s.genCodes).st = s.st := (congrArg State.st hframe :)
  have htb : (s.recordCodeBook s.genCodes).tb = s.tb := (congrArg State.tb hframe :)
  have hnode : (s.recordCodeBook s.genCodes).nodeAt = s.nodeAt := (congrArg State.nodeAt hframe :)
  have hpath := hshape.leaf_path
  rw [hst, htb, hnode, follow_congr hnode] at hpath
  refine ⟨_, hexec, hframe, countAt_congr hst ▸ hshape.covered_iff, fun y hy => (hshape.clen_range y hy).1, hpath,
    fun y hy => ⟨hshape.cbits_eq hy, hshape.cbits_fits y hy⟩, hshape.maxlen_bounds, hshape.maxlen_reached,
    fun y hy => ?_⟩
  refine recordCodeBook_code_of_notMem s fun hm => ?_
  rw [recordCodeBook_cvalidAt, decide_eq_true hm, Bool.or_true] at hy
  cases hy

/-- Settles O35: GEN records the one code "0" for the symbol of ROOT, and an entry is written for no other symbol. -/
theorem singleLeafGetsCodeZero : Obligations.SingleLeafGetsCodeZero := by
  intro s hp hleaf y
  have hexec : exec .gen s = .next (s.recordCodeBook [(y, [false])]) :=
    exec_done (i := .gen) (beq_iff_eq.2 hp) (if_pos hleaf)
  obtain ⟨hclen, hcbits⟩ := recordCode_code_self s (y, [false])
  refine ⟨_, hexec, recordCodeBook_frame s _, ?_, hclen, hcbits, ?_, rfl, fun z hz => ?_⟩
  · simp [recordCodeBook_cvalidAt]
  · have hcode : (s.recordCode (y, [false])).code y = codeString 1 0 := by rw [State.code, hclen, hcbits]; rfl
    exact hcode
  · have hnew : z ∉ [(y, [false])].map (Prod.fst (β := BitString)) := by simpa using hz
    exact ⟨by simp [recordCodeBook_cvalidAt, hz], recordCodeBook_code_of_notMem s hnew⟩

/-! ## The explicit stack (R121) -/

/-- The traversal of a node: a leaf with the path to it, or the leaves of the left subtree and then those of the right. -/
theorem leafPaths_succ_eq_some {fuel k : Nat} {path : BitString} {l : List (Byte × BitString)}
    (h : s.leafPaths (fuel + 1) k path = some l) :
    ((s.nodeAt k).leaf = true ∧ l = [((s.nodeAt k).sym, path)]) ∨
    ((s.nodeAt k).leaf = false ∧ ∃ a b, s.leafPaths fuel (s.nodeAt k).left (path ++ [false]) = some a ∧
      s.leafPaths fuel (s.nodeAt k).right (path ++ [true]) = some b ∧ l = a ++ b) := by
  simp only [State.leafPaths] at h
  split at h
  · next hleaf => exact .inl ⟨hleaf, (Option.some.inj h).symm⟩
  · next hleaf =>
    split at h
    · next a b ha hb => exact .inr ⟨by simpa using hleaf, a, b, ha, hb, (Option.some.inj h).symm⟩
    · cases h

theorem leafPaths_length_pos {fuel k : Nat} {path : BitString} {l : List (Byte × BitString)}
    (h : s.leafPaths fuel k path = some l) : 1 ≤ l.length := by
  induction fuel generalizing k path l with
  | zero => cases h
  | succ fuel ih =>
    rcases leafPaths_succ_eq_some h with ⟨-, rfl⟩ | ⟨-, a, b, ha, -, rfl⟩
    · exact le_rfl
    · have hpos := ih ha
      rw [List.length_append]
      omega

theorem foldl_recordCode_nodeAt (l : List (Byte × BitString)) (s : State) :
    (l.foldl State.recordCode s).nodeAt = s.nodeAt := by
  rw [foldl_recordCode_frame l s]
  rfl

/-- One iteration on a leaf: its code is recorded. -/
theorem traverse_leaf {f k : Nat} {path : BitString} {stack : List (Nat × Nat × Nat)} {m : Nat}
    (hleaf : (s.nodeAt k).leaf = true) :
    State.traverse (f + 1) s ((k, path.length, bitVal path) :: stack) m =
      State.traverse f (s.recordCode ((s.nodeAt k).sym, path)) stack (max m path.length) :=
  if_pos hleaf

/-- One iteration on an internal node: the paths to its children are those of the recursion. -/
theorem traverse_inner {f k : Nat} {path : BitString} {stack : List (Nat × Nat × Nat)} {m : Nat}
    (hleaf : (s.nodeAt k).leaf = false) :
    State.traverse (f + 1) s ((k, path.length, bitVal path) :: stack) m =
      State.traverse f s (((s.nodeAt k).left, (path ++ [false]).length, bitVal (path ++ [false])) ::
        ((s.nodeAt k).right, (path ++ [true]).length, bitVal (path ++ [true])) :: stack) m := by
  simp only [bitVal_concat, List.length_append, List.length_singleton, Bool.toNat_false, Bool.toNat_true, Nat.add_zero]
  rw [State.traverse, if_neg (Bool.eq_false_iff.1 hleaf)]

/-- With node k on top of the stack, the loop records the leaves below k in the order of the recursion, in as many
iterations as the subtree has nodes, and goes on with the rest of the stack (R121). The loop's state `t` is `s` with some
codes recorded. -/
theorem traverse_leafPaths {fuel k : Nat} {path : BitString} {l : List (Byte × BitString)}
    (h : s.leafPaths fuel k path = some l) (ht : t.nodeAt = s.nodeAt) (f : Nat) (stack : List (Nat × Nat × Nat))
    (m : Nat) :
    State.traverse (2 * l.length - 1 + f) t ((k, path.length, bitVal path) :: stack) m =
      State.traverse f (l.foldl State.recordCode t) stack (l.foldl (fun m e => max m e.2.length) m) := by
  induction fuel generalizing k path l t f stack m with
  | zero => cases h
  | succ fuel ih =>
    rcases leafPaths_succ_eq_some h with ⟨hleaf, rfl⟩ | ⟨hleaf, a, b, ha, hb, rfl⟩
    · rw [← ht] at hleaf ⊢
      rw [show 2 * [((t.nodeAt k).sym, path)].length - 1 + f = f + 1 from Nat.add_comm 1 f, traverse_leaf hleaf]
      rfl
    · have hcount : 2 * (a ++ b).length - 1 + f = 2 * a.length - 1 + (2 * b.length - 1 + f) + 1 := by
        have hpos := leafPaths_length_pos ha
        have hpos' := leafPaths_length_pos hb
        rw [List.length_append]
        omega
      rw [hcount, traverse_inner (ht ▸ hleaf), ht, ih ha ht, ih hb ((foldl_recordCode_nodeAt a t).trans ht),
        List.foldl_append, List.foldl_append]

/-- The recursion from ROOT ends within its fuel and gives the codes of `codeList` (R121). -/
theorem leafPaths_root (hs : SymbolTableOk s) (ht : TreeShape s) : s.leafPaths 512 s.tb.root [] = some s.codeList := by
  have hroot : s.tb.root < 512 := by
    have hn : s.st.nsym ≤ 256 := hs.nsym_le
    rw [ht.root_eq]
    omega
  exact leafPaths_eq ht 512 ht.root_lt_nnode hroot []

/-- Settles O34: the loop started at ROOT records the codes of the recursion and stops, and GEN records the same. -/
theorem genAgreesWithStackTraversal : Obligations.GenAgreesWithStackTraversal := by
  intro s h hp h2
  have hs := h.symbols_ok
  have ht : TreeShape s := h.tree_ok.built_after (by simp [workPhase_running, hp])
  have hlen : s.codeList.length = s.st.nsym := by
    rw [← symbols_length hs, ← (codeList_symbols hs ht).length_eq, List.length_map]
  have hgen : s.genCodes = s.codeList := if_neg (by omega)
  refine ⟨_, _, (hlen ▸ traverse_leafPaths (leafPaths_root hs ht) rfl 0 [] 0).trans rfl, ?_⟩
  rw [(exec_gen_done h hp).2, hgen]
  rfl

/-! ## What the CodeBook guarantees -/

/-- With one distinct symbol, the CodeBook has one entry (R122). -/
theorem eq_of_cvalid_of_single (hs : SymbolTableOk s) (hc : CodeBookShape s) (h1 : s.st.nsym = 1)
    (hy : s.cvalidAt y = true) (hz : s.cvalidAt z = true) : y = z := by
  have hlen : s.symbols.length = 1 := (symbols_length hs).trans h1
  obtain ⟨x, hx⟩ := List.length_eq_one_iff.1 hlen
  have hsym : ∀ w, s.cvalidAt w = true → w = x := fun w hw => by
    have hmem := (hs.counted_iff w).1 ((hc.covered_iff w).1 hw)
    rwa [hx, List.mem_singleton] at hmem
  exact (hsym y hy).trans (hsym z hz).symm

/-- Of two paths to leaves, the shorter is no prefix of the longer: a path does not go on from a leaf (R125). -/
theorem follow_eq_of_prefix {k i j : Nat} {p q : BitString} (hp : s.follow k p = some i) (hi : (s.nodeAt i).leaf = true)
    (hq : s.follow k q = some j) (hpre : p <+: q) : i = j := by
  obtain ⟨r, rfl⟩ := hpre
  rw [follow_append, hp, Option.bind_some] at hq
  obtain rfl := follow_leaf hi hq
  exact Option.some.inj hq

/-- Settles O36: one symbol has no pair; with two or more, each code is the path to its symbol's leaf. -/
theorem codeBookIsPrefixFree : Obligations.CodeBookIsPrefixFree := by
  intro s h hcount htree y z hy hz hne hpre
  have hc := h.code_ok.derived_after hcount htree
  have hpos := (h.tree_ok.built_after hcount).some_symbol
  rcases Nat.eq_or_lt_of_le hpos with h1 | h2
  · exact hne (eq_of_cvalid_of_single h.symbols_ok hc h1.symm hy hz)
  · obtain ⟨i, hi, hleaf, rfl⟩ := hc.leaf_path h2 y hy
    obtain ⟨j, hj, -, rfl⟩ := hc.leaf_path h2 z hz
    exact hne (by rw [follow_eq_of_prefix hi hleaf hj hpre])

/-- The sum of 2^(-CLEN) over the symbols is 1, scaled by 2^255: it is the sum over the paths to the leaves (R126). -/
theorem codeBook_kraft (hs : SymbolTableOk s) (ht : TreeShape s) (hc : CodeBookShape s) (h2 : 2 ≤ s.st.nsym) :
    (s.symbols.map fun y => 2 ^ (255 - s.clenAt y)).sum = 2 ^ 255 := by
  have hn : s.st.nsym ≤ 256 := hs.nsym_le
  have hroot := ht.root_eq
  calc (s.symbols.map fun y => 2 ^ (255 - s.clenAt y)).sum
      = ((s.symbols.map fun y => (y, s.code y)).map fun e => 2 ^ (255 - e.2.length)).sum := by
        simp [State.code, Function.comp_def]
    _ = (s.codeList.map fun e => 2 ^ (255 - e.2.length)).sum := ((codeList_perm hs ht hc h2).map _).sum_eq.symm
    _ = ((s.below 512 s.tb.root).map fun e => 2 ^ (255 - e.2.length)).sum := by simp [State.codeList, Function.comp_def]
    _ = 2 ^ 255 := below_kraft ht 512 ht.root_lt_nnode (by omega) (by omega)

/-- Settles O37: the range is the CodeBook's invariant, and the sum is that of the tree. -/
theorem codeLengthsFillTheTree : Obligations.CodeLengthsFillTheTree := by
  intro s h hcount htree
  have hs := h.symbols_ok
  have hc := h.code_ok.derived_after hcount htree
  have hn : s.st.nsym ≤ 256 := hs.nsym_le
  refine ⟨fun h1 y hy => ?_, fun h2 => ⟨fun y hy => ?_, codeBook_kraft hs (h.tree_ok.built_after hcount) hc h2⟩⟩
  · obtain ⟨hpos, hle⟩ := hc.clen_range y hy
    omega
  · obtain ⟨hpos, hle⟩ := hc.clen_range y hy
    omega

end Sys2Proof.Machine
end

section
/-!
PROOFS. The statements about the encoder of 44_encoder.md: each of its three commands (R135 to R138, R141, R142), the
padding (R139), and the stream that a whole encoding leaves (R140).

All of them read the packed bytes through `Packed` (R143): `Packed.pkmemAt_bit` says which bit of the string a bit of
PKMEM is.
-/

namespace Sys2Proof.Machine

variable {s t : State} {y : Byte} {b : BitString} {p i j k : Nat}

/-! ## Reading PKMEM after a write -/

theorem pkmemAt_of_find {v : Byte} (h : Mem.find s.en.pkmem i = some v) : s.pkmemAt i = v := by
  rw [State.pkmemAt, h, Option.getD_some]

/-- What an entry reads as depends on the entry and, when it is unwritten, on the epoch. -/
theorem pkmemAt_eq_of_find_eq (h : Mem.find t.en.pkmem i = Mem.find s.en.pkmem i) (he : t.epoch = s.epoch) :
    t.pkmemAt i = s.pkmemAt i := by
  rw [State.pkmemAt, State.pkmemAt, h, he]

theorem writePkmem_pkmemAt_self (h : i < s.params.pkDepth) (v : Byte) : (s.writePkmem i v).pkmemAt i = v :=
  pkmemAt_of_find (find_write_self h (Option.some_ne_none v).symm)

theorem writePkmem_pkmemAt_of_ne (h : j ≠ i) (v : Byte) : (s.writePkmem i v).pkmemAt j = s.pkmemAt j :=
  pkmemAt_eq_of_find_eq (find_write_of_ne _ _ _ h) rfl

theorem appendPkmem_pkmemAt_pklen (h : s.en.pklen < s.params.pkDepth) (v : Byte) :
    (s.appendPkmem v).pkmemAt s.en.pklen = v := writePkmem_pkmemAt_self h v

theorem appendPkmem_pkmemAt_of_ne (h : i ≠ s.en.pklen) (v : Byte) : (s.appendPkmem v).pkmemAt i = s.pkmemAt i :=
  writePkmem_pkmemAt_of_ne h v

theorem finishStream_pkmemAt_of_ne (h : i ≠ 0) (p : Nat) : (s.finishStream p).pkmemAt i = s.pkmemAt i :=
  writePkmem_pkmemAt_of_ne h _

/-! ## The bits of a packed byte (R44) -/

/-- Bit 7 - j of the byte of a group of 8 bits is the group's bit j. -/
theorem packByte_getLsbD {g : BitString} (hg : g.length = 8) (hj : j < 8) :
    (packByte g).getLsbD (7 - j) = g[j] := by
  have hbit := testBit_bitVal g (j := j) (by omega)
  rw [packByte, BitVec.getLsbD_ofNat, decide_eq_true (by omega), Bool.true_and, ← hbit, hg]

/-- The k-th group of 8 bits of a string, as a byte: its bit 7 - j is bit 8 * k + j of the string. -/
theorem packByte_group_getLsbD (hk : k < b.length / 8) (hj : j < 8) :
    (packByte ((b.drop (8 * k)).take 8)).getLsbD (7 - j) = b.getD (8 * k + j) false := by
  have hg : ((b.drop (8 * k)).take 8).length = 8 := by rw [List.length_take, List.length_drop]; omega
  rw [packByte_getLsbD hg hj, List.getElem_take, List.getElem_drop, List.getD_eq_getElem]

theorem Packed.pkmemAt_bit (h : Packed s p b) (hk : k < b.length / 8) (hj : j < 8) :
    (s.pkmemAt (p + k)).getLsbD (7 - j) = b.getD (8 * k + j) false := by
  rw [pkmemAt_of_find (h.bytes_eq k hk), packByte_group_getLsbD hk hj]

/-! ## ENCBEG -/

/-- Settles O38: ENCBEG has no fault of its own, and of PKMEM it writes entry 0. -/
theorem encbegStartsStream : Obligations.EncbegStartsStream := by
  intro s hd
  refine ⟨fun hp => ?_, fun hp hrun => exec_sequence hrun (beq_eq_false_iff_ne.2 hp)⟩
  exact ⟨_, exec_done (i := .encbeg) (beq_iff_eq.2 hp) rfl, rfl, rfl, rfl, writePkmem_pkmemAt_self hd 0,
    fun _ hi => writePkmem_pkmemAt_of_ne hi 0, rfl, rfl, rfl, rfl⟩

/-! ## ENC -/

theorem exec_enc_done (hp : s.phase = .enc) (hb : encBody y s = .done t) : exec (.enc y) s = .next t :=
  exec_done (i := .enc y) (beq_iff_eq.2 hp) hb

theorem encBody_unknown (hy : s.cvalidAt y = false) : encBody y s = .raise .unknownSymbol := if_pos hy

theorem encBody_full (hy : s.cvalidAt y = true) (hfull : s.en.enccnt = s.params.lenMax ∨
    s.en.pklen + (s.en.nbits + s.clenAt y) / 8 > s.params.pkDepth) : encBody y s = .raise .capacity := by
  rcases encBody_cases y s with ⟨hy', -⟩ | ⟨-, -, h⟩ | ⟨-, hcnt, hroom, -⟩
  · exact absurd hy (by simp [hy'])
  · exact h
  · exact hfull.elim (fun h => absurd h hcnt) (fun h => absurd hroom (Nat.not_le.2 h))

/-- ENC with a code and with room appends the code to the packed string, and writes no entry but those of the bytes it
completes (R136, R143). -/
theorem encBody_packed (h : Packed s p b) (hy : s.cvalidAt y = true) (hcnt : s.en.enccnt ≠ s.params.lenMax)
    (hroom : p + (b.length + s.clenAt y) / 8 ≤ s.params.pkDepth) :
    ∃ t, encBody y s = .done t ∧ Packed t p (b ++ s.code y) ∧
      ∀ i, i < p + b.length / 8 ∨ p + (b.length + s.clenAt y) / 8 ≤ i →
        Mem.find t.en.pkmem i = Mem.find s.en.pkmem i := by
  have hlen : s.en.pklen + (s.en.nbits + s.clenAt y) / 8 = p + (b.length + s.clenAt y) / 8 := by
    rw [h.pklen_eq, h.nbits_eq]
    omega
  rcases encBody_cases y s with ⟨hy', -⟩ | ⟨-, hfull, -⟩ | ⟨-, -, -, hb⟩
  · exact absurd hy (by simp [hy'])
  · exact hfull.elim (fun h => absurd h hcnt) (fun h => absurd h (by omega))
  · rw [← code_length] at hroom ⊢
    obtain ⟨hpk, hkeep⟩ := foldl_encBit_packed (s.code y) h hroom
    exact ⟨_, hb, ⟨hpk.nbits_eq, hpk.pklen_eq, hpk.acc_eq, hpk.bytes_eq⟩, hkeep⟩

/-- Settles O39: the pending bits are packed from PKMEM[PKLEN] on, and ENC appends the code to them. -/
theorem encAppendsTheCode : Obligations.EncAppendsTheCode := by
  intro y s hp h7 hacc hy hcnt hroom x n
  have hpend := packed_pending h7 hacc
  obtain ⟨t, hb, hpk, hkeep⟩ := encBody_packed hpend hy hcnt (by rw [pendingBits_length]; exact hroom)
  obtain ⟨hframe, hpkvalid, hpad, henccnt⟩ := encBody_frame hb
  have hx : x.length = s.en.nbits + s.clenAt y := by
    rw [List.length_append, pendingBits_length, code_length]
  have hn : x.length / 8 = n := congrArg (· / 8) hx
  have hpklen : t.en.pklen = s.en.pklen + n := hn ▸ hpk.pklen_eq
  refine ⟨t, exec_enc_done hp hb, hframe, hpklen, hx ▸ hpk.nbits_eq, ?_,
    fun k j hk hj => hpk.pkmemAt_bit (hn ▸ hk) hj, fun i hi => ?_, henccnt, hpad, hpkvalid⟩
  · rw [← hn, ← hpk.acc_eq, BitVec.ofNat_toNat, BitVec.setWidth_eq]
  · refine pkmemAt_eq_of_find_eq (hkeep i ?_) (congrArg State.epoch hframe :)
    rw [pendingBits_length]
    omega

/-- The fault record of a fault in phase ENC: its offset is ENCCNT (R199). -/
theorem raiseFault_of_enc (hp : s.phase = .enc) (c : ECode) (low : Byte) : s.raiseFault c low =
    { s with fr := { ecode := c, ephase := .enc, esym := low, eoff := s.en.enccnt }, phase := .halt } := by
  simp [State.raiseFault, State.offset, hp]

theorem exec_enc_raise {c : ECode} (hp : s.phase = .enc) (hb : encBody y s = .raise c) : exec (.enc y) s = .next
    { s with fr := { ecode := c, ephase := .enc, esym := y, eoff := s.en.enccnt }, phase := .halt } :=
  raiseFault_of_enc hp c y ▸ exec_raise (i := .enc y) (beq_iff_eq.2 hp) hb

/-- Settles O40: the three checks of ENC come before its first bit. -/
theorem encFaultsBeforeAnyBit : Obligations.EncFaultsBeforeAnyBit := fun _ _ hp =>
  ⟨fun hy => exec_enc_raise hp (encBody_unknown hy), fun hy hfull => exec_enc_raise hp (encBody_full hy hfull)⟩

/-! ## ENCEND -/

theorem encendBody_pending (hn : s.en.nbits > 0) (hroom : s.en.pklen + 1 ≤ s.params.pkDepth) : encendBody s =
    .done ((s.appendPkmem (BitVec.ofNat 8 (s.en.acc.toNat * 2 ^ (8 - s.en.nbits)))).finishStream (8 - s.en.nbits)) := by
  rw [encendBody, if_pos hn, if_neg (Nat.not_lt.2 hroom)]

theorem encendBody_of_nbits_eq_zero (hn : s.en.nbits = 0) : encendBody s = .done (s.finishStream 0) :=
  if_neg (Nat.not_lt.2 hn.le)

theorem encendBody_full (hn : s.en.nbits > 0) (hfull : s.en.pklen + 1 > s.params.pkDepth) :
    encendBody s = .raise .capacity := by
  rw [encendBody, if_pos hn, if_pos hfull]

/-- Settles O41: with pending bits ENCEND appends their byte, if there is room, and in both cases it then writes the
padding to PKMEM[0]. -/
theorem encendPadsStream : Obligations.EncendPadsStream := by
  intro s _ h1 hd
  have hlegal (hp : s.phase = .enc) : Instr.legalIn .encend s.phase = true := beq_iff_eq.2 hp
  refine ⟨fun hp hn hroom => ?_, fun hp hn => ?_, fun hp hn hfull => exec_raise (hlegal hp) (encendBody_full hn hfull),
    fun hp hrun => exec_sequence hrun (beq_eq_false_iff_ne.2 hp)⟩
  · refine ⟨_, exec_done (hlegal hp) (encendBody_pending hn hroom), rfl, ?_, rfl, finishStream_pkmemAt _ hd, rfl,
      fun i h0 hi => ?_, rfl, rfl, rfl, rfl⟩
    · rw [finishStream_pkmemAt_of_ne (by omega), appendPkmem_pkmemAt_pklen hroom]
    · rw [finishStream_pkmemAt_of_ne h0, appendPkmem_pkmemAt_of_ne hi]
  · exact ⟨_, exec_done (hlegal hp) (encendBody_of_nbits_eq_zero hn), rfl, rfl, finishStream_pkmemAt 0 hd, rfl,
      fun i h0 => finishStream_pkmemAt_of_ne h0 0, rfl, rfl, rfl, rfl⟩

/-! ## The padding and the whole stream -/

/-- Settles O42: the padding is what is left of L up to the next multiple of 8. -/
theorem paddingIsTheLeast : Obligations.PaddingIsTheLeast := by
  intro n
  unfold padding
  refine ⟨by omega, by omega, fun p hp => by omega⟩

theorem codes_append (s : State) (l r : List Byte) : s.codes (l ++ r) = s.codes l ++ s.codes r := List.flatMap_append

/-- Encoding the rest of a text, when its beginning has been encoded and the counter and the buffer have room for all
of it (R143). -/
theorem execAll_enc {l x : List Byte} (h : Encoding s l t) (hx : ∀ y ∈ x, s.cvalidAt y = true)
    (hcnt : l.length + x.length ≤ s.params.lenMax) (hroom : 1 + (s.codes (l ++ x)).length / 8 ≤ s.params.pkDepth) :
    ∃ u, execAll (x.map .enc) t = .next u ∧ Encoding s (l ++ x) u := by
  induction x generalizing l t with
  | nil => exact ⟨t, rfl, (List.append_nil l).symm ▸ h⟩
  | cons y x ih =>
    rw [List.append_cons] at hroom ⊢
    rw [List.length_cons] at hcnt
    have hroom' : 1 + ((s.codes l).length + s.clenAt y) / 8 ≤ s.params.pkDepth := by
      rw [codes_append, List.length_append, codes_length] at hroom
      omega
    obtain ⟨v, hv, hev⟩ := enc_encoding h (hx y List.mem_cons_self) (by omega) hroom'
    have hcnt' : (l ++ [y]).length + x.length ≤ s.params.lenMax := by
      rw [List.length_append, List.length_singleton]
      omega
    obtain ⟨u, hu, heu⟩ := ih hev (fun z hz => hx z (List.mem_cons_of_mem y hz)) hcnt' hroom
    refine ⟨u, ?_, heu⟩
    rw [List.map_cons, execAll, hv]
    exact hu

/-- The commands of ENCODE in three parts: ENCBEG, one ENC per symbol, ENCEND (R66). -/
theorem execAll_encode {l : List Byte} {t u v : State} (hbeg : exec .encbeg s = .next t)
    (henc : execAll (l.map .enc) t = .next u) (hend : exec .encend u = .next v) :
    execAll (Pseudo.encode l).expand s = .next v := by
  rw [Pseudo.expand, execAll_append, execAll, hbeg]
  simp only [henc, execAll, hend]

/-- Settles O43: the parts of ENCODE one after another keep the relation `Encoding` (R143), and ENCEND turns it into the
stream. -/
theorem encodeProducesThePackedStream : Obligations.EncodeProducesThePackedStream := by
  intro l s hp hl hcnt b p hroom
  have hmul : (b.length + p) % 8 = 0 := (paddingIsTheLeast b.length).2.1
  have hd : 1 ≤ s.params.pkDepth := by omega
  obtain ⟨t, hbeg, het⟩ := encbeg_encoding hp hd
  obtain ⟨u, henc, heu⟩ := execAll_enc het hl ((Nat.zero_add _).trans_le hcnt) (show 1 + b.length / 8 ≤ _ by omega)
  obtain ⟨v, hend, hframe, hpklen, hacc, hnbits, hpad, hpkvalid, henccnt, hfirst, hbytes, hkeep⟩ :=
    encend_encoding heu hd hroom
  change v.en.pklen = 1 + (b.length + p) / 8 at hpklen
  have hlen : (b ++ List.replicate p false).length = b.length + p := by rw [List.length_append, List.length_replicate]
  refine ⟨v, execAll_encode hbeg henc hend, hp ▸ hframe, hpklen, pkmemAt_of_find hfirst, fun k j h1 hk hj => ?_,
    fun i hi => pkmemAt_eq_of_find_eq (hkeep i hi) (congrArg State.epoch hframe :), hpad, hpkvalid, henccnt, hnbits, hacc,
    by omega⟩
  have hk' : k - 1 < (b.length + p) / 8 := by omega
  have hbyte := hbytes (k - 1) hk'
  rw [Nat.add_sub_cancel' h1] at hbyte
  rw [pkmemAt_of_find hbyte]
  exact packByte_group_getLsbD (hlen ▸ hk') hj

end Sys2Proof.Machine
end

section
/-!
PROOFS. The statements about the decoder of 45_decoder.md: what each of its three commands does and raises (R155 to R159,
R161), and the bit walk, as the matching of candidates (R160) and with one distinct symbol (R165).
-/

namespace Sys2Proof.Machine

variable {s t : State} {i : Instr} {c : ECode} {b : Byte} {r : Walk}

/-! ## Which command raises a fault -/

theorem phaseAfter_ne_halt (hrun : s.phase ≠ .halt) : Instr.phaseAfter i s.phase ≠ .halt := by
  cases i with
  | nop => exact hrun
  | _ => exact Phase.noConfusion

/-- A command that halts a running core has done fault entry and nothing else: the frame's SEQUENCE, or a fault of its own
(R190, R191). -/
theorem exec_halts (h : exec i s = .next t) (hrun : s.phase ≠ .halt) (hhalt : t.phase = .halt) :
    ∃ c, t = s.raiseFault c i.imm8 ∧
      (c = .sequence ∨ Instr.legalIn i s.phase = true ∧ commandBody i s = .raise c) := by
  rcases exec_next h with ⟨hs, -⟩ | ⟨hl, hb⟩ | ⟨hl, c, hb, rfl⟩ | ⟨-, -, rfl⟩
  · exact absurd hs hrun
  · exact absurd ((commandBody_phase hl hb).symm.trans hhalt) (phaseAfter_ne_halt hrun)
  · exact ⟨c, rfl, .inr ⟨hl, hb⟩⟩
  · exact ⟨.sequence, rfl, .inl rfl⟩

/-- The faults of R190 item 4: a command raises one exactly when it is legal and its pseudocode raises it. -/
theorem exec_fault_iff (h : exec i s = .next t) (hrun : s.phase ≠ .halt) (hc : c ≠ .sequence) :
    (t.phase = .halt ∧ t.fr.ecode = c) ↔ Instr.legalIn i s.phase = true ∧ commandBody i s = .raise c := by
  constructor
  · rintro ⟨hhalt, rfl⟩
    obtain ⟨c, rfl, hseq | hraise⟩ := exec_halts h hrun hhalt
    · exact absurd hseq hc
    · exact hraise
  · rintro ⟨hl, hb⟩
    obtain rfl := Host.Outcome.next.inj ((exec_raise hl hb).symm.trans h)
    exact ⟨rfl, rfl⟩

theorem exec_fault_eq (h : exec i s = .next t) (hrun : s.phase ≠ .halt) (hhalt : t.phase = .halt)
    (hcode : t.fr.ecode = c) : t = s.raiseFault c i.imm8 := by
  obtain ⟨c', rfl, -⟩ := exec_halts h hrun hhalt
  rw [show c' = c from hcode]

/-! ## The cases of DECB (R156) -/

theorem decbBody_counter_full (b : Byte) (hfull : s.de.dbytes = s.params.lenMax) : decbBody b s = .raise .capacity :=
  if_pos hfull

section
variable (hroom : s.de.dbytes ≠ s.params.lenMax)
include hroom

theorem decbBody_padding (hh : s.de.hdrv = false) (hb : b.toNat ≤ 7) : decbBody b s =
    .done (State.countByte { s with de := { s.de with dpad := b.toNat, hdrv := true } }) := by
  rw [decbBody, if_neg hroom, if_pos hh, if_neg (Nat.not_lt.2 hb)]

theorem decbBody_bad_padding (hh : s.de.hdrv = false) (hb : b.toNat > 7) : decbBody b s = .raise .corruptStream := by
  rw [decbBody, if_neg hroom, if_pos hh, if_pos hb]

theorem decbBody_first_code_byte (b : Byte) (hh : s.de.hdrv = true) (hv : s.de.holdv = false) :
    decbBody b s = .done (s.holdByte b).countByte := by
  simp [decbBody, hroom, hh, hv]

theorem decbBody_walk (b : Byte) (hh : s.de.hdrv = true) (hv : s.de.holdv = true) (hw : s.walk s.de.hold 0 = some r) :
    decbBody b s = .done ((s.commit r).holdByte b).countByte := by
  simp [decbBody, hroom, hh, hv, hw]

theorem decbBody_walk_full (b : Byte) (hh : s.de.hdrv = true) (hv : s.de.holdv = true)
    (hw : s.walk s.de.hold 0 = none) : decbBody b s = .raise .capacity := by
  simp [decbBody, hroom, hh, hv, hw]

end

/-! ## The cases of DECEND (R159) -/

theorem finishDecode_done (hd : r.dead = false) (hc : r.cur = s.tb.root) : s.finishDecode r =
    .done { s.commit r with de := { (s.commit r).de with holdv := false, dovalid := true }, phase := .ready } := by
  simp [State.finishDecode, hd, hc]

theorem finishDecode_corrupt (hbad : r.dead = true ∨ r.cur ≠ s.tb.root) : s.finishDecode r = .raise .corruptStream :=
  if_pos hbad

theorem decendBody_no_byte (hh : s.de.hdrv = false) : decendBody s = .raise .corruptStream := if_pos hh

section
variable (hh : s.de.hdrv = true)
include hh

theorem decendBody_padding_without_code (hv : s.de.holdv = false) (hp : s.de.dpad ≠ 0) :
    decendBody s = .raise .corruptStream := by
  simp [decendBody, hh, hv, hp]

theorem decendBody_no_code_byte (hv : s.de.holdv = false) (hp : s.de.dpad = 0) :
    decendBody s = s.finishDecode { cur := s.de.dcur, dead := s.de.dead, out := [] } := by
  simp [decendBody, hh, hv, hp]

theorem decendBody_walk (hv : s.de.holdv = true) (hw : s.walk s.de.hold s.de.dpad = some r) :
    decendBody s = s.finishDecode r := by
  simp [decendBody, hh, hv, hw]

theorem decendBody_walk_full (hv : s.de.holdv = true) (hw : s.walk s.de.hold s.de.dpad = none) :
    decendBody s = .raise .capacity := by
  simp [decendBody, hh, hv, hw]

end

/-! ## CORRUPT_STREAM (R161) -/

/-- The first byte of a stream is above 7 (R161 (a)). -/
theorem decbBody_corrupt_iff : decbBody b s = .raise .corruptStream ↔
    s.de.dbytes ≠ s.params.lenMax ∧ s.de.hdrv = false ∧ b.toNat > 7 := by
  constructor
  · intro h
    rcases decbBody_raise h with ⟨hc, -⟩ | ⟨-, hcause⟩
    · exact ECode.noConfusion hc
    · exact hcause
  · rintro ⟨hroom, hh, hb⟩
    exact decbBody_bad_padding hroom hh hb

/-- What makes the end of a stream corrupt: no byte; a first byte that is not 0 and no code byte; a non-empty candidate
(R161 (b) to (d)). -/
def State.EndsCorrupt (s : State) : Prop :=
  s.de.hdrv = false ∨
  s.de.hdrv = true ∧ s.de.holdv = false ∧ s.de.dpad ≠ 0 ∨
  s.de.hdrv = true ∧ s.de.holdv = false ∧ s.de.dpad = 0 ∧ (s.de.dead = true ∨ s.de.dcur ≠ s.tb.root) ∨
  s.de.hdrv = true ∧ s.de.holdv = true ∧
    ∃ r, s.walk s.de.hold s.de.dpad = some r ∧ (r.dead = true ∨ r.cur ≠ s.tb.root)

theorem decendBody_corrupt_iff : decendBody s = .raise .corruptStream ↔ s.EndsCorrupt := by
  constructor
  · intro h
    rcases decendBody_raise h with ⟨-, hcause⟩ | ⟨hc, -⟩
    · exact hcause
    · exact ECode.noConfusion hc
  · rintro (hh | ⟨hh, hv, hp⟩ | ⟨hh, hv, hp, hbad⟩ | ⟨hh, hv, r, hw, hbad⟩)
    · exact decendBody_no_byte hh
    · exact decendBody_padding_without_code hh hv hp
    · exact (decendBody_no_code_byte hh hv hp).trans (finishDecode_corrupt hbad)
    · exact (decendBody_walk hh hv hw).trans (finishDecode_corrupt hbad)

/-- DECB and DECEND alone raise CORRUPT_STREAM (R185). -/
theorem commandBody_corrupt (h : commandBody i s = .raise .corruptStream) : (∃ b, i = .decb b) ∨ i = .decend := by
  cases i with
  | decb b => exact .inl ⟨b, rfl⟩
  | decend => exact .inr rfl
  | sym y => exact ECode.noConfusion (symBody_raise h).2
  | build => exact ECode.noConfusion (buildBody_raise h).2
  | gen => exact absurd h genBody_no_raise
  | enc y => rcases encBody_raise h with ⟨-, hc⟩ | ⟨-, hc, -⟩ <;> exact ECode.noConfusion hc
  | encend => exact ECode.noConfusion (encendBody_raise h).2.2
  | _ => exact Performed.noConfusion h

/-- The situations of R161: a command is performed and its pseudocode raises CORRUPT_STREAM. -/
theorem performed_corrupt_iff : Instr.legalIn i s.phase = true ∧ commandBody i s = .raise .corruptStream ↔
    s.phase = .dec ∧
      ((∃ b, i = .decb b ∧ s.de.dbytes ≠ s.params.lenMax ∧ s.de.hdrv = false ∧ b.toNat > 7) ∨
        i = .decend ∧ s.EndsCorrupt) := by
  constructor
  · rintro ⟨hl, hb⟩
    rcases commandBody_corrupt hb with ⟨b, rfl⟩ | rfl
    · exact ⟨phase_of_legalIn hl, .inl ⟨b, rfl, decbBody_corrupt_iff.1 hb⟩⟩
    · exact ⟨phase_of_legalIn hl, .inr ⟨rfl, decendBody_corrupt_iff.1 hb⟩⟩
  · rintro ⟨hp, ⟨b, rfl, hcause⟩ | ⟨rfl, hcause⟩⟩
    · exact ⟨beq_iff_eq.2 hp, decbBody_corrupt_iff.2 hcause⟩
    · exact ⟨beq_iff_eq.2 hp, decendBody_corrupt_iff.2 hcause⟩

/-- Settles O20: a fault of a command's own is one that its pseudocode raises, and DECB and DECEND raise CORRUPT_STREAM in
these situations only. -/
theorem corruptStreamListIsComplete : Obligations.CorruptStreamListIsComplete := by
  intro i s t h hrun
  refine ⟨?_, fun hhalt hcode => exec_fault_eq h hrun hhalt hcode⟩
  rw [exec_fault_iff h hrun ECode.noConfusion, performed_corrupt_iff, State.EndsCorrupt]
  simp only [and_or_left, Params.lenMax]

/-! ## DECBEG and the first byte -/

/-- Settles O44: DECBEG has no fault of its own and does not write DOMEM. -/
theorem decbegStartsDecoding : Obligations.DecbegStartsDecoding := by
  intro s
  refine ⟨fun hp => ?_, fun hp hrun => exec_sequence hrun (beq_eq_false_iff_ne.2 hp)⟩
  exact ⟨_, exec_done (i := .decbeg) (beq_iff_eq.2 hp) rfl, rfl, rfl, rfl, rfl, rfl, rfl, rfl, rfl, rfl, rfl,
    fun _ => rfl⟩

theorem exec_decb_done (hp : s.phase = .dec) (hb : decbBody b s = .done t) : exec (.decb b) s = .next t :=
  exec_done (i := .decb b) (beq_iff_eq.2 hp) hb

theorem exec_decb_raise (hp : s.phase = .dec) (hb : decbBody b s = .raise c) :
    exec (.decb b) s = .next (s.raiseFault c b) :=
  exec_raise (i := .decb b) (beq_iff_eq.2 hp) hb

/-- The fault record of a fault in phase DEC: its offset is DBYTES (R199). -/
theorem raiseFault_of_dec (hp : s.phase = .dec) (c : ECode) (low : Byte) : s.raiseFault c low =
    { s with fr := { ecode := c, ephase := .dec, esym := low, eoff := s.de.dbytes }, phase := .halt } := by
  simp [State.raiseFault, State.offset, hp]

/-- Settles O45: the two cases of a first byte. -/
theorem decbTakesThePaddingByte : Obligations.DecbTakesThePaddingByte := fun b _ hp hroom hh =>
  ⟨fun hb => exec_decb_done hp (decbBody_padding hroom hh hb),
    fun hb => raiseFault_of_dec hp _ b ▸ exec_decb_raise hp (decbBody_bad_padding hroom hh hb)⟩

/-! ## The commit (R158) -/

theorem domemAt_of_find {i : Nat} {v : Byte} (h : Mem.find s.de.domem i = some v) : s.domemAt i = v := by
  rw [State.domemAt, h, Option.getD_some]

/-- What an entry reads as depends on the entry and, when it is unwritten, on the epoch. -/
theorem domemAt_eq_of_find_eq {i : Nat} (h : Mem.find t.de.domem i = Mem.find s.de.domem i) (he : t.epoch = s.epoch) :
    t.domemAt i = s.domemAt i := by
  rw [State.domemAt, State.domemAt, h, he]

/-- The commit of symbols that fit DOMEM appends them at DOLEN and writes no other entry. -/
theorem commit_domem (hroom : s.de.dolen + r.out.length ≤ s.params.doDepth) :
    (s.commit r).de.dolen = s.de.dolen + r.out.length ∧
    (∀ j (h : j < r.out.length), (s.commit r).domemAt (s.de.dolen + j) = r.out[j]) ∧
    ∀ i, i < s.de.dolen ∨ s.de.dolen + r.out.length ≤ i → (s.commit r).domemAt i = s.domemAt i := by
  obtain ⟨⟨m, hframe⟩, hkeep, hout, -⟩ :=
    foldl_appendDomem r.out { s with de := { s.de with dcur := r.cur, dead := r.dead } } hroom
  exact ⟨(congrArg (fun u : State => u.de.dolen) hframe :), fun j hj => domemAt_of_find (hout j hj),
    fun i hi => domemAt_eq_of_find_eq (hkeep i hi) (congrArg State.epoch hframe :)⟩

/-- The commit writes the decoder's registers only. -/
theorem commit_eq_with_de (s : State) (r : Walk) : s.commit r = { s with de := (s.commit r).de } := by rw [commit_frame]

@[simp] theorem commit_de_dcur : (s.commit r).de.dcur = r.cur := by rw [commit_frame]
@[simp] theorem commit_de_dead : (s.commit r).de.dead = r.dead := by rw [commit_frame]
@[simp] theorem commit_de_hdrv : (s.commit r).de.hdrv = s.de.hdrv := by rw [commit_frame]
@[simp] theorem commit_de_dpad : (s.commit r).de.dpad = s.de.dpad := by rw [commit_frame]
@[simp] theorem commit_de_hold : (s.commit r).de.hold = s.de.hold := by rw [commit_frame]
@[simp] theorem commit_de_dovalid : (s.commit r).de.dovalid = s.de.dovalid := by rw [commit_frame]
@[simp] theorem commit_de_dbytes : (s.commit r).de.dbytes = s.de.dbytes := by rw [commit_frame]

/-- The symbols of a walk that does not meet CAPACITY fit DOMEM (R157). -/
theorem walk_fits {v : Byte} {lo : Nat} (hw : s.walk v lo = some r) (hfit : s.de.dolen ≤ s.params.doDepth) :
    s.de.dolen + r.out.length ≤ s.params.doDepth :=
  (walkBits_out hw hfit).1

/-- Settles O46: the four cases of a code byte; a completed walk is committed to DOMEM. -/
theorem decbWalksTheHeldByte : Obligations.DecbWalksTheHeldByte := by
  intro b s hp hh hfit
  refine ⟨fun hroom hv => exec_decb_done hp (decbBody_first_code_byte hroom b hh hv), fun hroom hv r hw => ?_,
    fun hroom hv hw => exec_decb_raise hp (decbBody_walk_full hroom b hh hv hw),
    fun hfull => exec_decb_raise hp (decbBody_counter_full b hfull)⟩
  have hout := walk_fits hw hfit
  obtain ⟨hlen, hwritten, hkept⟩ := commit_domem hout
  refine ⟨_, exec_decb_done hp (decbBody_walk hroom b hh hv hw), ?_, commit_de_dcur, commit_de_dead, hlen,
    hlen.trans_le hout, hwritten, fun i hi => hkept i (hlen ▸ hi), rfl, rfl, congrArg (· + 1) commit_de_dbytes,
    commit_de_hdrv.trans hh, commit_de_dpad, commit_de_dovalid⟩
  rw [commit_eq_with_de]
  rfl

/-- Settles O47: both ways of reaching the final check give it a walk whose symbols fit DOMEM, and with an empty candidate
it commits the walk. -/
theorem decendEndsDecoding : Obligations.DecendEndsDecoding := by
  intro s r hp hh hfit hlast hd hc
  obtain ⟨hbody, hout⟩ : decendBody s = s.finishDecode r ∧ s.de.dolen + r.out.length ≤ s.params.doDepth := by
    rcases hlast with ⟨hv, hw⟩ | ⟨hv, hpad, rfl⟩
    · exact ⟨decendBody_walk hh hv hw, walk_fits hw hfit⟩
    · exact ⟨decendBody_no_code_byte hh hv hpad, hfit⟩
  obtain ⟨hlen, hwritten, hkept⟩ := commit_domem hout
  refine ⟨_, exec_done (i := .decend) (beq_iff_eq.2 hp) (hbody.trans (finishDecode_done hd hc)), ?_,
    commit_de_dcur.trans hc, commit_de_dead.trans hd, hlen, hwritten, fun i hi => hkept i (hlen ▸ hi), rfl, rfl,
    commit_de_hdrv.trans hh, commit_de_dpad, commit_de_hold, commit_de_dbytes⟩
  rw [commit_eq_with_de]

/-! ## The walk as the matching of candidates (R160) -/

/-- One step of a path: to the child of an internal node. -/
theorem follow_concat {j k : Nat} {q : BitString} (hf : s.follow j q = some k) (hk : (s.nodeAt k).leaf = false)
    (x : Bool) : s.follow j (q ++ [x]) = some ((s.nodeAt k).child x) := by
  simp [follow_append, hf, State.follow, hk]

/-- Below every node there is a leaf: the links lead to smaller indexes (R106). -/
theorem exists_follow_leaf (ht : TreeShape s) {k : Nat} (hk : k < s.tb.nnode) :
    ∃ q j, s.follow k q = some j ∧ (s.nodeAt j).leaf = true := by
  induction k using Nat.strong_induction_on with
  | _ k ih =>
    cases hl : (s.nodeAt k).leaf with
    | true => exact ⟨[], k, rfl, hl⟩
    | false =>
      have hlt := ht.child_lt hk (ht.nsym_le_of_inner hk hl) false
      obtain ⟨q, j, hf, hj⟩ := ih _ hlt (hlt.trans hk)
      exact ⟨false :: q, j, by simpa [State.follow, hl] using hf, hj⟩

/-- The walk of one bit from an internal node, when ROOT is none: to the child, or, at a leaf, the leaf's symbol and back to
ROOT (R157). -/
theorem decBit_inner (hroot : (s.nodeAt s.tb.root).leaf = false) (k : Nat) (out : List Byte) (x : Bool) :
    s.decBit ⟨k, false, out⟩ x =
      if (s.nodeAt ((s.nodeAt k).child x)).leaf then
        s.emit (s.nodeAt ((s.nodeAt k).child x)).sym ⟨s.tb.root, false, out⟩
      else some ⟨(s.nodeAt k).child x, false, out⟩ := by
  simp [State.decBit, hroot]

/-- Settles O48: the codes are the paths to the leaves (R124), so the child of a candidate's node is a leaf exactly when the
candidate with the next bit is a code. -/
theorem walkMatchesCandidates : Obligations.WalkMatchesCandidates := by
  intro s p k h hcount htree h2 hf hk
  have hs := h.symbols_ok
  have ht := h.tree_ok.built_after hcount
  have hc := h.code_ok.derived_after hcount htree
  have hroot := root_inner ht h2
  refine ⟨⟨?_, ?_⟩, fun x out hroom => ?_⟩
  · rintro rfl
    exact (Option.some.inj hf).symm
  · rintro rfl
    by_contra hne
    exact absurd ((follow_lt ht ht.root_lt_nnode hf).2 hne) (lt_irrefl _)
  have hchild := follow_concat hf hk x
  refine ⟨fun y hy hcode => ?_, fun hno => ?_⟩
  · obtain ⟨j, hj, hleaf, hsym⟩ := hc.leaf_path h2 y hy
    rw [hcode, hchild] at hj
    obtain rfl := Option.some.inj hj
    rw [decBit_inner hroot, if_pos hleaf, State.emit, if_neg hroom.ne, hsym]
  · have hinner : (s.nodeAt ((s.nodeAt k).child x)).leaf = false := by
      by_contra hleaf
      obtain ⟨hy, hcode⟩ := code_eq_path hs ht hc h2 hchild (Bool.not_eq_false _ ▸ hleaf)
      exact hno _ hy hcode
    have hlt : (s.nodeAt k).child x < s.tb.nnode := (follow_lt ht ht.root_lt_nnode hchild).1.trans_lt ht.root_lt_nnode
    obtain ⟨q, j, hq, hleaf⟩ := exists_follow_leaf ht hlt
    have hpath : s.follow s.tb.root (p ++ [x] ++ q) = some j := by rw [follow_append, hchild]; exact hq
    obtain ⟨hy, hcode⟩ := code_eq_path hs ht hc h2 hpath hleaf
    refine ⟨_, by rw [decBit_inner hroot, hinner]; rfl, hchild, hinner, _, hy, hcode ▸ List.prefix_append _ _, ?_⟩
    intro heq
    rw [← hcode, ← heq, hchild] at hpath
    rw [← Option.some.inj hpath, hinner] at hleaf
    cases hleaf

/-! ## One distinct symbol (R165) -/

/-- With one distinct symbol, each 0 emits the symbol. -/
theorem walkBits_zeros (hroot : (s.nodeAt s.tb.root).leaf = true) {n : Nat} {out : List Byte}
    (hroom : s.de.dolen + out.length + n ≤ s.params.doDepth) :
    s.walkBits (List.replicate n false) ⟨s.tb.root, false, out⟩ =
      some ⟨s.tb.root, false, out ++ List.replicate n (s.nodeAt s.tb.root).sym⟩ := by
  induction n generalizing out with
  | zero => simp [State.walkBits]
  | succ n ih =>
    have hbit : s.decBit ⟨s.tb.root, false, out⟩ false =
        some ⟨s.tb.root, false, out ++ [(s.nodeAt s.tb.root).sym]⟩ := by
      have hne : s.de.dolen + out.length ≠ s.params.doDepth := by omega
      simp [State.decBit, hroot, State.emit, hne]
    rw [List.replicate_succ, State.walkBits, hbit]
    refine (ih (by rw [List.length_append, List.length_singleton]; omega)).trans ?_
    rw [List.append_assoc, List.replicate_succ, List.singleton_append]

/-- With one distinct symbol, a 1 makes the candidate dead, and the walk ignores what follows. -/
theorem walkBits_one (hroot : (s.nodeAt s.tb.root).leaf = true) (out : List Byte) (rest : BitString) :
    s.walkBits (true :: rest) ⟨s.tb.root, false, out⟩ = some ⟨s.tb.root, true, out⟩ := by
  rw [State.walkBits, show s.decBit ⟨s.tb.root, false, out⟩ true = some ⟨s.tb.root, true, out⟩ by
    simp [State.decBit, hroot]]
  exact walkBits_dead rfl

/-- Settles O50: the zeros are walked one by one, then the first 1 ends the matching. -/
theorem degenerateWalkCountsZeros : Obligations.DegenerateWalkCountsZeros := by
  intro s n rest hroot hn
  have hzeros : s.decodeBits (List.replicate n false) =
      some ⟨s.tb.root, false, List.replicate n (s.nodeAt s.tb.root).sym⟩ :=
    walkBits_zeros (s := { s with de := { s.de with dolen := 0 } }) (out := []) hroot (by simpa using hn)
  refine ⟨hzeros, ?_⟩
  rw [decodeBits_append, hzeros, Option.bind_some]
  exact walkBits_one (s := { s with de := { s.de with dolen := 0 } }) hroot _ rest

end Sys2Proof.Machine
end

section
/-!
PROOFS. The statements about whole streams of 45_decoder.md: the outcomes of DECODE (R159, R161, R166), and the round trips
(R162).

A stream is decoded byte by byte through `Decoding` (R166); `decode_outcome` gives its three outcomes. The round trips put
together that the stream of an encoding holds the codes of the text (`encode_stream`), that the walk of codes gives the
text (`decodeBits_codes`), and those outcomes.
-/

namespace Sys2Proof.Machine

variable {s t : State} {i : Instr} {c : ECode} {p : Byte} {l : List Byte}

/-- The ranges of R7 leave room for one byte in the counters and in PKMEM. -/
theorem one_le_lenMax_pkDepth {q : Params} (h : q.wf = true) : 1 ≤ q.lenMax ∧ 1 ≤ q.pkDepth := by
  simp only [Params.wf, Bool.and_eq_true, decide_eq_true_eq] at h
  obtain ⟨⟨hlen, hpk⟩, -⟩ := h
  have hpow : 2 ^ 1 ≤ 2 ^ q.lenW := Nat.pow_le_pow_right (by omega) hlen
  exact ⟨by unfold Params.lenMax; omega, hpk⟩

/-! ## Lists of commands -/

theorem execAll_cons (h : exec i s = .next t) (is : List Instr) : execAll (i :: is) s = execAll is t := by
  rw [execAll, h]

theorem execAll_append_next {a : List Instr} (h : execAll a s = .next t) (b : List Instr) :
    execAll (a ++ b) s = execAll b t := by
  rw [execAll_append, h]

theorem execAll_singleton (i : Instr) (s : State) : execAll [i] s = exec i s := by
  rw [execAll]
  cases exec i s <;> rfl

/-- One more command after a list of them. -/
theorem execAll_concat {a : List Instr} (h : execAll a s = .next t) (i : Instr) : execAll (a ++ [i]) s = exec i t :=
  (execAll_append_next h [i]).trans (execAll_singleton i t)

/-- What each part of a step keeps, a list of commands keeps. -/
theorem KeptByParts.of_execAll {P : State → Prop} (hP : KeptByParts P) {is : List Instr} (hs : P s)
    (h : execAll is s = .next t) : P t := by
  induction is generalizing s with
  | nil => exact Host.Outcome.next.inj h ▸ hs
  | cons i is ih =>
    rw [execAll] at h
    split at h
    · next u hu => exact ih (hP.of_exec hs hu) h
    · cases h
    · cases h

/-- The core is halted by a fault of this code (R186). -/
def State.HaltedBy (s : State) (c : ECode) : Prop := s.phase = .halt ∧ s.fr.ecode = c

theorem raiseFault_haltedBy (s : State) (c : ECode) (low : Byte) : (s.raiseFault c low).HaltedBy c := ⟨rfl, rfl⟩

theorem State.HaltedBy.exec (h : s.HaltedBy c) (hi : i ≠ .clr) : exec i s = .next s := exec_halted h.1 hi

/-! ## The commands of the decoder -/

/-- The commands of DECODE (R66). -/
def DecoderCommand (i : Instr) : Prop := i = .decbeg ∨ (∃ b, i = .decb b) ∨ i = .decend

theorem decoderCommand_of_mem {bytes : List Byte} (hi : i ∈ (Pseudo.decode bytes).expand) : DecoderCommand i := by
  simp only [Pseudo.expand, List.cons_append, List.mem_cons, List.mem_append, List.mem_map, List.not_mem_nil,
    or_false] at hi
  rcases hi with rfl | ⟨b, -, rfl⟩ | rfl
  · exact .inl rfl
  · exact .inr (.inl ⟨b, rfl⟩)
  · exact .inr (.inr rfl)

theorem DecoderCommand.ne_clr (h : DecoderCommand i) : i ≠ .clr := by
  rcases h with rfl | ⟨b, rfl⟩ | rfl <;> exact Instr.noConfusion

/-- The commands of DECODE write the decoder alone (R54). -/
theorem DecoderCommand.exec_units (hi : DecoderCommand i) (h : exec i s = .next t) :
    t.st = s.st ∧ t.tb = s.tb ∧ t.cg = s.cg ∧ t.en = s.en := by
  obtain ⟨-, -, -, hst, htb, hcg, hen, -⟩ := commandsWriteTheirOwnUnit i s t h hi.ne_clr
  rcases hi with rfl | ⟨b, rfl⟩ | rfl <;>
    exact ⟨hst (by simp), htb (by simp), hcg (by simp), hen (by simp) (by simp) (by simp)⟩

theorem execAll_decoder_units {is : List Instr} (his : ∀ i ∈ is, DecoderCommand i) (h : execAll is s = .next t) :
    t.st = s.st ∧ t.tb = s.tb ∧ t.cg = s.cg ∧ t.en = s.en := by
  induction is generalizing s with
  | nil =>
    obtain rfl := Host.Outcome.next.inj h
    exact ⟨rfl, rfl, rfl, rfl⟩
  | cons i is ih =>
    rw [execAll] at h
    split at h
    · next u hu =>
      obtain ⟨hst, htb, hcg, hen⟩ := (his i List.mem_cons_self).exec_units hu
      obtain ⟨hst', htb', hcg', hen'⟩ := ih (fun j hj => his j (List.mem_cons_of_mem i hj)) h
      exact ⟨hst'.trans hst, htb'.trans htb, hcg'.trans hcg, hen'.trans hen⟩
    · cases h
    · cases h

/-! ## DECODE of a stream -/

/-- t is s after DECBEG and DECB of the first byte p (R155, R156). -/
structure DecodingPadded (s : State) (p : Byte) (t : State) : Prop where
  frame : t = { s with de := t.de, phase := .dec }
  hdrv_eq : t.de.hdrv = true
  dpad_eq : t.de.dpad = p.toNat
  holdv_eq : t.de.holdv = false
  dcur_eq : t.de.dcur = s.tb.root
  dead_eq : t.de.dead = false
  dolen_eq : t.de.dolen = 0
  dbytes_eq : t.de.dbytes = 1

theorem decoding_padded (hp : s.phase = .ready) (h7 : p.toNat ≤ 7) (hm : 1 ≤ s.params.lenMax) :
    ∃ t, execAll [.decbeg, .decb p] s = .next t ∧ DecodingPadded s p t := by
  obtain ⟨t, hbeg, ht, hhdrv, -, -, hholdv, hdcur, hdead, hdolen, -, hdbytes, -⟩ := (decbegStartsDecoding s).1 hp
  have hph : t.phase = .dec := (congrArg State.phase ht :)
  have hroom : t.de.dbytes ≠ 2 ^ t.params.lenW - 1 := by
    rw [hdbytes, ht]
    exact (Nat.one_le_iff_ne_zero.1 hm).symm
  have hfirst := (decbTakesThePaddingByte p t hph hroom hhdrv).1 h7
  refine ⟨_, (execAll_cons hbeg _).trans ((execAll_singleton _ _).trans hfirst), ?_, rfl, rfl, hholdv, hdcur, hdead,
    hdolen, congrArg (· + 1) hdbytes⟩
  rw [ht]

/-- DECBEG, DECB of the first byte p, and DECB of the code bytes: CAPACITY, when a walk finds DOMEM full or the byte counter
is full, or else the last byte held and the bytes before it walked (R156, R166). -/
theorem decode_bytes (hp : s.phase = .ready) (h7 : p.toNat ≤ 7) (hm : 1 ≤ s.params.lenMax) (ws : List Byte) (w : Byte) :
    ∃ u, execAll ([.decbeg, .decb p] ++ (ws ++ [w]).map .decb) s = .next u ∧
      (u.HaltedBy .capacity ∧
          (s.decodeBits (ws.flatMap fun b => byteBits b 0) = none ∨ s.params.lenMax < ws.length + 2) ∨
        ∃ r, Decoding s p ws w r u) := by
  induction ws using List.reverseRecOn generalizing w with
  | nil =>
    rcases Nat.lt_or_ge s.params.lenMax 2 with hlt | hge
    · obtain ⟨t, hall, ht⟩ := decoding_padded hp h7 hm
      have hph : t.phase = .dec := (congrArg State.phase ht.frame :)
      have hfull : t.de.dbytes = t.params.lenMax := by
        rw [ht.dbytes_eq, ht.frame]
        exact Nat.le_antisymm hm (Nat.le_of_lt_succ hlt)
      exact ⟨_, (execAll_concat hall (.decb w)).trans (exec_decb_raise hph (decbBody_counter_full w hfull)),
        .inl ⟨raiseFault_haltedBy _ _ _, .inr hlt⟩⟩
    · obtain ⟨t, hall, ht⟩ := decoding_start hp h7 w hge
      exact ⟨t, hall, .inr ⟨_, ht⟩⟩
  | append_singleton ws v ih =>
    obtain ⟨u, hall, hu⟩ := ih v
    have hnext : execAll ([.decbeg, .decb p] ++ (ws ++ [v] ++ [w]).map .decb) s = exec (.decb w) u := by
      rw [List.map_append, ← List.append_assoc]
      exact execAll_concat hall (.decb w)
    rw [hnext, List.length_append, List.length_singleton]
    rcases hu with ⟨hhalt, hcause⟩ | ⟨r, hdec⟩
    · refine ⟨u, hhalt.exec Instr.noConfusion, .inl ⟨hhalt, hcause.imp (fun hnone => ?_) fun hlt => by omega⟩⟩
      rw [List.flatMap_append, decodeBits_append, hnone, Option.bind_none]
    · by_cases hfull : ws.length + 2 = s.params.lenMax
      · have hph : u.phase = .dec := (congrArg State.phase hdec.frame :)
        have hcount : u.de.dbytes = u.params.lenMax := by rw [hdec.dbytes_eq, hfull, hdec.frame]
        exact ⟨_, exec_decb_raise hph (decbBody_counter_full w hcount),
          .inl ⟨raiseFault_haltedBy _ _ _, .inr (by omega)⟩⟩
      · rcases decb_decoding hdec w hfull with ⟨hnone, hexec⟩ | ⟨q, u', -, hexec, hdec'⟩
        · exact ⟨_, hexec, .inl ⟨raiseFault_haltedBy _ _ _, .inl hnone⟩⟩
        · exact ⟨u', hexec, .inr ⟨q, hdec'⟩⟩

/-- How DECODE of a stream with padding p and code bytes cs ends (R159, R161, R184). -/
inductive DecodeOutcome (s : State) (p : Nat) (cs : List Byte) (u : State) : Prop
  | capacity (halted : u.HaltedBy .capacity)
      (cause : s.decodeBits (streamBits p cs) = none ∨ s.params.lenMax < cs.length + 1)
  | corrupt (r : Walk) (walked : s.decodeBits (streamBits p cs) = some r) (bad : r.dead = true ∨ r.cur ≠ s.tb.root)
      (halted : u.HaltedBy .corruptStream)
  | complete (r : Walk) (walked : s.decodeBits (streamBits p cs) = some r) (alive : r.dead = false)
      (at_root : r.cur = s.tb.root) (frame : u = { s with de := u.de }) (dovalid : u.de.dovalid = true)
      (decoded : u.decoded = r.out)

theorem flatMap_byteBits_length (cs : List Byte) : (cs.flatMap fun b => byteBits b 0).length = 8 * cs.length := by
  simp [List.length_flatMap, mul_comm]

/-- The bits of a stream: those of all bytes but the last, then those of the last less the padding (R67, R157). -/
theorem streamBits_concat (h7 : p.toNat ≤ 7) (ws : List Byte) (w : Byte) :
    streamBits p.toNat (ws ++ [w]) = (ws.flatMap fun b => byteBits b 0) ++ byteBits w p.toNat := by
  have hlen := flatMap_byteBits_length ws
  have hws : 8 * (ws ++ [w]).length - p.toNat = (ws.flatMap fun b => byteBits b 0).length + (8 - p.toNat) := by
    rw [List.length_append, List.length_singleton]
    omega
  rw [streamBits, List.flatMap_append, List.flatMap_singleton, hws, List.take_length_add_append, byteBits_eq_take w p.toNat]

theorem decoded_eq_of_find {o : List Byte} (hlen : s.de.dolen = o.length)
    (h : ∀ j (hj : j < o.length), Mem.find s.de.domem j = some o[j]) : s.decoded = o := by
  refine List.ext_getElem (by simp [State.decoded, hlen]) fun j _ hj => ?_
  simp only [State.decoded, List.getElem_map, List.getElem_range]
  exact domemAt_of_find (h j hj)

/-- DECEND of a decoding with a byte held (R159): the walk of that byte less the padding completes the walk of the stream. -/
theorem decend_decoding {ws : List Byte} {w : Byte} {r : Walk} (hp : s.phase = .ready) (h7 : p.toNat ≤ 7)
    (h : Decoding s p ws w r t) : ∃ u, exec .decend t = .next u ∧ DecodeOutcome s p.toNat (ws ++ [w]) u := by
  have hleg : Instr.legalIn .decend t.phase = true := by rw [h.frame]; rfl
  have htb : t.tb = s.tb := (congrArg State.tb h.frame :)
  have hwhole := h.walk_eq p.toNat
  rw [← streamBits_concat h7] at hwhole
  cases hq : t.walk w p.toNat with
  | none =>
    have hheld : t.walk t.de.hold t.de.dpad = none := by rw [h.hold_eq, h.dpad_eq, hq]
    rw [hq] at hwhole
    exact ⟨_, exec_raise (i := .decend) hleg (decendBody_walk_full h.hdrv_eq h.holdv_eq hheld),
      .capacity (raiseFault_haltedBy _ _ _) (.inl hwhole)⟩
  | some q =>
    have hheld : t.walk t.de.hold t.de.dpad = some q := by rw [h.hold_eq, h.dpad_eq, hq]
    have hbody := decendBody_walk h.hdrv_eq h.holdv_eq hheld
    rw [hq] at hwhole
    by_cases hbad : q.dead = true ∨ q.cur ≠ s.tb.root
    · exact ⟨_, exec_raise (i := .decend) hleg (hbody.trans (finishDecode_corrupt (htb ▸ hbad))),
        .corrupt _ hwhole hbad (raiseFault_haltedBy _ _ _)⟩
    · rw [not_or, not_not, Bool.not_eq_true] at hbad
      obtain ⟨halive, hroot⟩ := hbad
      obtain ⟨hlen, -, hout⟩ := h.commit hq
      refine ⟨_, exec_done (i := .decend) hleg (hbody.trans (finishDecode_done halive (htb ▸ hroot))),
        .complete _ hwhole halive hroot ?_ rfl (decoded_eq_of_find hlen hout)⟩
      rw [commit_eq_with_de, h.frame, ← hp]

/-- DECEND after the first byte alone, when it is 0, ends the decoding of an empty text (R159). -/
theorem decend_padded (hp : s.phase = .ready) (h : DecodingPadded s 0 t) :
    ∃ u, exec .decend t = .next u ∧ DecodeOutcome s 0 [] u := by
  have hph : t.phase = .dec := (congrArg State.phase h.frame :)
  have htb : t.tb = s.tb := (congrArg State.tb h.frame :)
  obtain ⟨u, hexec, hu, -, -, hdolen, -, -, -, hdovalid, -⟩ := decendEndsDecoding t ⟨t.de.dcur, t.de.dead, []⟩ hph
    h.hdrv_eq (h.dolen_eq.trans_le (Nat.zero_le _)) (.inr ⟨h.holdv_eq, h.dpad_eq, rfl⟩) h.dead_eq
    (h.dcur_eq.trans (congrArg TreeUnit.root htb).symm)
  refine ⟨u, hexec, .complete ⟨s.tb.root, false, []⟩ rfl rfl rfl ?_ hdovalid
    (decoded_eq_of_find (hdolen.trans h.dolen_eq) fun _ hj => absurd hj (Nat.not_lt_zero _))⟩
  rw [hu, h.frame, ← hp]

theorem expand_decode (cs : List Byte) :
    (Pseudo.decode (p :: cs)).expand = [.decbeg, .decb p] ++ cs.map .decb ++ [.decend] := rfl

/-- DECODE of a stream with a valid first byte, which is 0 when no code byte follows. -/
theorem decode_outcome (hp : s.phase = .ready) (hm : 1 ≤ s.params.lenMax) (h7 : p.toNat ≤ 7) (cs : List Byte)
    (hcs : cs = [] → p = 0) :
    ∃ u, execAll (Pseudo.decode (p :: cs)).expand s = .next u ∧ DecodeOutcome s p.toNat cs u := by
  rw [expand_decode]
  rcases cs.eq_nil_or_concat' with rfl | ⟨ws, w, rfl⟩
  · obtain rfl := hcs rfl
    obtain ⟨t, hall, ht⟩ := decoding_padded hp h7 hm
    obtain ⟨u, hexec, hu⟩ := decend_padded hp ht
    exact ⟨u, (execAll_concat hall .decend).trans hexec, hu⟩
  · obtain ⟨t, hall, ⟨hhalt, hcause⟩ | ⟨r, hdec⟩⟩ := decode_bytes hp h7 hm ws w
    · refine ⟨t, (execAll_concat hall .decend).trans (hhalt.exec Instr.noConfusion), .capacity hhalt ?_⟩
      rw [List.length_append, List.length_singleton, streamBits_concat h7, decodeBits_append]
      exact hcause.imp_left fun hnone => by rw [hnone, Option.bind_none]
    · obtain ⟨u, hexec, hu⟩ := decend_decoding hp h7 hdec
      exact ⟨u, (execAll_concat hall .decend).trans hexec, hu⟩

/-- Settles O49: of the outcomes of DECODE, the byte counter being full is excluded by the length of the stream. -/
theorem decodeWalksTheWholeStream : Obligations.DecodeWalksTheWholeStream := by
  intro s p cs hp h7 hne hlen
  change cs.length + 1 ≤ s.params.lenMax at hlen
  obtain ⟨u, hall, hu⟩ := decode_outcome hp (by omega) h7 cs (fun hnil => absurd hne (by simp [hnil]))
  obtain ⟨hst, htb, hcg, hen⟩ := execAll_decoder_units (fun _ => decoderCommand_of_mem) hall
  refine ⟨u, hall, hst, htb, hcg, hen, ?_⟩
  cases hu with
  | capacity halted cause =>
    rw [cause.resolve_right (Nat.not_lt.2 hlen)]
    exact halted
  | corrupt r walked bad halted =>
    simp only [walked, if_pos bad]
    exact halted
  | complete r walked alive at_root frame dovalid decoded =>
    simp only [walked, if_neg (show ¬ (r.dead = true ∨ r.cur ≠ s.tb.root) by simp [alive, at_root])]
    exact ⟨frame, dovalid, decoded⟩

/-! ## The stream of an encoding -/

/-- ENCBEG and the ENC commands of a text whose symbols all have codes: CAPACITY, or the codes packed (R143). -/
theorem encode_text (hp : s.phase = .ready) (hd : 1 ≤ s.params.pkDepth) (hl : ∀ y ∈ l, s.cvalidAt y = true) :
    ∃ u, execAll (.encbeg :: l.map .enc) s = .next u ∧ (u.HaltedBy .capacity ∨ Encoding s l u) := by
  induction l using List.reverseRecOn with
  | nil =>
    obtain ⟨t, hexec, ht⟩ := encbeg_encoding hp hd
    exact ⟨t, (execAll_singleton _ _).trans hexec, .inr ht⟩
  | append_singleton l y ih =>
    obtain ⟨t, hall, ht⟩ := ih fun z hz => hl z (List.mem_append_left _ hz)
    have hy : s.cvalidAt y = true := hl y (List.mem_append_right _ List.mem_cons_self)
    have hnext : execAll (.encbeg :: (l ++ [y]).map .enc) s = exec (.enc y) t := by
      rw [List.map_append, ← List.cons_append]
      exact execAll_concat hall (.enc y)
    rw [hnext]
    rcases ht with hhalt | henc
    · exact ⟨t, hhalt.exec Instr.noConfusion, .inl hhalt⟩
    · by_cases hroom : l.length ≠ s.params.lenMax ∧ 1 + ((s.codes l).length + s.clenAt y) / 8 ≤ s.params.pkDepth
      · obtain ⟨u, hexec, hu⟩ := enc_encoding henc hy hroom.1 hroom.2
        exact ⟨u, hexec, .inr hu⟩
      · have hcap : encBody y t = .raise .capacity := by
          refine encBody_full (by rw [henc.frame]; exact hy) ?_
          have hclen : t.clenAt y = s.clenAt y := by rw [henc.frame]; rfl
          have hpar : t.params = s.params := by rw [henc.frame]
          rw [henc.enccnt_eq, henc.packed.pklen_eq, henc.packed.nbits_eq, hclen, hpar]
          omega
        have hleg : Instr.legalIn (.enc y) t.phase = true := by rw [henc.frame]; rfl
        exact ⟨_, exec_raise (i := .enc y) hleg hcap, .inl (raiseFault_haltedBy _ _ _)⟩

/-- The counter and the buffer have room for the encoding of a text (R141, R142). -/
def State.RoomToEncode (s : State) (l : List Byte) : Prop :=
  l.length ≤ s.params.lenMax ∧ 1 + ((s.codes l).length + padding (s.codes l).length) / 8 ≤ s.params.pkDepth

/-- ENCODE of a text without room for it is CAPACITY (R184). -/
theorem encode_without_room (h : s.Inv) (hp : s.phase = .ready) (hl : ∀ y ∈ l, s.cvalidAt y = true)
    (hroom : ¬ s.RoomToEncode l) : ∃ t, execAll (Pseudo.encode l).expand s = .next t ∧ t.HaltedBy .capacity := by
  obtain ⟨t, hall, hhalt | henc⟩ := encode_text hp (one_le_lenMax_pkDepth h.params_ok).2 hl
  · exact ⟨t, (execAll_concat hall .encend).trans (hhalt.exec Instr.noConfusion), hhalt⟩
  · have ht := (inv_keptByParts.of_execAll h hall).encoder_ok
    have hcnt := ht.enccnt_fits
    have hpk := ht.pklen_le
    have hpar : t.params = s.params := by rw [henc.frame]
    have hleg : Instr.legalIn .encend t.phase = true := by rw [henc.frame]; rfl
    have hpklen := henc.packed.pklen_eq
    have hnbits := henc.packed.nbits_eq
    rw [henc.enccnt_eq, hpar] at hcnt
    rw [hpar] at hpk
    have hfull : ¬ 1 + ((s.codes l).length + padding (s.codes l).length) / 8 ≤ s.params.pkDepth := fun hle =>
      hroom ⟨hcnt, hle⟩
    unfold padding at hfull
    have hcap : encendBody t = .raise .capacity := encendBody_full (by omega) (by rw [hpar]; omega)
    exact ⟨_, (execAll_concat hall .encend).trans (exec_raise (i := .encend) hleg hcap), raiseFault_haltedBy _ _ _⟩

/-- A byte whose bits are the k-th group of 8 bits of a string. -/
theorem byteBits_eq_group {b : BitString} {v : Byte} {k : Nat} (hk : 8 * (k + 1) ≤ b.length)
    (hv : ∀ j, j < 8 → v.getLsbD (7 - j) = b.getD (8 * k + j) false) : byteBits v 0 = (b.drop (8 * k)).take 8 := by
  refine List.ext_getElem (by simp; omega) fun j hj _ => ?_
  rw [byteBits_length] at hj
  rw [List.getElem_take, List.getElem_drop, ← List.getD_eq_getElem b false, ← hv j hj]
  simp [byteBits]

theorem flatMap_groups (b : BitString) (n : Nat) :
    (List.range n).flatMap (fun k => (b.drop (8 * k)).take 8) = b.take (8 * n) := by
  induction n with
  | zero => rfl
  | succ n ih => rw [List.range_succ, List.flatMap_append, ih, List.flatMap_singleton, Nat.mul_succ, List.take_add]

/-- ENCODE of a text with room for it leaves the stream whose code bits are the codes of the text (R140, R67). -/
theorem encode_stream (hp : s.phase = .ready) (hl : ∀ y ∈ l, s.cvalidAt y = true) (hroom : s.RoomToEncode l) :
    ∃ t cs, execAll (Pseudo.encode l).expand s = .next t ∧ t = { s with en := t.en } ∧
      t.packedStream = BitVec.ofNat 8 (padding (s.codes l).length) :: cs ∧
      streamBits (padding (s.codes l).length) cs = s.codes l ∧
      cs.length = ((s.codes l).length + padding (s.codes l).length) / 8 := by
  obtain ⟨t, hall, hframe, hpklen, hfirst, hbits, -⟩ := encodeProducesThePackedStream l s hp hl hroom.1 hroom.2
  have hmul : ((s.codes l).length + padding (s.codes l).length) % 8 = 0 := (paddingIsTheLeast _).2.1
  set b := s.codes l
  set n := (b.length + padding b.length) / 8
  have hlen : (b ++ List.replicate (padding b.length) false).length = 8 * n := by
    rw [List.length_append, List.length_replicate]
    omega
  have hbyte : ∀ k ∈ List.range n, byteBits (t.pkmemAt (1 + k)) 0 =
      ((b ++ List.replicate (padding b.length) false).drop (8 * k)).take 8 := fun k hk => by
    have hkn := List.mem_range.1 hk
    refine byteBits_eq_group (by omega) fun j hj => ?_
    rw [hbits (1 + k) j (by omega) (by omega) hj, Nat.add_sub_cancel_left]
  refine ⟨t, (List.range n).map fun k => t.pkmemAt (1 + k), hall, hframe, ?_, ?_, by simp⟩
  · rw [State.packedStream, hpklen, Nat.add_comm, List.range_succ_eq_map, List.map_cons, hfirst, List.map_map]
    simp [Function.comp_def, Nat.add_comm]
  · rw [streamBits, List.flatMap_map, List.flatMap_congr hbyte, flatMap_groups, List.take_take, List.length_map,
      List.length_range]
    refine List.take_left' ?_
    omega

/-! ## The walk of a text's codes -/

/-- The walk of the codes of a text from an empty candidate emits the text, unless DOMEM has no room for it (R160, R165). -/
theorem walkBits_codes (hs : SymbolTableOk s) (ht : TreeShape s) (hc : CodeBookShape s)
    (hl : ∀ y ∈ l, s.cvalidAt y = true) {out : List Byte} (hfit : s.de.dolen + out.length ≤ s.params.doDepth) :
    s.walkBits (s.codes l) ⟨s.tb.root, false, out⟩ =
      if s.de.dolen + (out ++ l).length ≤ s.params.doDepth then some ⟨s.tb.root, false, out ++ l⟩ else none := by
  induction l generalizing out with
  | nil => simp [State.codes, State.walkBits, hfit]
  | cons y l ih =>
    rw [show s.codes (y :: l) = s.code y ++ s.codes l from rfl, walkBits_append,
      walkBits_code hs ht hc (hl y List.mem_cons_self)]
    by_cases hfull : s.de.dolen + out.length = s.params.doDepth
    · rw [if_pos hfull, if_neg (by rw [List.length_append, List.length_cons]; omega), Option.bind_none]
    · rw [if_neg hfull, Option.bind_some, List.append_cons out y l]
      refine ih (fun z hz => hl z (List.mem_cons_of_mem y hz)) ?_
      rw [List.length_append, List.length_singleton]
      omega

theorem decodeBits_codes (h : s.Inv) (hp : s.phase = .ready) (hl : ∀ y ∈ l, s.cvalidAt y = true) :
    s.decodeBits (s.codes l) = if l.length ≤ s.params.doDepth then some ⟨s.tb.root, false, l⟩ else none := by
  have hw : s.workPhase = .ready := (workPhase_running (by simp [hp])).trans hp
  have ht := h.tree_ok.built_after (by simp [hw])
  have hc := h.code_ok.derived_after (by simp [hw]) (by simp [hw])
  refine (walkBits_codes (s := { s with de := { s.de with dolen := 0 } }) (out := []) (h.symbols_ok.congr rfl rfl)
    (ht.congr rfl rfl rfl rfl rfl rfl) (hc.congr rfl rfl rfl rfl rfl) hl (by simp)).trans ?_
  simp

/-! ## The round trips (R162) -/

/-- Decoding the stream of an encoding gives the text, unless the text does not fit DOMEM or the stream the byte counter. -/
theorem decode_encoded (h : s.Inv) (hp : s.phase = .ready) (hl : ∀ y ∈ l, s.cvalidAt y = true)
    (hroom : s.RoomToEncode l) :
    ∃ t u, execAll (Pseudo.encode l).expand s = .next t ∧ execAll (Pseudo.decode t.packedStream).expand t = .next u ∧
      (u.HaltedBy .capacity ∧ (s.params.doDepth < l.length ∨
          s.params.lenMax < 1 + ((s.codes l).length + padding (s.codes l).length) / 8) ∨
        u = { s with en := t.en, de := u.de } ∧ u.de.dovalid = true ∧ u.decoded = l) := by
  obtain ⟨t, cs, hall, hframe, hstream, hbits, hlen⟩ := encode_stream hp hl hroom
  have hpad := (paddingIsTheLeast (s.codes l).length).1
  have htoNat : (BitVec.ofNat 8 (padding (s.codes l).length)).toNat = padding (s.codes l).length := by
    rw [BitVec.toNat_ofNat]
    omega
  have hpar : t.params = s.params := by rw [hframe]
  have hpt : t.phase = .ready := by rw [hframe]; exact hp
  have hcg : t.cg = s.cg := by rw [hframe]
  have hcode : t.codes l = s.codes l := by rw [State.codes, code_congr hcg (by rw [hframe])]; rfl
  have hti : t.Inv := inv_keptByParts.of_execAll h hall
  have hempty : cs = [] → BitVec.ofNat 8 (padding (s.codes l).length) = 0 := by
    rintro rfl
    have hmul : ((s.codes l).length + padding (s.codes l).length) % 8 = 0 := (paddingIsTheLeast _).2.1
    rw [List.length_nil] at hlen
    exact congrArg (BitVec.ofNat 8) (show padding (s.codes l).length = 0 by omega)
  obtain ⟨u, hdec, hu⟩ := decode_outcome hpt (one_le_lenMax_pkDepth hti.params_ok).1 (htoNat.trans_le hpad) cs hempty
  have hwalk := decodeBits_codes hti hpt (l := l) fun y hy => by rw [cvalidAt_congr hcg]; exact hl y hy
  rw [hcode, ← hbits, hpar] at hwalk
  rw [htoNat] at hu
  refine ⟨t, u, hall, hstream ▸ hdec, ?_⟩
  cases hu with
  | capacity halted cause =>
    rw [hwalk, hlen, hpar] at cause
    refine .inl ⟨halted, cause.imp (fun hnone => ?_) fun hlt => by omega⟩
    by_contra hfit
    rw [if_pos (Nat.not_lt.1 hfit)] at hnone
    cases hnone
  | corrupt r walked bad halted =>
    rw [hwalk] at walked
    split at walked
    · obtain rfl := Option.some.inj walked
      simp at bad
    · cases walked
  | complete r walked alive at_root frame dovalid decoded =>
    rw [hwalk] at walked
    split at walked
    · obtain rfl := Option.some.inj walked
      refine .inr ⟨?_, dovalid, decoded⟩
      rw [frame, hframe]
    · cases walked

/-- Settles O51: with room for the encoding it is `decode_encoded`; without, ENCODE halts with CAPACITY and the core ignores
the commands of DECODE. -/
theorem roundTripGivesTheInput : Obligations.RoundTripGivesTheInput := by
  intro s l h hp hl
  by_cases hroom : s.RoomToEncode l
  · obtain ⟨t, u, henc, hdec, ⟨⟨hhalt, hcode⟩, -⟩ | ⟨hu, hvalid, hout⟩⟩ := decode_encoded h hp hl hroom
    · exact ⟨t, u, henc, hdec, fun _ => hcode, fun hrun => absurd hhalt hrun⟩
    · refine ⟨t, u, henc, hdec, fun hhalt => ?_, fun _ => ⟨hu, hvalid, hout⟩⟩
      rw [hu] at hhalt
      exact Phase.noConfusion (hp.symm.trans hhalt)
  · obtain ⟨t, henc, hhalt, hcode⟩ := encode_without_room h hp hl hroom
    exact ⟨t, t, henc, execAll_halted hhalt fun i hi => (decoderCommand_of_mem hi).ne_clr, fun _ => hcode,
      fun hrun => absurd hhalt hrun⟩

/-- COUNT, BUILD and GEN of a text that is not empty and that TOTAL can count leave a good state in READY with a code for
each symbol of the text (R91, R100, R120). -/
theorem table_ready {x : List Byte} (h : s.Inv) (hp : s.phase = .count) (hst : s.st = .reset) (hx : x ≠ [])
    (hlen : x.length ≤ s.params.lenMax) :
    ∃ r, execAll (Pseudo.table x).expand s = .next r ∧ r.Inv ∧ r.phase = .ready ∧ r.params = s.params ∧
      ∀ y ∈ x, r.cvalidAt y = true := by
  obtain ⟨a, hsym, ha, hcount, -, hnsym, -⟩ := symbolTableOfInput x s hp hst hlen
  have hai : a.Inv := inv_keptByParts.of_execAll h hsym
  have hpos : 1 ≤ a.st.nsym := by
    obtain ⟨y, x, rfl⟩ := List.exists_cons_of_ne_nil hx
    rw [hnsym, List.eraseDups_cons, List.length_cons]
    omega
  obtain ⟨b, hbuild, hb, -⟩ := buildMakesTheTree a hai (by rw [ha]; exact hp) hpos
  have hbi : b.Inv := inv_keptByParts.of_exec hai hbuild
  obtain ⟨r, hgen, hr, hcv, -⟩ := genDerivesTheCodeBook b hbi (by rw [hb])
  refine ⟨r, ?_, inv_keptByParts.of_exec hbi hgen, by rw [hr], by rw [hr, hb, ha], fun y hy => ?_⟩
  · rw [Pseudo.expand, execAll_append_next hsym, execAll_cons hbuild, execAll_singleton, hgen]
  · rw [hcv, hb]
    show 1 ≤ a.countAt y
    rw [hcount]
    exact List.count_pos_iff.2 hy

/-- Settles O52: after COUNT, BUILD and GEN every symbol of the text has a code, and the premises exclude each CAPACITY. -/
theorem roundTripFromTheStart : Obligations.RoundTripFromTheStart := by
  intro s x h hp hst hx hlen hfit
  obtain ⟨r, htable, hri, hrp, hpar, hcv⟩ := table_ready h hp hst hx hlen
  refine ⟨r, htable, hrp, fun hpk hbytes => ?_⟩
  have hbound : ((r.codes x).length + padding (r.codes x).length) / 8 = ((r.codes x).length + 7) / 8 := by
    unfold padding
    omega
  have hroom : r.RoomToEncode x := by
    rw [State.RoomToEncode, hpar, hbound]
    exact ⟨hlen, hpk⟩
  obtain ⟨t, u, henc, hdec, ⟨-, hcause⟩ | ⟨hu, hvalid, hout⟩⟩ := decode_encoded hri hrp hcv hroom
  · rw [hpar, hbound] at hcause
    exact absurd hcause (not_or.2 ⟨Nat.not_lt.2 hfit, Nat.not_lt.2 hbytes⟩)
  · refine ⟨t, u, henc, hdec, by rw [hu]; exact hrp, hvalid, ?_, hout⟩
    rw [← hout, State.decoded, List.length_map, List.length_range]

end Sys2Proof.Machine
end

section
/-!
PROOFS. The statements about the faults of 60_exceptions.md: fault entry (R186, R191), the codes with their causes (R182 to
R184, R187, R188), and the halted core (R192, R193, R195).
-/

namespace Sys2Proof.Machine

variable {s t : State} {i : Instr} {c : ECode} {w : CmdWord} {y b : Byte}

/-! ## Fault entry -/

/-- The offset that fault entry records, phase by phase (R199). -/
theorem offset_of_count (hp : s.phase = .count) : s.offset = s.st.total := by rw [State.offset, hp]

theorem offset_of_tree (hp : s.phase = .tree) : s.offset = 0 := by rw [State.offset, hp]

theorem offset_of_ready (hp : s.phase = .ready) : s.offset = 0 := by rw [State.offset, hp]

theorem offset_of_enc (hp : s.phase = .enc) : s.offset = s.en.enccnt := by rw [State.offset, hp]

theorem offset_of_dec (hp : s.phase = .dec) : s.offset = s.de.dbytes := by rw [State.offset, hp]

/-- `fault_o` shows whether ECODE is other than 0 (R195). -/
theorem faultOut_iff : s.faultOut = true ↔ s.fr.ecode ≠ .noFault := bne_iff_ne

/-- Settles O14: the record has the offset of the phase in which the fault is raised. -/
theorem faultEntryRecordsCause : Obligations.FaultEntryRecordsCause := fun s code low =>
  ⟨rfl, offset_of_count, offset_of_tree, offset_of_ready, offset_of_enc, offset_of_dec,
    (faultOut_iff (s := s.raiseFault code low)).2⟩

/-- A command that halts a running core has raised a fault, whose code is not 0 (R181). -/
theorem exec_halts_by_raiseFault (h : exec i s = .next t) (hrun : s.phase ≠ .halt) (hhalt : t.phase = .halt) :
    ∃ c, c ≠ .noFault ∧ t = s.raiseFault c i.imm8 := by
  obtain ⟨c, ht, rfl | ⟨-, hb⟩⟩ := exec_halts h hrun hhalt
  · exact ⟨.sequence, ECode.noConfusion, ht⟩
  · exact ⟨c, (commandBody_raise hb).1, ht⟩

/-- Settles O15: a command halts a running core by fault entry, and so does a word that is no command. -/
theorem faultsArePrecise : Obligations.FaultsArePrecise := by
  intro w s t hrun h hhalt
  rcases executeWord_next h with ⟨i, hd, hi⟩ | ⟨e, -, rfl⟩
  · rw [(imm8_of_decode hd).1]
    exact exec_halts_by_raiseFault hi hrun hhalt
  · exact ⟨.illegalCmd, ECode.noConfusion, rejectWord_running hrun w⟩

/-! ## The halted core -/

/-- Every word but CLR's leaves a halted core as it is: another command is ignored, and so is a word that is no command
(R192). -/
theorem executeWord_halted (hhalt : s.phase = .halt) (hw : w ≠ 0x0100) : executeWord w s = .next s := by
  cases hd : decode w with
  | ok i =>
    have hclr : i ≠ .clr := by
      rintro rfl
      exact hw (encode_of_decode hd).symm
    rw [executeWord_of_decode hd, exec_halted hhalt hclr]
  | error e => rw [executeWord_of_error hd, rejectWord_halted hhalt]

/-- The read port shows the entry a read has selected, if the index fits `rd_addr` (R42). -/
theorem selectRead_rdData_toNat {a : Nat} (space : BitVec 3) (ha : a < 2 ^ s.params.raW) :
    (s.selectRead space a).rdData.toNat = s.readEntry space a % 2 ^ s.params.rdW := by
  have hdata : (s.selectRead space a).rdData.toNat =
      s.readEntry space (a % 2 ^ s.params.raW) % 2 ^ s.params.rdW := rdData_toNat _
  rwa [Nat.mod_eq_of_lt ha] at hdata

/-- Settles O13: 0x0100 is the word of CLR, the one command performed in HALT, and a read writes the pins alone. -/
theorem haltedCoreIgnoresWords : Obligations.HaltedCoreIgnoresWords := fun s hhalt =>
  ⟨rfl, fun _ hw => executeWord_halted hhalt hw, executeWord_of_decode (decode_encode .clr) s,
    fun space _ ha => ⟨selectRead_rdData_toNat space ha, rfl, hhalt⟩⟩

/-- A halted core keeps its fault record in a step that takes neither CLR nor reset (R193). -/
theorem step_halted (hhalt : s.phase = .halt) (h : step s = .next t) :
    t.fr = s.fr ∨ ∃ rest, s.port.inputs = .command 0x0100 :: rest ∨ s.port.inputs = .reset :: rest := by
  rcases step_next h with ⟨-, rfl⟩ | ⟨w, rest, hin, hexec⟩ | ⟨space, addr, rest, -, rfl⟩ | ⟨rest, hin, rfl⟩
  · exact .inl rfl
  · by_cases hw : w = 0x0100
    · exact .inr ⟨rest, .inl (hw ▸ hin)⟩
    · have hkeep : executeWord w (s.takeInput rest) = .next (s.takeInput rest) := executeWord_halted hhalt hw
      obtain rfl := Host.Outcome.next.inj (hkeep.symm.trans hexec)
      exact .inl rfl
  · exact .inl rfl
  · exact .inr ⟨rest, .inr hin⟩

theorem faultOut_iff_halted (h : FaultRecordOk s) : s.faultOut = true ↔ s.phase = .halt :=
  faultOut_iff.trans h.halted_iff

/-- Settles O21: while `fault_o` is 1 the core is halted, and every step but CLR and reset keeps the record that `fault_o`
shows. -/
theorem faultOutputFallsOnlyByClear : Obligations.FaultOutputFallsOnlyByClear := by
  intro s hs
  have hout := faultOut_iff_halted hs.fault_ok
  refine ⟨hout, fun t h hup hdown => ?_⟩
  rcases step_halted (hout.1 hup) h with hfr | hclear
  · have hsame : t.faultOut = s.faultOut := by rw [State.faultOut, hfr, State.faultOut]
    rw [hsame, hup] at hdown
    cases hdown
  · exact hclear

/-! ## SEQUENCE (R187) -/

/-- Settles O16: each command is legal in the one phase of the table, CLR in every phase, and NOP in every phase of a
running core. -/
theorem outOfPhaseIsSequence : Obligations.OutOfPhaseIsSequence := by
  intro s hrun
  have hseq : ∀ i : Instr, Instr.legalIn i s.phase = false → exec i s = .next (s.raiseFault .sequence i.imm8) :=
    fun _ hl => exec_sequence hrun hl
  refine ⟨fun hp => ?count, fun hp => ?tree, fun hp => ?ready, fun hp => ?enc, fun hp => ?dec, exec_nop s, exec_clr s⟩
  all_goals have hl := beq_eq_false_iff_ne.2 hp
  case count => exact ⟨fun y => hseq (.sym y) hl, hseq .build hl⟩
  case tree => exact hseq .gen hl
  case ready => exact ⟨hseq .encbeg hl, hseq .decbeg hl⟩
  case enc => exact ⟨fun y => hseq (.enc y) hl, hseq .encend hl⟩
  case dec => exact ⟨fun b => hseq (.decb b) hl, hseq .decend hl⟩

/-- SEQUENCE is the frame's fault: a command that is performed does not raise it (R190). -/
theorem exec_sequence_iff (h : exec i s = .next t) (hrun : s.phase ≠ .halt) :
    (t.phase = .halt ∧ t.fr.ecode = .sequence) ↔ Instr.legalIn i s.phase = false := by
  constructor
  · rintro ⟨hhalt, hcode⟩
    rcases exec_next h with ⟨hs, -⟩ | ⟨hl, hb⟩ | ⟨-, c, hb, rfl⟩ | ⟨-, hl, -⟩
    · exact absurd hs hrun
    · exact absurd ((commandBody_phase hl hb).symm.trans hhalt) (phaseAfter_ne_halt hrun)
    · obtain ⟨-, -, hne⟩ := commandBody_raise hb
      exact absurd hcode hne
    · exact hl
  · intro hl
    obtain rfl := Host.Outcome.next.inj ((exec_sequence hrun hl).symm.trans h)
    exact ⟨rfl, rfl⟩

/-! ## EMPTY_INPUT (R182) and UNKNOWN_SYMBOL (R183) -/

/-- The faults a command raises of itself: EMPTY_INPUT and UNKNOWN_SYMBOL in one case each, CAPACITY and
CORRUPT_STREAM. -/
theorem commandBody_raise_cases (h : commandBody i s = .raise c) :
    (c = .emptyInput ∧ i = .build ∧ s.st.nsym = 0) ∨
    (c = .unknownSymbol ∧ ∃ y, i = .enc y ∧ s.cvalidAt y = false) ∨ c = .capacity ∨ c = .corruptStream := by
  cases i with
  | sym y => exact .inr (.inr (.inl (symBody_raise h).2))
  | build =>
    obtain ⟨hn, hc⟩ := buildBody_raise h
    exact .inl ⟨hc, rfl, hn⟩
  | gen => exact absurd h genBody_no_raise
  | enc y =>
    rcases encBody_raise h with ⟨hy, hc⟩ | ⟨-, hc, -⟩
    · exact .inr (.inl ⟨hc, y, rfl, hy⟩)
    · exact .inr (.inr (.inl hc))
  | encend =>
    obtain ⟨-, -, hc⟩ := encendBody_raise h
    exact .inr (.inr (.inl hc))
  | decb b =>
    rcases decbBody_raise h with ⟨hc, -⟩ | ⟨hc, -⟩
    · exact .inr (.inr (.inl hc))
    · exact .inr (.inr (.inr hc))
  | decend =>
    rcases decendBody_raise h with ⟨hc, -⟩ | ⟨hc, -⟩
    · exact .inr (.inr (.inr hc))
    · exact .inr (.inr (.inl hc))
  | _ => exact Performed.noConfusion h

theorem commandBody_emptyInput_iff :
    commandBody i s = .raise .emptyInput ↔ i = .build ∧ s.st.nsym = 0 := by
  constructor
  · intro h
    simpa using commandBody_raise_cases h
  · rintro ⟨rfl, hn⟩
    exact buildBody_empty hn

theorem commandBody_unknownSymbol_iff :
    commandBody i s = .raise .unknownSymbol ↔ ∃ y, i = .enc y ∧ s.cvalidAt y = false := by
  constructor
  · intro h
    simpa using commandBody_raise_cases h
  · rintro ⟨y, rfl, hy⟩
    exact encBody_unknown hy

/-- Settles O18: SEQUENCE is the frame's fault; the others are those of the pseudocode, of which none raises
ILLEGAL_CMD. -/
theorem faultCodesHaveTheirCauses : Obligations.FaultCodesHaveTheirCauses := by
  intro i s t h hrun
  refine ⟨exec_sequence_iff h hrun, ?empty, ?unknown, ?illegal⟩
  case empty =>
    rw [exec_fault_iff h hrun ECode.noConfusion, commandBody_emptyInput_iff]
    constructor
    · rintro ⟨hl, rfl, hn⟩
      exact ⟨rfl, phase_of_legalIn hl, hn⟩
    · rintro ⟨rfl, hp, hn⟩
      exact ⟨beq_iff_eq.2 hp, rfl, hn⟩
  case unknown =>
    rw [exec_fault_iff h hrun ECode.noConfusion, commandBody_unknownSymbol_iff]
    constructor
    · rintro ⟨hl, y, rfl, hy⟩
      exact ⟨y, rfl, phase_of_legalIn hl, hy⟩
    · rintro ⟨y, rfl, hp, hy⟩
      exact ⟨beq_iff_eq.2 hp, y, rfl, hy⟩
  case illegal =>
    rw [exec_fault_iff h hrun ECode.noConfusion]
    rintro ⟨-, hb⟩
    obtain ⟨-, hne, -⟩ := commandBody_raise hb
    exact hne rfl

/-- With no symbol listed in ORDER nothing has been counted (R13, R14). -/
theorem total_eq_zero_of_nsym_eq_zero (hs : SymbolTableOk s) (hn : s.st.nsym = 0) : s.st.total = 0 := by
  have horder : s.st.order = [] := by simpa [hn] using hs.order_listed
  have hcount : ∀ y, s.countAt y = 0 := fun y => by simpa [State.symbols, horder] using hs.counted_iff y
  simp [hs.total_eq, State.countSum, hcount]

/-- Settles O27: BUILD checks NSYM first, and TOTAL, the offset of the phase COUNT, is 0. -/
theorem buildOfEmptyInputFaults : Obligations.BuildOfEmptyInputFaults := by
  intro s hs hp hn
  have hoff : s.offset = 0 := (offset_of_count hp).trans (total_eq_zero_of_nsym_eq_zero hs hn)
  rw [exec_raise (i := .build) (beq_iff_eq.2 hp) (buildBody_empty hn), State.raiseFault, hp, hoff]
  rfl

/-! ## CAPACITY (R184) -/

theorem symBody_capacity_iff : symBody y s = .raise .capacity ↔ s.st.total = s.params.lenMax :=
  ⟨fun h => (symBody_raise h).1, symBody_full y⟩

theorem encBody_capacity_iff : encBody y s = .raise .capacity ↔
    s.cvalidAt y = true ∧ (s.en.enccnt = s.params.lenMax ∨
      s.en.pklen + (s.en.nbits + s.clenAt y) / 8 > s.params.pkDepth) := by
  constructor
  · intro h
    rcases encBody_raise h with ⟨-, hc⟩ | ⟨hy, -, hfull⟩
    · exact ECode.noConfusion hc
    · exact ⟨hy, hfull⟩
  · rintro ⟨hy, hfull⟩
    exact encBody_full hy hfull

theorem encendBody_capacity_iff : encendBody s = .raise .capacity ↔
    s.en.nbits > 0 ∧ s.en.pklen + 1 > s.params.pkDepth := by
  constructor
  · intro h
    obtain ⟨hn, hfull, -⟩ := encendBody_raise h
    exact ⟨hn, hfull⟩
  · rintro ⟨hn, hfull⟩
    exact encendBody_full hn hfull

/-- DECB needs a count for its byte, and DOMEM entries for the symbols of the byte held before it (R156). -/
theorem decbBody_capacity_iff : decbBody b s = .raise .capacity ↔
    s.de.dbytes = s.params.lenMax ∨ s.de.hdrv = true ∧ s.de.holdv = true ∧ s.walk s.de.hold 0 = none := by
  constructor
  · intro h
    rcases decbBody_raise h with ⟨-, hcause⟩ | ⟨hc, -⟩
    · exact hcause
    · exact ECode.noConfusion hc
  · intro hcause
    by_cases hfull : s.de.dbytes = s.params.lenMax
    · exact decbBody_counter_full b hfull
    · obtain ⟨hh, hv, hw⟩ := hcause.resolve_left hfull
      exact decbBody_walk_full hfull b hh hv hw

theorem decendBody_capacity_iff : decendBody s = .raise .capacity ↔
    s.de.hdrv = true ∧ s.de.holdv = true ∧ s.walk s.de.hold s.de.dpad = none := by
  constructor
  · intro h
    rcases decendBody_raise h with ⟨hc, -⟩ | ⟨-, hcause⟩
    · exact ECode.noConfusion hc
    · exact hcause
  · rintro ⟨hh, hv, hw⟩
    exact decendBody_walk_full hh hv hw

/-- Settles O19: CAPACITY is a fault of a command's own, raised by SYM, ENC, ENCEND, DECB and DECEND for the lines of the
table. -/
theorem capacityListIsComplete : Obligations.CapacityListIsComplete := by
  intro i s t h hrun
  refine ⟨?_, fun hhalt hcode => exec_fault_eq h hrun hhalt hcode⟩
  rw [exec_fault_iff h hrun ECode.noConfusion]
  constructor
  · rintro ⟨hl, hb⟩
    have hp := phase_of_legalIn hl
    cases i with
    | sym y => exact .inl ⟨y, rfl, hp, symBody_capacity_iff.1 hb⟩
    | enc y => exact .inr (.inl ⟨y, rfl, hp, encBody_capacity_iff.1 hb⟩)
    | encend => exact .inr (.inr (.inl ⟨rfl, hp, encendBody_capacity_iff.1 hb⟩))
    | decb b => exact .inr (.inr (.inr (.inl ⟨b, rfl, hp, decbBody_capacity_iff.1 hb⟩)))
    | decend => exact .inr (.inr (.inr (.inr ⟨rfl, hp, decendBody_capacity_iff.1 hb⟩)))
    | build => exact ECode.noConfusion (buildBody_raise hb).2
    | gen => exact absurd hb genBody_no_raise
    | _ => exact Performed.noConfusion hb
  · rintro (⟨y, rfl, hp, hfull⟩ | ⟨y, rfl, hp, hfull⟩ | ⟨rfl, hp, hfull⟩ | ⟨b, rfl, hp, hfull⟩ | ⟨rfl, hp, hfull⟩)
    · exact ⟨beq_iff_eq.2 hp, symBody_capacity_iff.2 hfull⟩
    · exact ⟨beq_iff_eq.2 hp, encBody_capacity_iff.2 hfull⟩
    · exact ⟨beq_iff_eq.2 hp, encendBody_capacity_iff.2 hfull⟩
    · exact ⟨beq_iff_eq.2 hp, decbBody_capacity_iff.2 hfull⟩
    · exact ⟨beq_iff_eq.2 hp, decendBody_capacity_iff.2 hfull⟩

end Sys2Proof.Machine
end

section
/-!
PROOFS. The statements about reset and termination of 70_reset_and_hazards.md: the reset pin beside CLR (R210, R214), and
that every step ends (R215, R223).

A step can fail only by a command whose pseudocode never ends. GEN alone could be one, and the tree of a good state lets
it end.
-/

namespace Sys2Proof.Machine

variable {s : State} {i : Instr} {y b : Byte} {r : Fault}

/-! ## Reset -/

theorem step_reset {rest : List HostInput} (hin : s.port.inputs = .reset :: rest) :
    step s = .next (s.takeInput rest).clear := by
  rw [step, hin]

/-- Settles O11: the reset pin and CLR are one operation, `State.clear`. -/
theorem resetPinAgreesWithClr : Obligations.ResetPinAgreesWithClr := fun s rest hin =>
  ⟨(s.takeInput rest).clear, step_reset hin, exec_clr (s.takeInput rest), rfl, rfl, rfl, rfl, rfl, rfl, rfl, rfl, rfl, rfl⟩

/-! ## Every command ends -/

theorem symBody_not_stuck : symBody y s ≠ .stuck r := by
  unfold symBody
  split <;> exact Performed.noConfusion

theorem buildBody_not_stuck : buildBody s ≠ .stuck r := by
  unfold buildBody
  dsimp only
  split <;> exact Performed.noConfusion

theorem encBody_not_stuck : encBody y s ≠ .stuck r := by
  rcases encBody_cases y s with ⟨-, hb⟩ | ⟨-, -, hb⟩ | ⟨-, -, -, hb⟩ <;> rw [hb] <;> exact Performed.noConfusion

theorem encendBody_not_stuck : encendBody s ≠ .stuck r := by
  unfold encendBody
  dsimp only
  split
  · split <;> exact Performed.noConfusion
  · exact Performed.noConfusion

theorem decbBody_not_stuck : decbBody b s ≠ .stuck r := by
  unfold decbBody
  split
  · exact Performed.noConfusion
  · split
    · split <;> exact Performed.noConfusion
    · split
      · split <;> exact Performed.noConfusion
      · exact Performed.noConfusion

theorem finishDecode_not_stuck {w : Walk} : s.finishDecode w ≠ .stuck r := by
  unfold State.finishDecode
  split <;> exact Performed.noConfusion

theorem decendBody_not_stuck : decendBody s ≠ .stuck r := by
  unfold decendBody
  split
  · exact Performed.noConfusion
  · split
    · split
      · exact Performed.noConfusion
      · exact finishDecode_not_stuck
    · split
      · exact Performed.noConfusion
      · exact finishDecode_not_stuck

/-- The traversal of GEN ends: the links of the tree that BUILD has made run in no circle (R106, R127). -/
theorem genBody_not_stuck (h : s.Inv) (hp : s.phase = .tree) : genBody s ≠ .stuck r := by
  have ht : TreeShape s := h.tree_ok.built_after (by simp [workPhase_running, hp])
  rw [genBody_done h.symbols_ok ht]
  exact Performed.noConfusion

/-- In a good state the pseudocode of a command in its phase ends (R83, R215). -/
theorem commandBody_not_stuck (h : s.Inv) (hl : Instr.legalIn i s.phase = true) : commandBody i s ≠ .stuck r := by
  cases i with
  | nop | clr | encbeg | decbeg => exact Performed.noConfusion
  | sym y => exact symBody_not_stuck
  | build => exact buildBody_not_stuck
  | gen => exact genBody_not_stuck h (phase_of_legalIn hl)
  | enc y => exact encBody_not_stuck
  | encend => exact encendBody_not_stuck
  | decb b => exact decbBody_not_stuck
  | decend => exact decendBody_not_stuck

/-- The frame of R80 answers a next state unless it performs a pseudocode that never ends. -/
theorem exec_answers (hb : Instr.legalIn i s.phase = true → ∀ r, commandBody i s ≠ .stuck r) :
    ∃ t, exec i s = .next t := by
  cases hl : Instr.legalIn i s.phase with
  | true =>
    cases hd : commandBody i s with
    | done t => exact ⟨t, exec_done hl hd⟩
    | raise c => exact ⟨_, exec_raise hl hd⟩
    | stuck r => exact absurd hd (hb hl r)
  | false =>
    by_cases hhalt : s.phase = .halt
    · have hclr : i ≠ .clr := by
        rintro rfl
        cases hl
      exact ⟨s, exec_halted hhalt hclr⟩
    · exact ⟨_, exec_sequence hhalt hl⟩

theorem executeWord_answers (h : s.Inv) (w : CmdWord) : ∃ t, executeWord w s = .next t := by
  cases hd : decode w with
  | ok i =>
    rw [executeWord_of_decode hd]
    exact exec_answers fun hl _ => commandBody_not_stuck h hl
  | error e => exact ⟨_, executeWord_of_error hd s⟩

/-- Settles O58: an idle step, a read and a reset always answer, and a command word does in a good state, which taking the
word from the host's list leaves good. -/
theorem everyStepCompletes : Obligations.EveryStepCompletes := by
  intro s h
  cases hin : s.port.inputs with
  | nil => exact ⟨s, by rw [step, hin]⟩
  | cons a rest =>
    cases a with
    | command w =>
      rw [step_command hin]
      exact executeWord_answers (inv_takeInput h rest) w
    | read space addr => exact ⟨_, step_read hin⟩
    | reset => exact ⟨_, step_reset hin⟩

end Sys2Proof.Machine
end
